-- ==== Sys2Proof/Word.lean ====
section
/-! DEFINITION. The widths of the block's data (00_scope.md R9, 20_memory.md R73): 16-bit words for registers, operands,
colours and cells, 8-bit bytes for fonts, immediates and the transport. -/

namespace Sys2Proof

/-- A register, operand word, colour or cell value: `u16`. -/
abbrev Word := BitVec 16

/-- An immediate, a font byte, a transport byte: `u8`. -/
abbrev Byte := BitVec 8

end Sys2Proof
end

