-- ==== Sys2Proof/Syntax.lean ====
section
/-! DEFINITION. The twenty commands (30_encoding.md R93), one constructor per row of spec/opcode_table.json. Operands are
already cut out of their words; header fields that the spec says are ignored (R97) are not held. -/

namespace Sys2Proof

inductive Instr where
  /-- `NOP` (R121). -/
  | nop
  /-- `SURFNEW s, w, h` (R122). -/
  | surfnew (slot : Byte) (w h : Word)
  /-- `SURFFREE s` (R123). -/
  | surffree (slot : Byte)
  /-- `SELECT s` (R128). -/
  | select (slot : Byte)
  /-- `SETCUR x, y` (R124). -/
  | setcur (x y : Word)
  /-- `GETCUR` (R125). -/
  | getcur
  /-- `SETFG c` (R126). -/
  | setfg (c : Word)
  /-- `SETFONT f` (R127). -/
  | setfont (f : Byte)
  /-- `FILL c` (R141). -/
  | fill (c : Word)
  /-- `PIXEL x, y, c` (R143). -/
  | pixel (x y c : Word)
  /-- `GETPIX x, y` (R145). -/
  | getpix (x y : Word)
  /-- `LINE x1, y1, x2, y2, c` (R147). -/
  | line (x1 y1 x2 y2 c : Word)
  /-- `RECT` and `RECT.F` `x, y, w, h, radius, c` (R150). -/
  | rect (filled : Bool) (x y w h radius c : Word)
  /-- `SPRITE s, x, y` (R154). -/
  | sprite (src : Byte) (x y : Word)
  /-- `BITMAP x, y, p` (R191); `p` is the 32-bit ASSET word address. -/
  | bitmap (x y : Word) (p : BitVec 32)
  /-- `CHAR c` (R170). -/
  | char (c : Byte)
  /-- `STRING "..."` (R177): the bytes before the terminating zero (R95). -/
  | string (bytes : List Byte)
  /-- `PRESENT s` (R205). -/
  | present (slot : Byte)
  /-- `POLLKEY` (R236). -/
  | pollkey
  /-- `WAITKEY` (R237). -/
  | waitkey
deriving DecidableEq, Repr

end Sys2Proof
end

