-- ==== Sys2Proof/WellFormed.lean ====
section
/-! DEFINITION. Which terms of `Instr` the host can issue. Every operand of a fixed-length command is used whole
(30_encoding.md R92), so the one check is STRING's: none of its bytes is zero (R95, R101, 42_glyph.md R177). -/

namespace Sys2Proof

/-- `i` is a command some word sequence stands for. -/
def Instr.wellFormed (i : Instr) : Bool :=
  match i with
  | .nop => true
  | .surfnew _ _ _ => true
  | .surffree _ => true
  | .select _ => true
  | .setcur _ _ => true
  | .getcur => true
  | .setfg _ => true
  | .setfont _ => true
  | .fill _ => true
  | .pixel _ _ _ => true
  | .getpix _ _ => true
  | .line _ _ _ _ _ => true
  | .rect _ _ _ _ _ _ _ => true
  | .sprite _ _ _ => true
  | .bitmap _ _ _ => true
  | .char _ => true
  | .string bytes => bytes.all fun b => b != 0
  | .present _ => true
  | .pollkey => true
  | .waitkey => true

end Sys2Proof
end

