-- ==== Sys2Proof/Decode.lean ====
section
/-! DEFINITION. How the word stream splits into commands (30_encoding.md R90 to R100), the encoder (R101), and the
pseudo-instructions (R102). -/

namespace Sys2Proof

/-- `OP`, bits 15:8 of a header (R91). -/
def opField (header : Word) : Byte := header.extractLsb' 8 8

/-- `A`, bits 7:0 of a header (R91). -/
def aField (header : Word) : Byte := header.extractLsb' 0 8

/-- The header with opcode `op` and immediate `a` (R91). -/
def header (op a : Byte) : Word := op ++ a

/-- The 32-bit operand of two words, low half first (R96). -/
def pointer (lo hi : Word) : BitVec 32 := hi ++ lo

/-- A row of the opcode map (R93): its mnemonic, its opcode, and its number of operand words, `none` for STRING (R92). -/
structure OpcodeRow where
  mnemonic : String
  op       : Byte
  operands : Option Nat
deriving DecidableEq, Repr

/-- The opcode map (R93, R92). -/
def opcodeMap : List OpcodeRow :=
  [ ⟨"NOP", 0x00, some 0⟩, ⟨"SURFNEW", 0x01, some 2⟩, ⟨"SURFFREE", 0x02, some 0⟩, ⟨"SELECT", 0x03, some 0⟩,
    ⟨"SETCUR", 0x04, some 2⟩, ⟨"GETCUR", 0x05, some 0⟩, ⟨"SETFG", 0x06, some 1⟩, ⟨"SETFONT", 0x07, some 0⟩,
    ⟨"FILL", 0x10, some 1⟩, ⟨"PIXEL", 0x11, some 3⟩, ⟨"GETPIX", 0x12, some 2⟩, ⟨"LINE", 0x13, some 5⟩,
    ⟨"RECT", 0x14, some 6⟩, ⟨"SPRITE", 0x15, some 2⟩, ⟨"BITMAP", 0x16, some 4⟩, ⟨"CHAR", 0x20, some 0⟩,
    ⟨"STRING", 0x21, none⟩, ⟨"PRESENT", 0x30, some 0⟩, ⟨"POLLKEY", 0x40, some 0⟩, ⟨"WAITKEY", 0x41, some 0⟩ ]

/-- How many operand words STRING takes from `ws`: up to and including the first that holds a zero byte (R95, R100). -/
def stringWords : List Word → Option Nat
  | [] => none
  | w :: ws => if aField w = 0 ∨ opField w = 0 then some 1 else (stringWords ws).map (· + 1)

/-- The length rule (R100): the number of words of the command whose first word is `h`, followed by `ws`; `none` where
STRING's terminator is not among `ws`. An illegal opcode has length 1 (R98). -/
def commandLength (h : Word) (ws : List Word) : Option Nat :=
  match opcodeMap.find? (fun r => r.op = opField h) with
  | none => some 1
  | some r =>
    match r.operands with
    | some n => some (n + 1)
    | none => (stringWords ws).map (· + 1)

/-- Why a word sequence does not begin with a command of the map. -/
inductive DecodeError where
  /-- The words are a proper beginning of a command; the next words are its operands (R29, R323). Safe. -/
  | incomplete
  /-- The header's opcode is not in the map (R98). Safe. -/
  | illegalOpcode (op : Byte)
deriving DecidableEq, Repr

/-- STRING's bytes and the words after it (R95): low byte first, cut before the first zero byte. -/
def decodeString : List Word → Option (List Byte × List Word)
  | [] => none
  | w :: ws =>
    if aField w = 0 then some ([], ws)
    else if opField w = 0 then some ([aField w], ws)
    else (decodeString ws).map fun r => (aField w :: opField w :: r.1, r.2)

/-- The command with opcode `op` and immediate `a`, its operands taken from `ws` (R92, R93), and the words after it. -/
def decodeBody (op : Nat) (a : Byte) (ws : List Word) : Except DecodeError (Instr × List Word) :=
  match op with
  | 0x00 => .ok (.nop, ws)
  | 0x01 => match ws with | w :: h :: rest => .ok (.surfnew a w h, rest) | _ => .error .incomplete
  | 0x02 => .ok (.surffree a, ws)
  | 0x03 => .ok (.select a, ws)
  | 0x04 => match ws with | x :: y :: rest => .ok (.setcur x y, rest) | _ => .error .incomplete
  | 0x05 => .ok (.getcur, ws)
  | 0x06 => match ws with | c :: rest => .ok (.setfg c, rest) | _ => .error .incomplete
  | 0x07 => .ok (.setfont a, ws)
  | 0x10 => match ws with | c :: rest => .ok (.fill c, rest) | _ => .error .incomplete
  | 0x11 => match ws with | x :: y :: c :: rest => .ok (.pixel x y c, rest) | _ => .error .incomplete
  | 0x12 => match ws with | x :: y :: rest => .ok (.getpix x y, rest) | _ => .error .incomplete
  | 0x13 =>
    match ws with
    | x1 :: y1 :: x2 :: y2 :: c :: rest => .ok (.line x1 y1 x2 y2 c, rest)
    | _ => .error .incomplete
  | 0x14 =>
    match ws with
    | x :: y :: w :: h :: radius :: c :: rest => .ok (.rect (a.getLsbD 0) x y w h radius c, rest)
    | _ => .error .incomplete
  | 0x15 => match ws with | x :: y :: rest => .ok (.sprite a x y, rest) | _ => .error .incomplete
  | 0x16 =>
    match ws with
    | x :: y :: lo :: hi :: rest => .ok (.bitmap x y (pointer lo hi), rest)
    | _ => .error .incomplete
  | 0x20 => .ok (.char a, ws)
  | 0x21 => match decodeString ws with | some (bytes, rest) => .ok (.string bytes, rest) | none => .error .incomplete
  | 0x30 => .ok (.present a, ws)
  | 0x40 => .ok (.pollkey, ws)
  | 0x41 => .ok (.waitkey, ws)
  | _ => .error (.illegalOpcode (BitVec.ofNat 8 op))

/-- The first command of a word sequence and the words after it. Total on every sequence (R100). -/
def decode : List Word → Except DecodeError (Instr × List Word)
  | [] => .error .incomplete
  | h :: ws => decodeBody (opField h).toNat (aField h) ws

/-- STRING's operand words (R101): two bytes per word, low byte first, the rest of the last word zero. -/
def encodeString : List Byte → List Word
  | [] => [0]
  | [b] => [header 0 b]
  | b0 :: b1 :: bs => header b1 b0 :: encodeString bs

/-- The words of a command, ignored fields zero (R101, R97). -/
def encode (i : Instr) : List Word :=
  match i with
  | .nop => [header 0x00 0]
  | .surfnew slot w h => [header 0x01 slot, w, h]
  | .surffree slot => [header 0x02 slot]
  | .select slot => [header 0x03 slot]
  | .setcur x y => [header 0x04 0, x, y]
  | .getcur => [header 0x05 0]
  | .setfg c => [header 0x06 0, c]
  | .setfont f => [header 0x07 f]
  | .fill c => [header 0x10 0, c]
  | .pixel x y c => [header 0x11 0, x, y, c]
  | .getpix x y => [header 0x12 0, x, y]
  | .line x1 y1 x2 y2 c => [header 0x13 0, x1, y1, x2, y2, c]
  | .rect filled x y w h radius c => [header 0x14 (if filled then 1 else 0), x, y, w, h, radius, c]
  | .sprite src x y => [header 0x15 src, x, y]
  | .bitmap x y p => [header 0x16 0, x, y, p.extractLsb' 0 16, p.extractLsb' 16 16]
  | .char c => [header 0x20 c]
  | .string bytes => header 0x21 0 :: encodeString bytes
  | .present slot => [header 0x30 slot]
  | .pollkey => [header 0x40 0]
  | .waitkey => [header 0x41 0]

/-- The pseudo-instructions of the assembler (R102). The length of a line is a number and no operand word: R102's condition
admits 65536 at coordinate 0. -/
inductive Pseudo where
  | fillrect (x y w h c : Word)
  | hline (x y : Word) (len : Nat) (c : Word)
  | vline (x y : Word) (len : Nat) (c : Word)
  | newline
  | clear
  | showScreen
deriving DecidableEq, Repr

/-- The command a pseudo-instruction stands for (R102); `none` is the assembler's error. -/
def expandPseudo (p : Pseudo) : Option Instr :=
  match p with
  | .fillrect x y w h c => some (.rect true x y w h 0 c)
  | .hline x y len c =>
    if 1 ≤ len ∧ x.toNat + len - 1 ≤ 65535 then some (.line x y (BitVec.ofNat 16 (x.toNat + len - 1)) y c) else none
  | .vline x y len c =>
    if 1 ≤ len ∧ y.toNat + len - 1 ≤ 65535 then some (.line x y x (BitVec.ofNat 16 (y.toNat + len - 1)) c) else none
  | .newline => some (.char 0x0A)
  | .clear => some (.fill 0)
  | .showScreen => some (.present 0)

/-- The words of an instruction numbered as spec/opcode_table.json numbers it: bit 0 is the least significant bit of the
header, the next word's bits count on from it; every bit from `nbits` on is 0. At least eight words are laid out, one more
than the longest fixed command, so that the words after the table's bits are operand words of zeros. -/
def tableWords (nbits w : Nat) : List Word :=
  (List.range (max ((nbits + 15) / 16) 7 + 1)).map fun k => BitVec.ofNat 16 ((w % 2 ^ nbits) >>> (16 * k))

/-- The words of the first command among `tableWords nbits w`, an illegal header being a command of one word (R100). -/
def tableCommand (nbits w : Nat) : List Word :=
  match tableWords nbits w with
  | [] => []
  | h :: ws => (h :: ws).take ((commandLength h ws).getD 1)

/-- The instruction the decoder reads from an instruction whose bits are `w`. -/
def decodeTableWord (nbits w : Nat) : Option Instr :=
  match decode (tableWords nbits w) with
  | .ok (i, _) => some i
  | .error _ => none

end Sys2Proof
end

