-- ==== Sys2Proof/Config.lean ====
section
/-! DEFINITION. What an implementation fixes (00_scope.md R4) and the free values of the model (values that the spec leaves
open, 93_implementation_defined.md U12, U14, U17, U18). Every opaque constant below has no body: nothing can be proved of
its value. -/

namespace Sys2Proof

/-- One answer of the key matrix to a sample of `COLIN` (45_keyscan.md R216): the seven column levels, and how many
milliseconds `TIME` has advanced, by the moment of the sample, beyond the lower bounds of the waits (60_exceptions.md R290).
Log 5, log 6. -/
structure KeySample where
  colin : BitVec 7
  late  : Nat
deriving DecidableEq, Repr, Inhabited

/-- Who moves next (93_implementation_defined.md U17, log 1): the primary context (host and command engine), the scan engine,
the clock (so many milliseconds pass), or the reset source (70_reset_and_hazards.md R310). -/
inductive Turn where
  | primary
  | scan
  | tick (ms : Nat)
  | reset
deriving DecidableEq, Repr, Inhabited

/-- The parameters of 00_scope.md R4 whose value is OPEN. `N_FONTS` is `fonts.length`, `FONT_LEN[f]` the length of the
`f`-th list, `ASSET_WORDS` is `asset.length`; `cellCap = none` is an unbounded `CELL_CAP`. Durations are in microseconds.
`bitmapWraps` is the model's own parameter and no parameter of R4: whether BITMAP, once it has run off the end of ASSET with
marker 0, goes on through the wrap modulo 2^32 (43_bitmap.md R191, R197 (d)) or never ends (R197 (f), 95_test_vectors.md
V-B9). The spec says both. Log 8 (DESIGN CHOICE). -/
structure Config where
  multicore   : Bool
  screenW     : Word
  screenH     : Word
  nSurf       : Nat
  cellCap     : Option Nat
  fonts       : List (List Byte)
  asset       : List Word
  rowMap      : List (Fin 7)
  colMap      : List (Fin 7)
  tSettleUs   : Nat
  tDebounceUs : Nat
  base        : Nat
  bitmapWraps : Bool
deriving DecidableEq, Repr, Inhabited

namespace Config

/-- `QCAP` (00_scope.md R4). -/
def qCap : Nat := 32

/-- `N_FONTS` (00_scope.md R4). -/
def nFonts (c : Config) : Nat := c.fonts.length

/-- `ASSET_WORDS` (00_scope.md R4). -/
def assetWords (c : Config) : Nat := c.asset.length

/-- The ranges of 00_scope.md R4, 20_memory.md R66 and R67, and the permutations of 45_keyscan.md R217. -/
abbrev Legal (c : Config) : Prop :=
  (1 ≤ c.nSurf ∧ c.nSurf ≤ 256) ∧
  (1 ≤ c.fonts.length ∧ c.fonts.length ≤ 256) ∧
  (∀ f ∈ c.fonts, f.length ≤ 65536) ∧
  c.asset.length ≤ 4294967296 ∧
  (c.rowMap.length = 7 ∧ c.rowMap.Nodup) ∧
  (c.colMap.length = 7 ∧ c.colMap.Nodup) ∧
  (0 < c.tSettleUs ∧ 0 < c.tDebounceUs)

/-- The smallest legal platform; it stands only where `raw` is not legal (log 3). -/
def least : Config :=
  { multicore := false, screenW := 0, screenH := 0, nSurf := 1, cellCap := some 0, fonts := [[]], asset := []
    rowMap := [0, 1, 2, 3, 4, 5, 6], colMap := [0, 1, 2, 3, 4, 5, 6], tSettleUs := 1, tDebounceUs := 1, base := 0
    bitmapWraps := true }

/-- An arbitrary choice of the parameters (log 3). -/
opaque raw : Config

/-- The platform the block is built for: any legal choice of the parameters, and nothing more is known of it (log 3). -/
def platform : Config := if raw.Legal then raw else least

/-- The byte that a buffer byte nothing has written reads as: fixed for one creation `gen` of a surface and one byte
address, otherwise arbitrary (10_state.md R43, 40_surface_mgmt.md R122, 93_implementation_defined.md U12). Log 4. -/
opaque freeByte (gen address : Nat) : Byte

/-- The key matrix's answer to a sample, where no answer is listed in the state (45_keyscan.md R216, U18). Log 5. -/
opaque freeSample (draw : Nat) : KeySample

/-- The agent that moves, where no turn is listed in the state (93_implementation_defined.md U17). Log 1. -/
opaque freeTurn (draw : Nat) : Turn

/-- The platform address of the register at a word offset (10_state.md R28, 20_memory.md R74: `BASE` is the platform's).
DESIGN CHOICE (log 11): R28 gives word offsets and leaves open whether platform addresses count bytes or words; here they
count words, so that register `k` is at `BASE + k` and not at `BASE + 2 * k`. -/
def registerAddress (c : Config) (offset : Nat) : Nat := c.base + offset

end Config

end Sys2Proof
end

