-- ==== Sys2Proof/Machine/State.lean ====
section
/-! DEFINITION. The state of the block (10_state.md R20, R21), the model's own inputs beside it, and reset (R43). -/

namespace Sys2Proof.Machine

/-- A surface's buffer seen as bytes (20_memory.md R71): the bytes written since the surface was created, addresses strictly
rising. An address that is not listed holds no value in the data: it reads as a free byte (log 4). -/
abbrev Memory := List Host.Cell

/-- The canonical form: addresses strictly rising. No entry can equal what an unlisted address holds, which is nothing. -/
abbrev Memory.wf (m : Memory) : Prop := m.Pairwise fun p q => p.1 < q.1

/-- The descriptor and buffer of an allocated slot (10_state.md R21, R22). `gen` is the model's own (log 4). -/
structure Surface where
  w    : Word
  h    : Word
  cx   : Word
  cy   : Word
  fg   : Word
  font : Byte
  mem  : Memory
  gen  : Nat
deriving DecidableEq, Repr

/-- The debounce state `DB` (10_state.md R36). -/
inductive Debounce where
  | idle
  | pressed (row col : Fin 7) (t : BitVec 32)
deriving DecidableEq, Repr

/-- The scan-engine state `SE` (10_state.md R38); `ev` is the event word in flight. -/
inductive ScanPhase where
  | off
  | checkArb
  | inPoll
  | pushPending (ev : Word)
deriving DecidableEq, Repr

/-- One frame of `TX` (10_state.md R41, 44_transport.md R205). -/
structure Frame where
  w     : Word
  h     : Word
  bytes : List Byte
deriving DecidableEq, Repr

/-- One access of the host to the register window, at a word offset from BASE (10_state.md R28). -/
inductive HostOp where
  | write (offset : Nat) (v : Word)
  | read (offset : Nat)
deriving DecidableEq, Repr

/-- Why a step can stop. The block itself raises no fault (60_exceptions.md R280). -/
inductive Fault where
  /-- Raised by a command that acts on the current surface when `CUR` names a slot that holds none, a state that
  10_state.md R23 rules out and no run reaches. Safe: the model stops where the spec gives no behaviour. Log 10. -/
  | noCurrentSurface
deriving DecidableEq, Repr

/-- Why an instruction has no meaning. -/
inductive Refusal where
  /-- Raised by an arm of exec for an instruction that is not modelled; no arm raises it now. Safe. -/
  | notModelled (mnemonic : String)
deriving DecidableEq, Repr

/-- The state. From `surfaces` to `tx`: the tuple of 10_state.md R20. `cfg` and the fields after `tx` are the model's own. -/
structure State where
  /-- The parameters (00_scope.md R4), constant. Log 3. -/
  cfg      : Config
  /-- `S[0..N_SURF-1]`: `some` for `alloc = 1` (10_state.md R21). -/
  surfaces : List (Option Surface)
  /-- `CUR` (R23). -/
  cur      : Byte
  /-- `CMDBUF` (R25, R29). While a command is in progress it holds the whole command. Log 7. -/
  cmdbuf   : List Word
  /-- `RESULT0`, `RESULT1` (R30). -/
  result0  : Word
  result1  : Word
  /-- `ILL` (R31). -/
  ill      : Bool
  /-- `ARB`, `SCANEN` (R32). -/
  arb      : Bool
  scanen   : Bool
  /-- `DB` (R36). -/
  db       : Debounce
  /-- `Q`, event words, head first (R37). -/
  q        : List Word
  /-- `SE`, `SCANACT` (R38). -/
  se       : ScanPhase
  scanact  : Bool
  /-- `TIME` (R39). -/
  time     : BitVec 32
  /-- `ROWSEL` (R40). -/
  rowsel   : BitVec 7
  /-- `TX`, oldest frame first (R41). -/
  tx       : List Frame
  /-- The accesses the host will make, in order. Log 2. -/
  hostOps  : List HostOp
  /-- Who moves in the next steps. Log 1. -/
  sched    : List Turn
  /-- The key matrix's answers to the next samples. Log 5. -/
  matrix   : List KeySample
  /-- The data of the last host read. Log 11. -/
  busData  : Word
  /-- How many free values have been drawn. Log 4. -/
  draws    : Nat
deriving DecidableEq, Repr

/-- A surface as created: cursor (0, 0), foreground 0xFFFF, font 0, no cell written (40_surface_mgmt.md R122, 10_state.md R43). -/
def Surface.fresh (w h : Word) (gen : Nat) : Surface :=
  { w := w, h := h, cx := 0, cy := 0, fg := 0xFFFF, font := 0, mem := [], gen := gen }

/-- The reset state (10_state.md R43) of the block built with the parameters `cfg`, with no input listed. -/
def State.powerOn (cfg : Config) : State :=
  { cfg := cfg
    surfaces := some (Surface.fresh cfg.screenW cfg.screenH 0) :: List.replicate (cfg.nSurf - 1) none
    cur := 0, cmdbuf := [], result0 := 0, result1 := 0, ill := false, arb := false, scanen := false
    db := .idle, q := [], se := .off, scanact := false, time := 0, rowsel := 0x7F, tx := []
    hostOps := [], sched := [], matrix := [], busData := 0, draws := 1 }

/-- The machine right after reset, built for the opaque platform. -/
def State.reset : State := State.powerOn Config.platform

end Sys2Proof.Machine
end

