-- ==== Sys2Proof/Machine/Operands.lean ====
section
/-! DEFINITION. How operands are used: byte-swapped colours (00_scope.md R7), the 5-bit channels of the blend (R8,
42_glyph.md R174), the pixels of a rectangular area in the two orders the rules use, and clipped extents. Coordinates are
natural numbers (R6): `Word.toNat`, never wrapped. -/

namespace Sys2Proof.Machine

/-- Bits 7:0 of a word. -/
def lowByte (v : Word) : Byte := v.extractLsb' 0 8

/-- Bits 15:8 of a word. -/
def highByte (v : Word) : Byte := v.extractLsb' 8 8

/-- The word of two bytes. -/
def ofBytes (hi lo : Byte) : Word := hi ++ lo

/-- `bswap16(v) = (v[7:0], v[15:8])` (00_scope.md R7). -/
def bswap16 (v : Word) : Word := ofBytes (lowByte v) (highByte v)

/-- Red, `c[15:11]` (00_scope.md R8). -/
def red5 (c : Word) : Nat := (c.extractLsb' 11 5).toNat

/-- The upper five bits of green, `c[10:6]` (42_glyph.md R174). -/
def green5 (c : Word) : Nat := (c.extractLsb' 6 5).toNat

/-- Blue, `c[4:0]`. -/
def blue5 (c : Word) : Nat := (c.extractLsb' 0 5).toNat

/-- `(r[4:0], g[4:0], 0, b[4:0])` (42_glyph.md R174). -/
def ofChannels (r g b : Nat) : Word := BitVec.ofNat 5 r ++ BitVec.ofNat 5 g ++ 0#1 ++ BitVec.ofNat 5 b

/-- The pairs (x, y) with `x < w`, `y < h`, row by row (41_rasterizer.md R150, R154: y outer, x inner). -/
def rowMajor (w h : Nat) : List (Nat × Nat) :=
  (List.range h).flatMap fun y => (List.range w).map fun x => (x, y)

/-- The pairs (x, y) with `x < w`, `y < h`, column by column (42_glyph.md R173: x outer, y inner). -/
def columnMajor (w h : Nat) : List (Nat × Nat) :=
  (List.range w).flatMap fun x => (List.range h).map fun y => (x, y)

/-- How many of the `n` positions from `start` on lie below `limit`: the loops over a shape visit only these, since every
other pixel is dropped by the bounds test (41_rasterizer.md R140, R155). Log 9. -/
def clipped (start n limit : Nat) : Nat := min n (limit - start)

end Sys2Proof.Machine
end

