-- ==== Sys2Proof/Machine/Ops.lean ====
section
/-! DEFINITION. The named operations over buffers, surfaces, the surface table, the result registers, the queue and the
clock, each written once. The block takes no exception and returns from none (60_exceptions.md R280, R286, R287); what stands
in an exception's place is `illegalCommand` (R282). -/

namespace Sys2Proof.Machine

/-! ### Buffers -/

/-- The byte listed at an address. -/
def Memory.read? (m : Memory) (a : Nat) : Option Byte :=
  match m with
  | [] => none
  | (k, v) :: t => if k = a then some v else Memory.read? t a

/-- The buffer with byte `a` holding `v`. -/
def Memory.write (m : Memory) (a : Nat) (v : Byte) : Memory :=
  match m with
  | [] => [(a, v)]
  | (k, u) :: t => if a < k then (a, v) :: (k, u) :: t else if a = k then (a, v) :: t else (k, u) :: Memory.write t a v

namespace Surface

/-- The number of cells of a buffer (20_memory.md R61). -/
def cells (sf : Surface) : Nat := sf.w.toNat * sf.h.toNat

/-- Byte `a` of the buffer (20_memory.md R71), a free byte where nothing was written (U12, log 4). -/
def byteAt (sf : Surface) (a : Nat) : Byte := (Memory.read? sf.mem a).getD (Config.freeByte sf.gen a)

/-- `CellRead` (20_memory.md R63); byte 2i is the cell's low half (R71). -/
def cellRead (sf : Surface) (i : Nat) : Word := ofBytes (sf.byteAt (2 * i + 1)) (sf.byteAt (2 * i))

/-- `CellWrite` (20_memory.md R64). -/
def cellWrite (sf : Surface) (i : Nat) (v : Word) : Surface :=
  { sf with mem := Memory.write (Memory.write sf.mem (2 * i) (lowByte v)) (2 * i + 1) (highByte v) }

/-- The bounds test of every pixel access (41_rasterizer.md R142, R144). -/
def inside (sf : Surface) (x y : Nat) : Bool := x < sf.w.toNat && y < sf.h.toNat

/-- The cell of pixel (x, y) (20_memory.md R62). -/
def index (sf : Surface) (x y : Nat) : Nat := y * sf.w.toNat + x

/-- `drawPixel` (41_rasterizer.md R142). -/
def drawPixel (sf : Surface) (x y : Nat) (c : Word) : Surface :=
  if sf.inside x y then sf.cellWrite (sf.index x y) (bswap16 c) else sf

/-- `getPixel` (41_rasterizer.md R144). -/
def getPixel (sf : Surface) (x y : Nat) : Word :=
  if sf.inside x y then bswap16 (sf.cellRead (sf.index x y)) else 0

/-- `drawPixel` at each pixel of a list, in order, in one colour. -/
def drawAll (sf : Surface) (pixels : List (Nat × Nat)) (c : Word) : Surface :=
  pixels.foldl (fun t p => t.drawPixel p.1 p.2 c) sf

end Surface

/-! ### Read-only memories -/

/-- `AssetRead` (20_memory.md R66). -/
def assetRead (cfg : Config) (a : Nat) : Word := cfg.asset.getD a 0

/-- `FontRead` (20_memory.md R68). -/
def fontRead (cfg : Config) (f o : Nat) : Byte := (cfg.fonts.getD f []).getD o 0

/-- A glyph record found by `glyph` (20_memory.md R69): width, height, and the byte offset of its coverage in the font. -/
structure GlyphRecord where
  gw    : Nat
  gh    : Nat
  start : Nat
deriving DecidableEq, Repr

/-- `glyph(f, c)` (20_memory.md R69). -/
def glyph (cfg : Config) (f : Nat) (c : Byte) : Option GlyphRecord :=
  let off := (fontRead cfg f (2 * c.toNat)).toNat + 256 * (fontRead cfg f (2 * c.toNat + 1)).toNat
  if off = 0 then none
  else some { gw := (fontRead cfg f off).toNat, gh := (fontRead cfg f (off + 1)).toNat, start := off + 2 }

/-! ### The surface table and the result registers -/

namespace State

/-- The surface of slot `n`, if `n < N_SURF` and `S[n].alloc = 1`. -/
def surf? (s : State) (n : Nat) : Option Surface :=
  match s.surfaces[n]? with
  | some (some sf) => some sf
  | _ => none

/-- The table with slot `n` holding `o` (`none`: not allocated). -/
def setSlot (s : State) (n : Nat) (o : Option Surface) : State := { s with surfaces := s.surfaces.set n o }

/-- `S[CUR]` (10_state.md R23). -/
def current? (s : State) : Option Surface := s.surf? s.cur.toNat

/-- The cells held by slots 1 and up (40_surface_mgmt.md R122: `used`). -/
def usedCells (s : State) : Nat :=
  ((s.surfaces.drop 1).map fun o => match o with | some sf => sf.cells | none => 0).sum

/-- `R0 <- v` (10_state.md R30). -/
def setR0 (s : State) (v : Word) : State := { s with result0 := v }

/-- `R1 <- v` (10_state.md R30). -/
def setR1 (s : State) (v : Word) : State := { s with result1 := v }

/-- The command is complete: the host's write retires and `CMDBUF` becomes empty (10_state.md R29). -/
def retire (s : State) : State := { s with cmdbuf := [] }

/-- A header whose opcode is not in the map is discarded and sets `ILL` (60_exceptions.md R282). -/
def illegalCommand (s : State) : State := { s with cmdbuf := [], ill := true }

/-- A command that acts on the current surface and changes nothing else, and completes. -/
def onCurrent (s : State) (act : Surface → Surface) : Host.Outcome State Fault Refusal :=
  match s.current? with
  | some sf => .next (s.setSlot s.cur.toNat (some (act sf))).retire
  | none => .fault .noCurrentSurface

/-! ### The queue (46_queue_arb.md R250 to R253) -/

/-- `push(e)`; it is called only while `|Q| < 32` (R251). -/
def push (s : State) (ev : Word) : State := { s with q := s.q ++ [ev] }

/-- Whether `push` is enabled (R251). -/
def canPush (s : State) : Bool := s.q.length < Config.qCap

/-- The head of `Q`, removed; nothing where `Q` is empty (R252, R253). -/
def pop (s : State) : Option Word × State :=
  match s.q with
  | [] => (none, s)
  | ev :: rest => (some ev, { s with q := rest })

/-! ### Time and the key matrix's answers -/

/-- `TIME` advances by `ms`, modulo 2^32 (10_state.md R39). -/
def elapse (s : State) (ms : Nat) : State := { s with time := s.time + BitVec.ofNat 32 ms }

/-- `wait(T)` for `T` microseconds: `TIME` advances by at least the whole milliseconds of `T` (60_exceptions.md R290); what
more passes is part of the next answer of the key matrix. Log 6. -/
def wait (s : State) (us : Nat) : State := s.elapse (us / 1000)

/-- A sample of `COLIN`: the next listed answer, or a free one (45_keyscan.md R216). Log 5. -/
def sampleColin (s : State) : BitVec 7 × State :=
  match s.matrix with
  | k :: rest => (k.colin, { s with matrix := rest }.elapse k.late)
  | [] =>
    ((Config.freeSample s.draws).colin,
      { s with draws := s.draws + 1 }.elapse (Config.freeSample s.draws).late)

/-! ### Reset -/

/-- Reset (70_reset_and_hazards.md R311): every piece of state takes its value of 10_state.md R43; the parameters and what
is outside the block (the inputs, the data last read) are not affected. The screen's cells are unspecified anew (U12). -/
def resetBlock (s : State) : State :=
  { State.powerOn s.cfg with
    surfaces := some (Surface.fresh s.cfg.screenW s.cfg.screenH s.draws) :: List.replicate (s.cfg.nSurf - 1) none
    hostOps := s.hostOps, sched := s.sched, matrix := s.matrix, busData := s.busData, draws := s.draws + 1 }

end State

end Sys2Proof.Machine
end

