-- ==== Sys2Proof/Machine/Flags.lean ====
section
/-! DEFINITION. The status, control and view registers as the host reads them (10_state.md R31 to R35), the write of CTRL
(R32), and the event word (45_keyscan.md R228). With MULTICORE = 0, SCANACT, QNE, QFULL, SCANEN and QCOUNT read 0 (R31, R35). -/

namespace Sys2Proof.Machine

/-- The event word of a Press (`press = true`) or Release at a logical position (45_keyscan.md R228). -/
def eventWord (press : Bool) (row col : Fin 7) : Word :=
  1#1 ++ 0#6 ++ BitVec.ofBool press ++ BitVec.ofNat 4 row.val ++ BitVec.ofNat 4 col.val

namespace State

/-- `QNE` (R31 bit 1). -/
def qne (s : State) : Bool := s.cfg.multicore && !s.q.isEmpty

/-- `QFULL` (R31 bit 2): `Q` holds 32 events. -/
def qfull (s : State) : Bool := s.cfg.multicore && s.q.length == Config.qCap

/-- `KPRESSED` (R31 bit 3). -/
def kpressed (s : State) : Bool :=
  match s.db with
  | .idle => false
  | .pressed _ _ _ => true

/-- `STATUS` (R31). -/
def statusReg (s : State) : Word :=
  s.cur ++ 0#1 ++ BitVec.ofBool s.cfg.multicore ++ BitVec.ofBool (s.cfg.multicore && s.scanen) ++ BitVec.ofBool s.ill ++
    BitVec.ofBool s.kpressed ++ BitVec.ofBool s.qfull ++ BitVec.ofBool s.qne ++
    BitVec.ofBool (s.cfg.multicore && s.scanact)

/-- `CTRL` as read (R32). -/
def ctrlReg (s : State) : Word := 0#14 ++ BitVec.ofBool (s.cfg.multicore && s.scanen) ++ BitVec.ofBool s.arb

/-- A write of `CTRL` (R32): bit 0 is `ARB`; bit 1 is write-one-to-set, hardwired 0 with MULTICORE = 0. -/
def writeCtrl (s : State) (v : Word) : State :=
  { s with arb := v.getLsbD 0, scanen := s.cfg.multicore && (s.scanen || v.getLsbD 1) }

/-- `KEYLATCH` (R33). -/
def keylatchReg (s : State) : Word :=
  match s.db with
  | .idle => 0
  | .pressed row col _ => 1#1 ++ 0#7 ++ BitVec.ofNat 4 row.val ++ BitVec.ofNat 4 col.val

/-- The press timestamp, 0 when Idle (R34). -/
def keytime (s : State) : BitVec 32 :=
  match s.db with
  | .idle => 0
  | .pressed _ _ t => t

/-- `QCOUNT` (R35). -/
def qcountReg (s : State) : Word := 0#10 ++ (if s.cfg.multicore then BitVec.ofNat 6 s.q.length else 0#6)

/-- What a read of the register at a word offset returns (R28): CMD and the offsets from 0x9 on read 0. -/
def readReg (s : State) (offset : Nat) : Word :=
  match offset with
  | 1 => s.statusReg
  | 2 => s.result0
  | 3 => s.result1
  | 4 => s.ctrlReg
  | 5 => s.keylatchReg
  | 6 => s.keytime.extractLsb' 0 16
  | 7 => s.keytime.extractLsb' 16 16
  | 8 => s.qcountReg
  | _ => 0

end State

end Sys2Proof.Machine
end

