-- ==== Sys2Proof/Machine/Bitmap.lean ====
section
/-! DEFINITION. The run-length bitmap codec (43_bitmap.md R190 to R198). -/

namespace Sys2Proof.Machine

/-- `rd(i)` (R191): ASSET word `(p + i) mod 2^32`. -/
def bitmapWord (cfg : Config) (p : BitVec 32) (i : Nat) : Word := assetRead cfg ((p.toNat + i) % 4294967296)

/-- The four header words and the place of a bitmap (R190, R191). -/
structure BitmapHeader where
  bw          : Nat
  bh          : Nat
  transparent : Word
  marker      : Word
  x0          : Nat
  y0          : Nat
  p           : BitVec 32
deriving DecidableEq, Repr

/-- The header of the bitmap at `p` (R193). -/
def bitmapHeader (cfg : Config) (x0 y0 : Nat) (p : BitVec 32) : BitmapHeader :=
  { bw := (bitmapWord cfg p 0).toNat, bh := (bitmapWord cfg p 1).toNat, transparent := bitmapWord cfg p 2
    marker := bitmapWord cfg p 3
    x0 := x0, y0 := y0, p := p }

/-- How many runs from word `index` on are empty because they lie beyond the end of ASSET while the marker is 0: their marker
and count words, up to address 2^32 - 1, all read 0 (20_memory.md R66, R194). -/
def emptyRuns (cfg : Config) (b : BitmapHeader) (index : Nat) : Nat :=
  let address := (b.p.toNat + index) % 4294967296
  if b.marker = 0 ∧ cfg.assetWords ≤ address then (4294967297 - address) / 3 else 0

/-- Whether the column ends no more, its data consisting of empty runs from here on (R197 (f), R321, V-B9), on a platform that
does not come back to ASSET through the wrap. With `bitmapWraps` it is false at every word. Log 8. -/
def emptyForEver (cfg : Config) (b : BitmapHeader) (index : Nat) : Bool :=
  !cfg.bitmapWraps && decide (emptyRuns cfg b index ≠ 0)

/-- The pixels of a run of `cnt` from (x, y) down (R194), those below the surface left out (R196, log 9). -/
def runPixels (sf : Surface) (x y cnt : Nat) : List (Nat × Nat) :=
  (List.range (clipped y cnt sf.h.toNat)).map fun i => (x, y + i)

/-- One column of the loop of R191 from row `y` and word `index` on: whether it ends, the next index, and the surface. The
marker test comes first (R194); a run may pass the column's end (R197 (a)) or be empty (R197 (b)). The empty runs beyond the
end of ASSET are passed over together, which is what the loop does with them one by one (`emptyRuns_spec`). -/
def bitmapColumn (cfg : Config) (b : BitmapHeader) (x : Nat) (fuel y index : Nat) (sf : Surface) : Bool × Nat × Surface :=
  match fuel with
  | 0 => (decide (b.bh ≤ y), index, sf)
  | fuel + 1 =>
    if b.bh ≤ y then (true, index, sf)
    else
      let v := bitmapWord cfg b.p index
      if v = b.marker then
        let cnt := (bitmapWord cfg b.p (index + 1)).toNat
        let col := bitmapWord cfg b.p (index + 2)
        if emptyForEver cfg b index then (false, index, sf)
        else if emptyRuns cfg b index ≠ 0 then bitmapColumn cfg b x fuel y (index + 3 * emptyRuns cfg b index) sf
        else bitmapColumn cfg b x fuel (y + cnt) (index + 3)
          (if col = b.transparent then sf else sf.drawAll (runPixels sf (b.x0 + x) (b.y0 + y) cnt) col)
      else bitmapColumn cfg b x fuel (y + 1) (index + 1)
        (if v = b.transparent then sf else sf.drawPixel (b.x0 + x) (b.y0 + y) v)

/-- At least as many turns of the loop as a column can take (`bitmapColumn_ends`): for each of its rows, those of four passes
over ASSET, since within three passes the runs from a word on have begun at every address and cannot all be empty. Log 8. -/
def columnFuel (cfg : Config) (b : BitmapHeader) : Nat := (b.bh + 1) * (4 * (cfg.assetWords + 3))

/-- The columns from `x` on, `n` of them (R191, R193: `index` goes on from column to column). -/
def bitmapColumns (cfg : Config) (b : BitmapHeader) (n x index : Nat) (sf : Surface) : Bool × Surface :=
  match n with
  | 0 => (true, sf)
  | n + 1 =>
    match bitmapColumn cfg b x (columnFuel cfg b) 0 index sf with
    | (true, next, drawn) => bitmapColumns cfg b n (x + 1) next drawn
    | (false, _, drawn) => (false, drawn)

/-- The whole bitmap on a surface: whether the decoding ends, and the surface. -/
def drawBitmap (cfg : Config) (x0 y0 : Nat) (p : BitVec 32) (sf : Surface) : Bool × Surface :=
  let b := bitmapHeader cfg x0 y0 p
  bitmapColumns cfg b b.bw 0 4 sf

/-- BITMAP (R191): nothing for the null pointer (R192). A decoding that never ends leaves the command in progress, the host
stalled until reset (R197 (f), R321): `CMDBUF` is not emptied. Log 8. -/
def execBitmap (x y : Word) (p : BitVec 32) (s : State) : Host.Outcome State Fault Refusal :=
  if p = 0 then .next s.retire
  else match s.current? with
  | none => .fault .noCurrentSurface
  | some sf =>
    let r := drawBitmap s.cfg x.toNat y.toNat p sf
    let drawn := s.setSlot s.cur.toNat (some r.2)
    .next (if r.1 then drawn.retire else drawn)

end Sys2Proof.Machine
end

