-- ==== Sys2Proof/Machine/Glyph.lean ====
section
/-! DEFINITION. The glyph compositor (42_glyph.md). -/

namespace Sys2Proof.Machine

/-- One channel of the blend (R174): the one truncating division of a natural number. -/
def blendChannel (d f a : Nat) : Nat := (d * (15 - a) + f * a) / 15

/-- `blend(d, f, a)` (R174), the shortcut at full coverage always taken (R176). -/
def blend (d f : Word) (a : Nat) : Word :=
  if a = 15 then f
  else ofChannels (blendChannel (red5 d) (red5 f) a) (blendChannel (green5 d) (green5 f) a)
    (blendChannel (blue5 d) (blue5 f) a)

/-- The coverage of pixel (x, y) of a glyph: nibble `x * gh + y`, high nibble first (R175). -/
def coverage (cfg : Config) (f : Nat) (g : GlyphRecord) (x y : Nat) : Nat :=
  let k := x * g.gh + y
  let b := (fontRead cfg f (g.start + k / 2)).toNat
  if k % 2 = 0 then b / 16 else b % 16

/-- One iteration of the loop of R173 at glyph pixel `p`, for a glyph placed at (cx, cy). -/
def drawCoverage (cfg : Config) (f : Nat) (g : GlyphRecord) (cx cy : Nat) (fg : Word) (sf : Surface) (p : Nat × Nat) :
    Surface :=
  let a := coverage cfg f g p.1 p.2
  if a = 0 then sf
  else sf.drawPixel (cx + p.1) (cy + p.2) (blend (sf.getPixel (cx + p.1) (cy + p.2)) fg a)

/-- A printable glyph (R173): its pixels, then `cx <- (cx + gw - 1) mod 65536`. -/
def drawGlyph (cfg : Config) (g : GlyphRecord) (sf : Surface) : Surface :=
  let drawn := (columnMajor g.gw g.gh).foldl (drawCoverage cfg sf.font.toNat g sf.cx.toNat sf.cy.toNat sf.fg) sf
  { drawn with cx := sf.cx + BitVec.ofNat 16 g.gw - 1 }

/-- A newline (R171): `cx <- 0`, and `cy` advances by the height of 'A' modulo 65536, if the font has an 'A'. -/
def newline (cfg : Config) (sf : Surface) : Surface :=
  match glyph cfg sf.font.toNat 0x41 with
  | some a => { sf with cx := 0, cy := sf.cy + BitVec.ofNat 16 a.gh }
  | none => { sf with cx := 0 }

/-- CHAR's effect on a surface (R170): the newline test, then the lookup; a character without a glyph changes nothing
(R172). -/
def drawChar (cfg : Config) (sf : Surface) (c : Byte) : Surface :=
  if c = 0x0A then newline cfg sf
  else match glyph cfg sf.font.toNat c with
  | none => sf
  | some g => drawGlyph cfg g sf

/-- CHAR (R170). -/
def execChar (c : Byte) (s : State) : Host.Outcome State Fault Refusal := s.onCurrent fun sf => drawChar s.cfg sf c

/-- STRING (R177): CHAR for each byte, in order, each seeing the cursor left by the last. -/
def execString (bytes : List Byte) (s : State) : Host.Outcome State Fault Refusal :=
  s.onCurrent fun sf => bytes.foldl (drawChar s.cfg) sf

end Sys2Proof.Machine
end

