-- ==== Sys2Proof/Machine/Keys.lean ====
section
/-! DEFINITION. The key matrix scanner, the debounce state machine (45_keyscan.md), POLLKEY and WAITKEY. -/

namespace Sys2Proof.Machine

/-- A key: a pair of logical positions (45_keyscan.md R217). -/
structure Key where
  row : Fin 7
  col : Fin 7
deriving DecidableEq, Repr

/-- A Key Event (R228). -/
structure KeyEvent where
  press : Bool
  key   : Key
deriving DecidableEq, Repr

/-- The event word (R228). -/
def KeyEvent.word (e : KeyEvent) : Word := eventWord e.press e.key.row e.key.col

/-- The word of an event, or 0x0000 for nothing (R228). -/
def eventOrNothing (e : Option KeyEvent) : Word :=
  match e with
  | none => 0
  | some e => e.word

/-- `ROWSEL` with only row line `r` selected (R218). -/
def selectRow (r : Fin 7) : BitVec 7 := 0x7F#7 ^^^ (1#7 <<< r.val)

/-- `ctz`: the least set bit of a non-zero sample (R218, R220). -/
def lowestColumn (p : BitVec 7) : Fin 7 := ((List.finRange 7).find? fun c => p.getLsbD c.val).getD 0

/-- The logical position of a physical row line and column line (R217). -/
def remap (cfg : Config) (r c : Fin 7) : Key :=
  { row := cfg.rowMap.getD r.val 0, col := cfg.colMap.getD c.val 0 }

/-- What the ideal matrix answers while `rowsel` is driven and the physical keys `closed` (row line, column line) are closed:
a column reads low exactly where one of them lies on it and on a selected row (R215, R216). A model of the environment for
claims that assume it; no meaning uses it. -/
def idealColin (closed : List (Fin 7 × Fin 7)) (rowsel : BitVec 7) : BitVec 7 :=
  (List.finRange 7).foldl (fun v c =>
    if closed.any fun k => k.2 = c && !rowsel.getLsbD k.1.val then v &&& ~~~(1#7 <<< c.val) else v) 0x7F

/-- The loop of `scan` over the row lines still to visit (R218): the first line with a closed key wins (R219). -/
def scanRows (rows : List (Fin 7)) (s : State) : Option Key × State :=
  match rows with
  | [] => (none, s)
  | r :: rest =>
    let answer := ({ s with rowsel := selectRow r }.wait s.cfg.tSettleUs).sampleColin
    let p := ~~~answer.1
    if p = 0 then scanRows rest answer.2 else (some (remap s.cfg r (lowestColumn p)), answer.2)

/-- `scan()` (R218), the row lines in increasing order. -/
def scan (s : State) : Option Key × State := scanRows [0, 1, 2, 3, 4, 5, 6] s

/-- The second scan, after the debounce interval (R223, R224). -/
def rescan (s : State) : Option Key × State := scan (s.wait s.cfg.tDebounceUs)

/-- `poll()` from Idle (R223, R225): a key seen by both scans is a Press, stamped with TIME (R226). -/
def pollIdle (s : State) : Option KeyEvent × State :=
  match scan s with
  | (none, s1) => (none, s1)
  | (some k, s1) =>
    let second := rescan s1
    if second.1 = some k then
      (some { press := true, key := k }, { second.2 with db := .pressed k.row k.col second.2.time })
    else (none, second.2)

/-- `poll()` from Pressed at key `k` (R224, R225). -/
def pollPressed (k : Key) (s : State) : Option KeyEvent × State :=
  let first := scan s
  if first.1 = some k then (none, first.2)
  else if first.1 = none then
    let second := rescan first.2
    if second.1 = some k then (none, second.2)
    else (some { press := false, key := k }, { second.2 with db := .idle })
  else (some { press := false, key := k }, { first.2 with db := .idle })

/-- `poll()` (R225). -/
def poll (s : State) : Option KeyEvent × State :=
  match s.db with
  | .idle => pollIdle s
  | .pressed row col _ => pollPressed { row := row, col := col } s

/-- POLLKEY (R236). -/
def execPollkey (s : State) : Host.Outcome State Fault Refusal :=
  .next (if s.cfg.multicore then (s.pop.2.setR0 (s.pop.1.getD 0)).retire
  else ((poll s).2.setR0 (eventOrNothing (poll s).1)).retire)

/-- One turn of `poll_blocking()` (R227): from Idle, a poll that reports nothing leaves the command in progress, and the
next turn of the primary context polls again. Log 7. -/
def waitPoll (s : State) : State :=
  let r := poll s
  if s.db = .idle ∧ r.1 = none then r.2 else (r.2.setR0 (eventOrNothing r.1)).retire

/-- One turn of `pop_blocking()` (46_queue_arb.md R252): while `Q` is empty the command stays in progress. Log 7. -/
def waitPop (s : State) : State :=
  match s.q with
  | [] => s
  | ev :: rest => ({ s with q := rest }.setR0 ev).retire

/-- WAITKEY (R237). -/
def execWaitkey (s : State) : Host.Outcome State Fault Refusal :=
  .next (if s.cfg.multicore then waitPop s else waitPoll s)

end Sys2Proof.Machine
end

