-- ==== Sys2Proof/Machine/Raster.lean ====
section
/-! DEFINITION. The rasterizer (41_rasterizer.md). The loops of LINE, RECT and SPRITE visit only the pixels of their shape
that can lie on the surface (R140; log 9); Safety.lean holds the loops as the rules write them. -/

namespace Sys2Proof.Machine

namespace Surface

/-- The loop of FILL (R141). -/
def fill (sf : Surface) (c : Word) : Surface :=
  (List.range sf.cells).foldl (fun t i => t.cellWrite i (bswap16 c)) sf

/-- The pixels of LINE (R147 to R149): both end points belong to it, and a diagonal line has none. -/
def linePixels (sf : Surface) (x1 y1 x2 y2 : Nat) : List (Nat × Nat) :=
  if x1 = x2 then
    let lo := min y1 y2
    (List.range (clipped lo (max y1 y2 + 1 - lo) sf.h.toNat)).map fun k => (x1, lo + k)
  else if y1 = y2 then
    let lo := min x1 x2
    (List.range (clipped lo (max x1 x2 + 1 - lo) sf.w.toNat)).map fun k => (lo + k, y1)
  else []

/-- Whether RECT draws the pixel at (ix, iy) of a `w` by `h` rectangle (R150, R152). -/
def rectDraws (filled : Bool) (w h ix iy : Nat) : Bool :=
  filled || ix == 0 || ix == w - 1 || iy == 0 || iy == h - 1

/-- The pixels of RECT (R150). -/
def rectPixels (sf : Surface) (filled : Bool) (x y w h : Nat) : List (Nat × Nat) :=
  ((rowMajor (clipped x w sf.w.toNat) (clipped y h sf.h.toNat)).filter fun p => rectDraws filled w h p.1 p.2).map
    fun p => (x + p.1, y + p.2)

/-- One iteration of SPRITE's loop (R154): the raw cell (sx, sy) of `src`, copied to (x + sx, y + sy) of `d` if inside. -/
def copyCell (src d : Surface) (x y : Nat) (p : Nat × Nat) : Surface :=
  if d.inside (x + p.1) (y + p.2) then d.cellWrite (d.index (x + p.1) (y + p.2)) (src.cellRead (src.index p.1 p.2)) else d

/-- The loop of SPRITE (R154) from another surface. -/
def blit (src d : Surface) (x y : Nat) : Surface :=
  (rowMajor (clipped x src.w.toNat d.w.toNat) (clipped y src.h.toNat d.h.toNat)).foldl
    (fun t p => copyCell src t x y p) d

/-- The loop of SPRITE where source and destination are one surface: each read sees the earlier writes (R156). -/
def blitSelf (d : Surface) (x y : Nat) : Surface :=
  (rowMajor (clipped x d.w.toNat d.w.toNat) (clipped y d.h.toNat d.h.toNat)).foldl (fun t p => copyCell t t x y p) d

end Surface

/-- FILL (R141). -/
def execFill (c : Word) (s : State) : Host.Outcome State Fault Refusal := s.onCurrent fun sf => sf.fill c

/-- PIXEL (R143). -/
def execPixel (x y c : Word) (s : State) : Host.Outcome State Fault Refusal :=
  s.onCurrent fun sf => sf.drawPixel x.toNat y.toNat c

/-- GETPIX (R145). -/
def execGetpix (x y : Word) (s : State) : Host.Outcome State Fault Refusal :=
  match s.current? with
  | some sf => .next (s.setR0 (sf.getPixel x.toNat y.toNat)).retire
  | none => .fault .noCurrentSurface

/-- LINE (R147). -/
def execLine (x1 y1 x2 y2 c : Word) (s : State) : Host.Outcome State Fault Refusal :=
  s.onCurrent fun sf => sf.drawAll (sf.linePixels x1.toNat y1.toNat x2.toNat y2.toNat) c

/-- RECT and RECT.F (R150); the radius is ignored (R151). -/
def execRect (filled : Bool) (x y w h _radius c : Word) (s : State) : Host.Outcome State Fault Refusal :=
  s.onCurrent fun sf => sf.drawAll (sf.rectPixels filled x.toNat y.toNat w.toNat h.toNat) c

/-- The source surface of SPRITE, if the slot holds one (R154). -/
def spriteSource (s : State) (src : Byte) : Option Surface :=
  if s.cfg.nSurf ≤ src.toNat then none else s.surf? src.toNat

/-- SPRITE (R154, R156): nothing is drawn where the source slot holds no surface. -/
def execSprite (src : Byte) (x y : Word) (s : State) : Host.Outcome State Fault Refusal :=
  s.onCurrent fun d =>
    match spriteSource s src with
    | none => d
    | some so => if src = s.cur then d.blitSelf x.toNat y.toNat else so.blit d x.toNat y.toNat

end Sys2Proof.Machine
end

