-- ==== Sys2Proof/Machine/SurfaceMgmt.lean ====
section
/-! DEFINITION. NOP and the surface management and drawing-state commands (40_surface_mgmt.md). -/

namespace Sys2Proof.Machine

/-- NOP (R121). -/
def execNop (s : State) : Host.Outcome State Fault Refusal := .next s.retire

/-- Whether a surface of `n` cells fits beside those of slots 1 and up (R122); no bound where CELL_CAP is unbounded. -/
def fitsCells (s : State) (n : Nat) : Bool :=
  match s.cfg.cellCap with
  | none => true
  | some cap => s.usedCells + n ≤ cap

/-- Whether slot `n` may be made a new surface of `w` by `h` cells (R122). -/
def canCreate (s : State) (n : Nat) (w h : Word) : Bool :=
  n ≠ 0 && n < s.cfg.nSurf && (s.surf? n).isNone && fitsCells s (w.toNat * h.toNat)

/-- SURFNEW (R122). The new cells are unspecified: a generation of free bytes of their own (U12, log 4). -/
def execSurfnew (slot : Byte) (w h : Word) (s : State) : Host.Outcome State Fault Refusal :=
  .next (if canCreate s slot.toNat w h then
    { (s.setSlot slot.toNat (some (Surface.fresh w h s.draws))).setR0 1 with draws := s.draws + 1 }.retire
  else (s.setR0 0).retire)

/-- SURFFREE (R123). -/
def execSurffree (slot : Byte) (s : State) : Host.Outcome State Fault Refusal :=
  .next (if slot = 0 ∨ s.cfg.nSurf ≤ slot.toNat ∨ (s.surf? slot.toNat).isNone then (s.setR0 0).retire
  else { (s.setSlot slot.toNat none).setR0 1 with cur := if s.cur = slot then 0 else s.cur }.retire)

/-- SELECT (R128). -/
def execSelect (slot : Byte) (s : State) : Host.Outcome State Fault Refusal :=
  .next (if slot.toNat < s.cfg.nSurf ∧ (s.surf? slot.toNat).isSome then ({ s with cur := slot }.setR0 1).retire
  else (s.setR0 0).retire)

/-- SETCUR (R124). -/
def execSetcur (x y : Word) (s : State) : Host.Outcome State Fault Refusal :=
  s.onCurrent fun sf => { sf with cx := x, cy := y }

/-- GETCUR (R125). -/
def execGetcur (s : State) : Host.Outcome State Fault Refusal :=
  match s.current? with
  | some sf => .next ((s.setR0 sf.cx).setR1 sf.cy).retire
  | none => .fault .noCurrentSurface

/-- SETFG (R126): the colour is kept as given, not swapped. -/
def execSetfg (c : Word) (s : State) : Host.Outcome State Fault Refusal :=
  s.onCurrent fun sf => { sf with fg := c }

/-- SETFONT (R127): out of range, RESULT0 is 0 and the font stays. -/
def execSetfont (f : Byte) (s : State) : Host.Outcome State Fault Refusal :=
  let known : Bool := f.toNat < s.cfg.nFonts
  (s.setR0 (if known then 1 else 0)).onCurrent fun sf => if known then { sf with font := f } else sf

end Sys2Proof.Machine
end

