-- ==== Sys2Proof/Machine/Transport.lean ====
section
/-! DEFINITION. The transport sink interface (44_transport.md). -/

namespace Sys2Proof.Machine

/-- The bytes of a surface on the wire (R205 to R207): cells in index order, each low byte first. -/
def frameBytes (sf : Surface) : List Byte :=
  (List.range sf.cells).flatMap fun i => [lowByte (sf.cellRead i), highByte (sf.cellRead i)]

/-- The frame of a surface (R205). -/
def frameOf (sf : Surface) : Frame := { w := sf.w, h := sf.h, bytes := frameBytes sf }

/-- PRESENT (R205): no operation where the slot holds no surface. -/
def execPresent (slot : Byte) (s : State) : Host.Outcome State Fault Refusal :=
  .next (if s.cfg.nSurf ≤ slot.toNat then s.retire
  else match s.surf? slot.toNat with
  | none => s.retire
  | some sf => { s with tx := s.tx ++ [frameOf sf] }.retire)

end Sys2Proof.Machine
end

