-- ==== Sys2Proof/Machine/Dispatch.lean ====
section
/-! DEFINITION. One arm per command (30_encoding.md R93). -/

namespace Sys2Proof.Machine

def exec (i : Instr) (s : State) : Host.Outcome State Fault Refusal :=
  match i with
  | .nop => Sys2Proof.Machine.execNop s
  | .surfnew slot w h => Sys2Proof.Machine.execSurfnew slot w h s
  | .surffree slot => Sys2Proof.Machine.execSurffree slot s
  | .select slot => Sys2Proof.Machine.execSelect slot s
  | .setcur x y => Sys2Proof.Machine.execSetcur x y s
  | .getcur => Sys2Proof.Machine.execGetcur s
  | .setfg c => Sys2Proof.Machine.execSetfg c s
  | .setfont f => Sys2Proof.Machine.execSetfont f s
  | .fill c => Sys2Proof.Machine.execFill c s
  | .pixel x y c => Sys2Proof.Machine.execPixel x y c s
  | .getpix x y => Sys2Proof.Machine.execGetpix x y s
  | .line x1 y1 x2 y2 c => Sys2Proof.Machine.execLine x1 y1 x2 y2 c s
  | .rect filled x y w h radius c => Sys2Proof.Machine.execRect filled x y w h radius c s
  | .sprite src x y => Sys2Proof.Machine.execSprite src x y s
  | .bitmap x y p => Sys2Proof.Machine.execBitmap x y p s
  | .char c => Sys2Proof.Machine.execChar c s
  | .string bytes => Sys2Proof.Machine.execString bytes s
  | .present slot => Sys2Proof.Machine.execPresent slot s
  | .pollkey => Sys2Proof.Machine.execPollkey s
  | .waitkey => Sys2Proof.Machine.execWaitkey s

end Sys2Proof.Machine
end

