-- ==== Sys2Proof/Machine/ScanEngine.lean ====
section
/-! DEFINITION. The scan engine and bus arbitration (46_queue_arb.md R257 to R261), only with MULTICORE = 1. -/

namespace Sys2Proof.Machine

/-- The step from InPoll (R257): one whole poll, then SCANACT falls. -/
def enginePoll (s : State) : State :=
  match poll s with
  | (none, s1) => { s1 with scanact := false, se := .checkArb }
  | (some e, s1) => { s1 with scanact := false, se := .pushPending e.word }

/-- One step of the scan engine (R257); a step that is not enabled changes nothing. -/
def engineStep (s : State) : State :=
  if s.cfg.multicore then
    match s.se with
    | .off => if s.scanen then { s with se := .checkArb } else s
    | .checkArb => if s.arb then s else { s with scanact := true, se := .inPoll }
    | .inPoll => enginePoll s
    | .pushPending ev => if s.canPush then { s.push ev with se := .checkArb } else s
  else s

end Sys2Proof.Machine
end

