-- ==== Sys2Proof/Machine/Agents.lean ====
section
/-! DEFINITION. What each agent does in its turn (00_scope.md R5): the host's register accesses (10_state.md R28, R29), the
command engine, the scan engine, the clock and the reset source. -/

namespace Sys2Proof.Machine

/-- The command engine looks at `CMDBUF` (R29): a complete command is executed, an illegal header is discarded (30_encoding.md
R98), an incomplete command waits for its next word (R323). -/
def runCommand (s : State) : Host.Outcome State Fault Refusal :=
  match decode s.cmdbuf with
  | .ok (i, _) => exec i s
  | .error (.illegalOpcode _) => .next s.illegalCommand
  | .error .incomplete => .next s

/-- A write to CMD (R29): the word is appended to `CMDBUF`, and the command it completes is executed before the write retires. -/
def writeCmd (v : Word) (s : State) : Host.Outcome State Fault Refusal := runCommand { s with cmdbuf := s.cmdbuf ++ [v] }

/-- One access of the host (R28): writes to CMD and CTRL act, all other writes are ignored; a read returns the register and
has no effect (20_memory.md R73). -/
def hostAccess (op : HostOp) (s : State) : Host.Outcome State Fault Refusal :=
  match op with
  | .write 0 v => writeCmd v s
  | .write 4 v => .next (s.writeCtrl v)
  | .write _ _ => .next s
  | .read offset => .next { s with busData := s.readReg offset }

/-- Whether a command is in progress: its words are complete and the write of the last has not retired (30_encoding.md R94). -/
def inProgress (s : State) : Bool :=
  match decode s.cmdbuf with
  | .ok _ => true
  | .error _ => false

/-- A turn of the primary context: while a command is in progress the host is stalled and the command engine goes on with it
(R94, log 7); otherwise the host makes its next access, if it has one. -/
def primaryTurn (s : State) : Host.Outcome State Fault Refusal :=
  if inProgress s then runCommand s
  else match s.hostOps with
  | [] => .next s
  | op :: rest => hostAccess op { s with hostOps := rest }

/-- A turn of one agent (log 1). -/
def takeTurn (t : Turn) (s : State) : Host.Outcome State Fault Refusal :=
  match t with
  | .primary => primaryTurn s
  | .scan => .next (engineStep s)
  | .tick ms => .next (s.elapse ms)
  | .reset => .next s.resetBlock

/-- The turn that comes next, and the state with it taken off the list: the first listed turn, or a free one (U17, log 1). -/
def nextTurn (s : State) : Turn × State :=
  match s.sched with
  | [] => (Config.freeTurn s.draws, { s with draws := s.draws + 1 })
  | t :: rest => (t, { s with sched := rest })

/-- The state in which the host's next access is the write of the last word of `words`, the words before it standing in
`CMDBUF`, and the next turn is the primary context's (log 2). -/
def offerCommand (words : List Word) (s : State) : State :=
  { s with
    cmdbuf := words.dropLast
    hostOps := .write 0 (words.getLastD 0) :: s.hostOps
    sched := .primary :: s.sched }

end Sys2Proof.Machine
end

