-- ==== Sys2Proof/Machine/Step.lean ====
section
/-! DEFINITION. One step: the next turn is taken (93_implementation_defined.md U17). -/

namespace Sys2Proof.Machine

/-- One step of the block and its environment. -/
def step (s : State) : Host.Outcome State Fault Refusal := takeTurn (nextTurn s).1 (nextTurn s).2

/-- `s` with the instruction whose bits are `w` (spec/opcode_table.json's numbering) about to run: its words but the last
written to CMD, the last about to be written (log 2). -/
def State.withFetchWord (s : State) (nbits w : Nat) : State := offerCommand (tableCommand nbits w) s

end Sys2Proof.Machine
end

