-- ==== Sys2Proof/Safety.lean ====
section
/-! DEFINITION. The terms in which claims are stated: what it means for a surface to be painted, the loops as the rules write
them, the invariant of every reachable state, the order of events, and the hand-over of the shared bus. -/

namespace Sys2Proof.Machine

/-! ### What a drawing command does to a surface -/

/-- Size and generation are those of `sf` (10_state.md R21: the size is fixed at creation). -/
def Surface.SameBuffer (sf sf' : Surface) : Prop := sf'.w = sf.w ∧ sf'.h = sf.h ∧ sf'.gen = sf.gen

/-- Cursor, foreground colour and font are those of `sf`. -/
def Surface.SameText (sf sf' : Surface) : Prop :=
  sf'.cx = sf.cx ∧ sf'.cy = sf.cy ∧ sf'.fg = sf.fg ∧ sf'.font = sf.font

/-- `sf'` is `sf` with each pixel (x, y) inside it and in `drawn` holding the stored cell `value x y`, and every other byte
of the buffer reading as before (41_rasterizer.md R140). -/
structure Surface.Paints (sf sf' : Surface) (drawn : Nat → Nat → Prop) (value : Nat → Nat → Word) : Prop where
  buffer : sf.SameBuffer sf'
  painted : ∀ x y, sf.inside x y → drawn x y → sf'.cellRead (sf.index x y) = value x y
  others : ∀ a, (∀ x y, sf.inside x y → drawn x y → sf.index x y ≠ a / 2) → sf'.byteAt a = sf.byteAt a

/-- The state after a command that turned the current surface into `sf'`, changed nothing else, and completed. -/
def State.withCurrent (s : State) (sf' : Surface) : State :=
  { s with surfaces := s.surfaces.set s.cur.toNat (some sf'), cmdbuf := [] }

/-! ### Turns and host accesses -/

/-- `s` with the turn `t` the next to be taken. -/
def State.taking (s : State) (t : Turn) : State := { s with sched := t :: s.sched }

/-- `s` with the host's access `op` the next thing to happen. -/
def State.hostDoes (s : State) (op : HostOp) : State :=
  { s with hostOps := op :: s.hostOps, sched := .primary :: s.sched }

/-- Commands executed one after another, stopping where one does not answer a next state. -/
def execAll (cs : List Instr) (s : State) : Host.Outcome State Fault Refusal :=
  match cs with
  | [] => .next s
  | i :: rest =>
    match exec i s with
    | .next t => execAll rest t
    | .fault r => .fault r
    | .refused r => .refused r

/-! ### The loops as the rules write them -/

/-- The loop of LINE (41_rasterizer.md R147, R149). -/
def Surface.lineLoop (sf : Surface) (x1 y1 x2 y2 : Nat) (c : Word) : Surface :=
  if x1 = x2 then
    (List.range (max y1 y2 - min y1 y2 + 1)).foldl (fun t k => t.drawPixel x1 (min y1 y2 + k) c) sf
  else if y1 = y2 then
    (List.range (max x1 x2 - min x1 x2 + 1)).foldl (fun t k => t.drawPixel (min x1 x2 + k) y1 c) sf
  else sf

/-- The loop of RECT (41_rasterizer.md R150). -/
def Surface.rectLoop (sf : Surface) (filled : Bool) (x y w h : Nat) (c : Word) : Surface :=
  (List.range h).foldl (fun t iy => (List.range w).foldl (fun u ix =>
    if filled = true ∨ ix = 0 ∨ ix = w - 1 ∨ iy = 0 ∨ iy = h - 1 then u.drawPixel (x + ix) (y + iy) c else u) t) sf

/-- The loop of SPRITE (41_rasterizer.md R154, R156); `self` where source and destination are one surface. -/
def Surface.spriteLoop (self : Bool) (src d : Surface) (x y : Nat) : Surface :=
  (List.range src.h.toNat).foldl (fun t sy => (List.range src.w.toNat).foldl (fun u sx =>
    if x + sx < u.w.toNat ∧ y + sy < u.h.toNat then
      u.cellWrite ((y + sy) * u.w.toNat + (x + sx)) ((if self then u else src).cellRead (sy * src.w.toNat + sx))
    else u) t) d

/-- The loop of BITMAP as 43_bitmap.md R191 writes it, with the pixels unclipped: from column `x`, row `y` and word `index` on,
with the surface `sf`, it ends and leaves `sf'`. With `cfg.bitmapWraps` that is R191 to the letter; without it, an empty run
read beyond the end of ASSET with marker 0 has no way on: the column never ends (R197 (f), log 8). -/
inductive BitmapLoop (cfg : Config) (b : BitmapHeader) : Nat → Nat → Nat → Surface → Surface → Prop where
  | done {x y index : Nat} {sf : Surface} : b.bw ≤ x → BitmapLoop cfg b x y index sf sf
  | column {x y index : Nat} {sf sf' : Surface} :
      x < b.bw → b.bh ≤ y → BitmapLoop cfg b (x + 1) 0 index sf sf' → BitmapLoop cfg b x y index sf sf'
  | run {x y index : Nat} {sf sf' : Surface} (cnt : Nat) (col : Word) :
      x < b.bw → y < b.bh → bitmapWord cfg b.p index = b.marker →
      cnt = (bitmapWord cfg b.p (index + 1)).toNat → col = bitmapWord cfg b.p (index + 2) →
      emptyForEver cfg b index = false →
      BitmapLoop cfg b x (y + cnt) (index + 3)
        (if col = b.transparent then sf
          else (List.range cnt).foldl (fun t i => t.drawPixel (b.x0 + x) (b.y0 + y + i) col) sf) sf' →
      BitmapLoop cfg b x y index sf sf'
  | literal {x y index : Nat} {sf sf' : Surface} (v : Word) :
      x < b.bw → y < b.bh → v = bitmapWord cfg b.p index → v ≠ b.marker →
      BitmapLoop cfg b x (y + 1) (index + 1)
        (if v = b.transparent then sf else sf.drawPixel (b.x0 + x) (b.y0 + y) v) sf' →
      BitmapLoop cfg b x y index sf sf'

/-! ### The invariant -/

/-- A surface whose buffer is in canonical form and lists only its own bytes (10_state.md R22, 20_memory.md R61), and whose
font exists (10_state.md R21). -/
structure Surface.Sound (cfg : Config) (sf : Surface) : Prop where
  wf : Memory.wf sf.mem
  bytes : ∀ p ∈ sf.mem, p.1 < 2 * sf.cells
  font : sf.font.toNat < cfg.nFonts

/-- An event word of 45_keyscan.md R228. -/
def IsEventWord (v : Word) : Prop := ∃ press row col, v = eventWord press row col

/-- `CMDBUF` between two steps: a proper beginning of a command, or a command that is still in progress, which can only be a
WAITKEY or a BITMAP (10_state.md R29, 30_encoding.md R94, 43_bitmap.md R197). -/
def CommandBufferSound (ws : List Word) : Prop :=
  decode ws = .error .incomplete ∨ decode ws = .ok (.waitkey, []) ∨ ∃ x y p, decode ws = .ok (.bitmap x y p, [])

/-- What every reachable state satisfies. -/
structure State.Inv (s : State) : Prop where
  /-- The parameters are in their ranges (00_scope.md R4). -/
  legal : s.cfg.Legal
  /-- There are N_SURF slots (10_state.md R21). -/
  slots : s.surfaces.length = s.cfg.nSurf
  /-- The screen exists and has its size (10_state.md R24). -/
  screen : ∃ sf, s.surf? 0 = some sf ∧ sf.w = s.cfg.screenW ∧ sf.h = s.cfg.screenH
  /-- The current surface exists (10_state.md R23). -/
  current : ∃ sf, s.current? = some sf
  /-- Every surface is sound. -/
  sound : ∀ n sf, s.surf? n = some sf → sf.Sound s.cfg
  /-- Slots 1 and up stay within CELL_CAP (40_surface_mgmt.md R122). -/
  capacity : fitsCells s 0
  /-- `CMDBUF` never holds an illegal header or a command that has completed. -/
  command : CommandBufferSound s.cmdbuf
  /-- `Q` holds at most 32 event words (10_state.md R37). -/
  queue : s.q.length ≤ Config.qCap ∧ ∀ v ∈ s.q, IsEventWord v
  /-- The event in flight is an event word (10_state.md R38). -/
  pending : ∀ v, s.se = .pushPending v → IsEventWord v
  /-- `SCANACT` is 1 exactly when `SE = InPoll` (10_state.md R38). -/
  scanact : s.scanact = true ↔ s.se = .inPoll
  /-- The scan engine has been started wherever it is not off (46_queue_arb.md R258). -/
  started : s.se ≠ .off → s.scanen = true
  /-- With MULTICORE = 0 there is no scan engine and no queue (00_scope.md R3, 10_state.md R31, R37). -/
  single : s.cfg.multicore = false → s.q = [] ∧ s.se = .off ∧ s.scanen = false
  /-- No row line, or exactly one, is selected (10_state.md R40, 45_keyscan.md R221). -/
  rows : s.rowsel = 0x7F ∨ ∃ r, s.rowsel = selectRow r
  /-- Every frame is whole (44_transport.md R205, R207). -/
  frames : ∀ f ∈ s.tx, f.bytes.length = 2 * (f.w.toNat * f.h.toNat)

/-! ### The order of events (45_keyscan.md R229, 46_queue_arb.md R254) -/

/-- The key held down in a debounce state. -/
def Debounce.key (d : Debounce) : Option Key :=
  match d with
  | .idle => none
  | .pressed row col _ => some { row := row, col := col }

/-- The events emitted and not yet delivered, oldest first: those in `Q`, then the one in flight (10_state.md R37, R38). -/
def State.undelivered (s : State) : List Word :=
  s.q ++ (match s.se with | .pushPending ev => [ev] | _ => [])

/-- The event words lead from the key held at the beginning to the key held at the end, a Press of a key only with no key
held, a Release only of the key that is held: strict alternation. -/
def EventsLead (start : Option Key) (events : List Word) (finish : Option Key) : Prop :=
  match events with
  | [] => start = finish
  | ev :: rest =>
    match start with
    | none => ∃ k : Key, ev = eventWord true k.row k.col ∧ EventsLead (some k) rest finish
    | some k => ev = eventWord false k.row k.col ∧ EventsLead none rest finish

/-- The undelivered events alternate strictly and lead to what the debounce machine holds now. -/
def State.EventsInOrder (s : State) : Prop := ∃ start, EventsLead start s.undelivered s.db.key

/-! ### The shared bus (46_queue_arb.md R259, R265) -/

/-- The host has raised `ARB` and no poll is in progress. -/
def State.BusIsHosts (s : State) : Prop := s.cfg.multicore = true ∧ s.arb = true ∧ s.scanact = false

/-- None of the host's coming accesses lowers `ARB`. -/
def State.KeepsArb (s : State) : Prop := ∀ v, HostOp.write 4 v ∈ s.hostOps → v.getLsbD 0 = true

end Sys2Proof.Machine
end

