-- ==== Sys2Proof/Certificates/Slice0/Obligations.lean ====
section
/-! DEFINITION. The statements for the provers: what the rules of spec/ say the commands and the machine do. -/

open Sys2Proof Sys2Proof.Machine

/-! ### Encoding (30_encoding.md) -/

/-- R101, R100: the words of a well-formed command, whatever follows them, decode to that command. -/
def Obligations.DecodeOfEncodeIsTheCommand : Prop :=
  ∀ (i : Instr) (rest : List Word), i.wellFormed = true → decode (encode i ++ rest) = .ok (i, rest)

/-- R100: a decoded command takes exactly as many words as the length rule gives, and no later word matters to it; an
illegal header takes one word; an incomplete command has fewer words than the rule asks for. -/
def Obligations.DecodeTakesTheCommandLength : Prop :=
  ∀ (h : Word) (ws : List Word),
    (∀ i rest, decode (h :: ws) = .ok (i, rest) →
      ∃ n, commandLength h ws = some n ∧ h :: ws = (h :: ws).take n ++ rest ∧ n ≤ ws.length + 1 ∧
        ∀ more, decode ((h :: ws).take n ++ more) = .ok (i, more)) ∧
    (∀ op, decode (h :: ws) = .error (.illegalOpcode op) → op = opField h ∧ commandLength h ws = some 1) ∧
    (decode (h :: ws) = .error .incomplete → ∀ n, commandLength h ws = some n → ws.length + 1 < n)

/-- R93, R95, R96, R101: words written out from the encoding tables decode to the commands they stand for. -/
def Obligations.WordsOfTheTableDecode : Prop :=
  decode [0x0000] = .ok (.nop, []) ∧
  decode [0x0101, 4, 3, 0x0301] = .ok (.surfnew 1 4 3, [0x0301]) ∧
  decode [0x1300, 3, 1, 0, 1, 0x07E0] = .ok (.line 3 1 0 1 0x07E0, []) ∧
  decode [0x1401, 1, 2, 3, 4, 7, 0xFFFF] = .ok (.rect true 1 2 3 4 7 0xFFFF, []) ∧
  decode [0x1600, 1, 2, 0x0004, 0x0001] = .ok (.bitmap 1 2 65540, []) ∧
  decode [0x2100, 0x0A41, 0x2E42, 0x0000] = .ok (.string [0x41, 0x0A, 0x42, 0x2E], []) ∧
  decode [0x30FF] = .ok (.present 0xFF, []) ∧
  decode [0x4100] = .ok (.waitkey, [])

/-- R97: the `A` field of a command that lists no use for it, bits 7:1 of RECT's, and RECT's radius have no effect. -/
def Obligations.IgnoredFieldsHaveNoEffect : Prop :=
  (∀ (op a a' : Byte) (ws : List Word),
    op ∈ ([0x00, 0x04, 0x05, 0x06, 0x10, 0x11, 0x12, 0x13, 0x16, 0x21, 0x40, 0x41] : List Byte) →
      decode (header op a :: ws) = decode (header op a' :: ws)) ∧
  (∀ (a a' : Byte) (ws : List Word), a.getLsbD 0 = a'.getLsbD 0 →
    decode (header 0x14 a :: ws) = decode (header 0x14 a' :: ws)) ∧
  (∀ (filled : Bool) (x y w h radius radius' c : Word) (s : State),
    exec (.rect filled x y w h radius c) s = exec (.rect filled x y w h radius' c) s)

/-- R98 (the spec's decision D35): an illegal header is consumed, sets `ILL`, and changes nothing else; the next word
is a new header, since `CMDBUF` stays empty. -/
def Obligations.IllegalHeaderOnlySetsIll : Prop :=
  ∀ (s : State) (v : Word), s.cmdbuf = [] →
    ((8 ≤ (opField v).toNat ∧ (opField v).toNat ≤ 15) ∨ (23 ≤ (opField v).toNat ∧ (opField v).toNat ≤ 31) ∨
      (34 ≤ (opField v).toNat ∧ (opField v).toNat ≤ 47) ∨ (49 ≤ (opField v).toNat ∧ (opField v).toNat ≤ 63) ∨
      66 ≤ (opField v).toNat) →
    step (s.hostDoes (.write 0 v)) = .next { s with ill := true }

/-- R29: a step runs the decoded command. A word written to CMD is appended to `CMDBUF`; if that completes a command, the step
is exec of that command; if not, the word waits (R323); a command in progress goes on in the primary context's next turn. -/
def Obligations.StepRunsTheDecodedCommand : Prop :=
  (∀ (s : State) (v : Word) (i : Instr) (rest : List Word),
    decode s.cmdbuf = .error .incomplete → decode (s.cmdbuf ++ [v]) = .ok (i, rest) →
      step (s.hostDoes (.write 0 v)) = exec i { s with cmdbuf := s.cmdbuf ++ [v] }) ∧
  (∀ (s : State) (v : Word),
    decode s.cmdbuf = .error .incomplete → decode (s.cmdbuf ++ [v]) = .error .incomplete →
      step (s.hostDoes (.write 0 v)) = .next { s with cmdbuf := s.cmdbuf ++ [v] }) ∧
  (∀ (s : State) (i : Instr) (rest : List Word), decode s.cmdbuf = .ok (i, rest) →
    step (s.taking .primary) = exec i s)

/-- R94: while a command is in progress the host makes no access, reads nothing and writes no register. -/
def Obligations.HostIsStalledDuringACommand : Prop :=
  ∀ (s t : State) (i : Instr) (rest : List Word), decode s.cmdbuf = .ok (i, rest) →
    step (s.taking .primary) = .next t →
      t.hostOps = s.hostOps ∧ t.busData = s.busData ∧ t.arb = s.arb ∧ t.scanen = s.scanen ∧ t.ill = s.ill

/-! ### The whole machine -/

/-- The reset state meets the invariant, and no event is undelivered. -/
def Obligations.ResetStateIsSound : Prop := State.reset.Inv ∧ State.reset.EventsInOrder

/-- Every step keeps the invariant. -/
def Obligations.EveryStepKeepsTheInvariant : Prop := ∀ s t : State, s.Inv → step s = .next t → t.Inv

/-- R280: no state that meets the invariant stops, in any turn: the block raises no exception, trap or fault. -/
def Obligations.NoStepStops : Prop := ∀ s : State, s.Inv → ∃ t, step s = .next t

/-- R229, R254: the undelivered events alternate strictly and lead to the key the debounce machine holds, at every step. -/
def Obligations.EveryStepKeepsTheEventsInOrder : Prop :=
  ∀ s t : State, s.Inv → s.EventsInOrder → step s = .next t → t.EventsInOrder

/-- R21, R122: no step but a reset changes the size of a surface that exists before and after it. -/
def Obligations.SurfaceSizeIsFixedAtCreation : Prop :=
  ∀ (s t : State) (n : Nat) (sf sf' : Surface), (nextTurn s).1 ≠ .reset → step s = .next t →
    s.surf? n = some sf → t.surf? n = some sf' → sf'.w = sf.w ∧ sf'.h = sf.h

/-- R41: no step but a reset takes a frame out of `TX` or changes one; R4: no step changes a parameter. -/
def Obligations.TransportHistoryOnlyGrows : Prop :=
  ∀ s t : State, step s = .next t →
    t.cfg = s.cfg ∧ ((nextTurn s).1 ≠ .reset → ∃ frames, t.tx = s.tx ++ frames)

/-- R282: `ILL` is cleared by reset only; and no command of the map changes it. -/
def Obligations.IllIsClearedByResetOnly : Prop :=
  (∀ s t : State, (nextTurn s).1 ≠ .reset → step s = .next t → s.ill = true → t.ill = true) ∧
  (∀ (i : Instr) (s t : State), exec i s = .next t → t.ill = s.ill)

/-- R288: a turn of the scan engine writes `DB`, `Q`, `SE`, SCANACT and ROWSEL, takes answers of the key matrix and time, and
touches no surface, no frame, not `CUR`, the result registers, `CMDBUF`, `ILL` or CTRL. -/
def Obligations.ScanEngineTouchesOnlyItsState : Prop :=
  ∀ s : State, ∃ t, step (s.taking .scan) = .next t ∧
    t = { s with
      db := t.db, q := t.q, se := t.se, scanact := t.scanact, time := t.time, rowsel := t.rowsel
      matrix := t.matrix, draws := t.draws }

/-- R265: from a state in which `ARB` is 1 and SCANACT reads 0, as long as the host does not lower `ARB` and no reset comes,
no turn of any agent scans: ROWSEL keeps its value and no answer of the key matrix is taken, however many steps are made. -/
def Obligations.BusHandshakeExcludesScans : Prop :=
  ∀ (k : Nat) (s t : State), s.Inv → s.BusIsHosts → s.KeepsArb →
    k ≤ s.sched.length → (∀ turn ∈ s.sched.take k, turn ≠ .reset) →
    Host.Core.run Sys2Proof.core k s = .next t →
      t.BusIsHosts ∧ t.rowsel = s.rowsel ∧ t.matrix = s.matrix ∧ t.db = s.db

/-- R30: RESULT0 and RESULT1 are written only by the commands named there, RESULT1 only by GETCUR; reading them has no
side effect. -/
def Obligations.ResultRegistersAreWrittenByTheirCommandsOnly : Prop :=
  (∀ (i : Instr) (s t : State), exec i s = .next t →
    (match i with
      | .surfnew _ _ _ | .surffree _ | .select _ | .setfont _ | .getpix _ _ | .pollkey | .waitkey => t.result1 = s.result1
      | .getcur => True
      | _ => t.result0 = s.result0 ∧ t.result1 = s.result1)) ∧
  (∀ (s : State) (offset : Nat), (offset = 2 ∨ offset = 3) → decode s.cmdbuf = .error .incomplete →
    step (s.hostDoes (.read offset)) = .next { s with busData := if offset = 2 then s.result0 else s.result1 })

/-- R43, R311: a reset turn gives every piece of state its reset value at once; the parameters stay, and so do the inputs
outside the block (the last clause is the model's, logs 1, 2 and 5). -/
def Obligations.ResetTurnRestoresEverything : Prop :=
  ∀ s : State, 1 ≤ s.cfg.nSurf → ∃ t sf, step (s.taking .reset) = .next t ∧
    t.surf? 0 = some sf ∧ sf.w = s.cfg.screenW ∧ sf.h = s.cfg.screenH ∧ sf.cx = 0 ∧ sf.cy = 0 ∧ sf.fg = 0xFFFF ∧
    sf.font = 0 ∧ (∀ n, 1 ≤ n → t.surf? n = none) ∧ t.surfaces.length = s.cfg.nSurf ∧
    t.cur = 0 ∧ t.cmdbuf = [] ∧ t.result0 = 0 ∧ t.result1 = 0 ∧ t.ill = false ∧ t.arb = false ∧ t.scanen = false ∧
    t.db = .idle ∧ t.q = [] ∧ t.se = .off ∧ t.scanact = false ∧ t.time = 0 ∧ t.rowsel = 0x7F ∧ t.tx = [] ∧
    t.cfg = s.cfg ∧ t.hostOps = s.hostOps ∧ t.sched = s.sched ∧ t.matrix = s.matrix

/-! ### Surface management and drawing state (40_surface_mgmt.md) -/

/-- R121: NOP, with any `A`, leaves every piece of state unchanged. -/
def Obligations.NopChangesNothing : Prop :=
  (∀ s : State, exec .nop s = .next { s with cmdbuf := [] }) ∧
  (∀ (s : State) (a : Byte), s.cmdbuf = [] → step (s.hostDoes (.write 0 (header 0x00 a))) = .next s)

/-- R122: SURFNEW makes the surface and answers 1, or answers 0 and changes nothing else. The cells of the new surface are
unspecified: nothing is said of them (log 4). -/
def Obligations.SurfnewCreatesOrReportsFailure : Prop :=
  ∀ (slot : Byte) (w h : Word),
    (∀ rest, decode (header 0x01 slot :: w :: h :: rest) = .ok (.surfnew slot w h, rest)) ∧
    ∀ s : State, s.surfaces.length = s.cfg.nSurf →
      ((slot = 0 ∨ s.cfg.nSurf ≤ slot.toNat ∨ (∃ sf, s.surf? slot.toNat = some sf) ∨
          (∃ cap, s.cfg.cellCap = some cap ∧ cap < s.usedCells + w.toNat * h.toNat)) →
        exec (.surfnew slot w h) s = .next { s with result0 := 0, cmdbuf := [] }) ∧
      (slot ≠ 0 → slot.toNat < s.cfg.nSurf → s.surf? slot.toNat = none →
          (∀ cap, s.cfg.cellCap = some cap → s.usedCells + w.toNat * h.toNat ≤ cap) →
        ∃ t sf, exec (.surfnew slot w h) s = .next t ∧
          t.surf? slot.toNat = some sf ∧ sf.w = w ∧ sf.h = h ∧ sf.cx = 0 ∧ sf.cy = 0 ∧ sf.fg = 0xFFFF ∧ sf.font = 0 ∧
          (∀ n, n ≠ slot.toNat → t.surf? n = s.surf? n) ∧ t.surfaces.length = s.surfaces.length ∧
          t = { s with surfaces := t.surfaces, result0 := 1, cmdbuf := [], draws := t.draws })

/-- R123: SURFFREE destroys the surface, selects the screen if it was current, and answers 1, or answers 0 and changes nothing
else. -/
def Obligations.SurffreeDestroysOrReportsFailure : Prop :=
  ∀ slot : Byte,
    (∀ rest, decode (header 0x02 slot :: rest) = .ok (.surffree slot, rest)) ∧
    ∀ s : State,
      ((slot = 0 ∨ s.cfg.nSurf ≤ slot.toNat ∨ s.surf? slot.toNat = none) →
        exec (.surffree slot) s = .next { s with result0 := 0, cmdbuf := [] }) ∧
      (∀ sf, slot ≠ 0 → slot.toNat < s.cfg.nSurf → s.surf? slot.toNat = some sf →
        ∃ t, exec (.surffree slot) s = .next t ∧ t.surf? slot.toNat = none ∧
          (∀ n, n ≠ slot.toNat → t.surf? n = s.surf? n) ∧ t.surfaces.length = s.surfaces.length ∧
          t = { s with surfaces := t.surfaces, cur := if s.cur = slot then 0 else s.cur, result0 := 1, cmdbuf := [] })

/-- R128: SELECT makes an allocated slot current and answers 1; otherwise it answers 0. STATUS bits 15:8 are `CUR`. -/
def Obligations.SelectSwitchesOrReportsFailure : Prop :=
  ∀ slot : Byte,
    (∀ rest, decode (header 0x03 slot :: rest) = .ok (.select slot, rest)) ∧
    ∀ s : State,
      (∀ sf, slot.toNat < s.cfg.nSurf → s.surf? slot.toNat = some sf →
        ∃ t, exec (.select slot) s = .next t ∧ t = { s with cur := slot, result0 := 1, cmdbuf := [] } ∧
          highByte (t.readReg 1) = slot) ∧
      ((s.cfg.nSurf ≤ slot.toNat ∨ s.surf? slot.toNat = none) →
        exec (.select slot) s = .next { s with result0 := 0, cmdbuf := [] })

/-- R124 to R127: SETCUR, GETCUR, SETFG and SETFONT read and write the drawing state of the current surface and nothing else. -/
def Obligations.DrawingStateCommandsActOnTheCurrentSurface : Prop :=
  (∀ (a : Byte) (x y : Word) (rest : List Word),
    decode (header 0x04 a :: x :: y :: rest) = .ok (.setcur x y, rest) ∧
    decode (header 0x05 a :: rest) = .ok (.getcur, rest) ∧
    decode (header 0x06 a :: x :: rest) = .ok (.setfg x, rest) ∧
    decode (header 0x07 a :: rest) = .ok (.setfont a, rest)) ∧
  ∀ (s : State) (sf : Surface), s.current? = some sf →
    (∀ x y, exec (.setcur x y) s = .next (s.withCurrent { sf with cx := x, cy := y })) ∧
    exec .getcur s = .next { s with result0 := sf.cx, result1 := sf.cy, cmdbuf := [] } ∧
    (∀ c, exec (.setfg c) s = .next (s.withCurrent { sf with fg := c })) ∧
    (∀ f : Byte, f.toNat < s.cfg.nFonts →
      exec (.setfont f) s = .next { s.withCurrent { sf with font := f } with result0 := 1 }) ∧
    (∀ f : Byte, s.cfg.nFonts ≤ f.toNat → exec (.setfont f) s = .next { s with result0 := 0, cmdbuf := [] })

/-! ### Rasterizer (41_rasterizer.md) -/

/-- R141: FILL gives every cell of the current surface the swapped colour and changes nothing else. -/
def Obligations.FillPaintsEveryCell : Prop :=
  ∀ c : Word,
    (∀ a rest, decode (header 0x10 a :: c :: rest) = .ok (.fill c, rest)) ∧
    ∀ (s : State) (sf : Surface), s.current? = some sf →
      ∃ sf', exec (.fill c) s = .next (s.withCurrent sf') ∧ sf.SameText sf' ∧
        sf.Paints sf' (fun _ _ => True) (fun _ _ => bswap16 c)

/-- R143, R142: PIXEL gives the cell of its pixel, if that is inside, the swapped colour and changes nothing else. -/
def Obligations.PixelPaintsItsCell : Prop :=
  ∀ x y c : Word,
    (∀ a rest, decode (header 0x11 a :: x :: y :: c :: rest) = .ok (.pixel x y c, rest)) ∧
    ∀ (s : State) (sf : Surface), s.current? = some sf →
      ∃ sf', exec (.pixel x y c) s = .next (s.withCurrent sf') ∧ sf.SameText sf' ∧
        sf.Paints sf' (fun px py => px = x.toNat ∧ py = y.toNat) (fun _ _ => bswap16 c)

/-- R145, R144: GETPIX answers the un-swapped colour of its pixel, 0 outside the surface, and changes nothing else. -/
def Obligations.GetpixAnswersTheTrueColour : Prop :=
  ∀ x y : Word,
    (∀ a rest, decode (header 0x12 a :: x :: y :: rest) = .ok (.getpix x y, rest)) ∧
    ∀ (s : State) (sf : Surface), s.current? = some sf →
      (x.toNat < sf.w.toNat → y.toNat < sf.h.toNat →
        exec (.getpix x y) s =
          .next { s with result0 := bswap16 (sf.cellRead (y.toNat * sf.w.toNat + x.toNat)), cmdbuf := [] }) ∧
      ((sf.w.toNat ≤ x.toNat ∨ sf.h.toNat ≤ y.toNat) →
        exec (.getpix x y) s = .next { s with result0 := 0, cmdbuf := [] })

/-- R146 (derived by the spec from R142, R144 and R7): PIXEL then GETPIX of a pixel inside the surface answers the colour. -/
def Obligations.PixelThenGetpixRoundTrips : Prop :=
  ∀ (x y c : Word) (s : State) (sf : Surface), s.current? = some sf → x.toNat < sf.w.toNat → y.toNat < sf.h.toNat →
    ∃ t u, exec (.pixel x y c) s = .next t ∧ exec (.getpix x y) t = .next u ∧ u.result0 = c

/-- R147 to R149: LINE paints the pixels from one end point to the other, both included, in either order of the end points;
a diagonal LINE paints none. -/
def Obligations.LinePaintsItsPixels : Prop :=
  ∀ x1 y1 x2 y2 c : Word,
    (∀ a rest, decode (header 0x13 a :: x1 :: y1 :: x2 :: y2 :: c :: rest) = .ok (.line x1 y1 x2 y2 c, rest)) ∧
    ∀ (s : State) (sf : Surface), s.current? = some sf →
      exec (.line x1 y1 x2 y2 c) s = exec (.line x2 y2 x1 y1 c) s ∧
      ∃ sf', exec (.line x1 y1 x2 y2 c) s = .next (s.withCurrent sf') ∧ sf.SameText sf' ∧
        sf.Paints sf' (fun px py =>
            (x1 = x2 ∧ px = x1.toNat ∧ min y1.toNat y2.toNat ≤ py ∧ py ≤ max y1.toNat y2.toNat) ∨
            (x1 ≠ x2 ∧ y1 = y2 ∧ py = y1.toNat ∧ min x1.toNat x2.toNat ≤ px ∧ px ≤ max x1.toNat x2.toNat))
          (fun _ _ => bswap16 c)

/-- R150, R151: RECT.F paints the pixels of its rectangle, RECT those of its one-pixel border; the radius has no part. -/
def Obligations.RectPaintsItsPixels : Prop :=
  ∀ x y w h radius c : Word,
    (∀ (a : Byte) rest, decode (header 0x14 a :: x :: y :: w :: h :: radius :: c :: rest) =
      .ok (.rect (a.getLsbD 0) x y w h radius c, rest)) ∧
    ∀ (filled : Bool) (s : State) (sf : Surface), s.current? = some sf →
      ∃ sf', exec (.rect filled x y w h radius c) s = .next (s.withCurrent sf') ∧ sf.SameText sf' ∧
        sf.Paints sf' (fun px py =>
            x.toNat ≤ px ∧ px < x.toNat + w.toNat ∧ y.toNat ≤ py ∧ py < y.toNat + h.toNat ∧
            (filled = true ∨ px = x.toNat ∨ px + 1 = x.toNat + w.toNat ∨ py = y.toNat ∨ py + 1 = y.toNat + h.toNat))
          (fun _ _ => bswap16 c)

/-- R147, R149, R150: LINE and RECT do exactly what the loops of their rules do, pixel by pixel, although the model visits
only the pixels that can lie on the surface (log 9). -/
def Obligations.LineAndRectAreTheLoopsOfTheirRules : Prop :=
  ∀ (s : State) (sf : Surface), s.current? = some sf →
    (∀ x1 y1 x2 y2 c, exec (.line x1 y1 x2 y2 c) s =
      .next (s.withCurrent (sf.lineLoop x1.toNat y1.toNat x2.toNat y2.toNat c))) ∧
    (∀ filled x y w h radius c, exec (.rect filled x y w h radius c) s =
      .next (s.withCurrent (sf.rectLoop filled x.toNat y.toNat w.toNat h.toNat c)))

/-- R153 (derived by the spec from R141, R142 and R150): a filled rectangle that covers the whole surface and a fill with the
same colour leave the same state, buffer included. -/
def Obligations.CoveringFilledRectEqualsFill : Prop :=
  ∀ (w h radius c : Word) (s : State) (sf : Surface), s.current? = some sf → Memory.wf sf.mem →
    sf.w.toNat ≤ w.toNat → sf.h.toNat ≤ h.toNat → exec (.rect true 0 0 w h radius c) s = exec (.fill c) s

/-- R152: the outline of a rectangle is the four LINE commands of its sides, wherever their end points fit 16 bits. -/
def Obligations.OutlineIsItsFourLines : Prop :=
  ∀ (x y w h radius c xe ye : Word) (s : State) (sf : Surface), s.current? = some sf → Memory.wf sf.mem →
    1 ≤ w.toNat → 1 ≤ h.toNat → xe.toNat = x.toNat + w.toNat - 1 → ye.toNat = y.toNat + h.toNat - 1 →
      exec (.rect false x y w h radius c) s =
        execAll [.line x y xe y c, .line x ye xe ye c, .line x y x ye c, .line xe y xe ye c] s

/-- R154, R156: SPRITE does exactly what the loop of its rule does, each read seeing the earlier writes where source and
destination are one surface; it draws nothing where the source slot holds no surface. -/
def Obligations.SpriteIsTheLoopOfItsRule : Prop :=
  ∀ (src : Byte) (x y : Word),
    (∀ rest, decode (header 0x15 src :: x :: y :: rest) = .ok (.sprite src x y, rest)) ∧
    ∀ (s : State) (sf : Surface), s.current? = some sf →
      (∀ so, src.toNat < s.cfg.nSurf → s.surf? src.toNat = some so →
        exec (.sprite src x y) s = .next (s.withCurrent (so.spriteLoop (src = s.cur) sf x.toNat y.toNat))) ∧
      ((s.cfg.nSurf ≤ src.toNat ∨ s.surf? src.toNat = none) →
        exec (.sprite src x y) s = .next { s with cmdbuf := [] })

/-- R155 (derived by the spec from R154): SPRITE from another surface writes exactly the cells of the in-bounds part, raw, and
changes nothing else, the source among it. -/
def Obligations.SpriteCopiesTheInBoundsPart : Prop :=
  ∀ (src : Byte) (x y : Word) (s : State) (sf so : Surface), s.current? = some sf → src ≠ s.cur →
    src.toNat < s.cfg.nSurf → s.surf? src.toNat = some so →
      ∃ sf', exec (.sprite src x y) s = .next (s.withCurrent sf') ∧ sf.SameText sf' ∧
        sf.Paints sf' (fun px py => x.toNat ≤ px ∧ px < x.toNat + so.w.toNat ∧ y.toNat ≤ py ∧ py < y.toNat + so.h.toNat)
          (fun px py => so.cellRead ((py - y.toNat) * so.w.toNat + (px - x.toNat)))

/-- R156: SPRITE of the current surface onto itself at (0, 0) changes no byte of any buffer. -/
def Obligations.SpriteOntoItselfAtTheOriginChangesNoByte : Prop :=
  ∀ (s : State) (sf : Surface), s.current? = some sf → s.cur.toNat < s.cfg.nSurf →
    ∃ sf', exec (.sprite s.cur 0 0) s = .next (s.withCurrent sf') ∧ sf.SameBuffer sf' ∧ sf.SameText sf' ∧
      ∀ a, sf'.byteAt a = sf.byteAt a

/-! ### Glyph compositor (42_glyph.md) -/

/-- R171, R172: a newline sets the cursor and writes no cell; a character without a glyph changes nothing. -/
def Obligations.CharNewlineAndAbsentGlyph : Prop :=
  (∀ c rest, decode (header 0x20 c :: rest) = .ok (.char c, rest)) ∧
  ∀ (s : State) (sf : Surface), s.current? = some sf →
    (∀ g, glyph s.cfg sf.font.toNat 0x41 = some g →
      exec (.char 0x0A) s = .next (s.withCurrent { sf with cx := 0, cy := BitVec.ofNat 16 (sf.cy.toNat + g.gh) })) ∧
    (glyph s.cfg sf.font.toNat 0x41 = none → exec (.char 0x0A) s = .next (s.withCurrent { sf with cx := 0 })) ∧
    (∀ c, c ≠ 0x0A → glyph s.cfg sf.font.toNat c = none → exec (.char c) s = .next { s with cmdbuf := [] })

/-- R173, R175: CHAR of a printable glyph blends the foreground over each pixel of non-zero coverage inside the surface,
leaves every other cell alone, and moves the cursor by the glyph's width less one, modulo 2^16. -/
def Obligations.CharBlendsItsGlyph : Prop :=
  ∀ (c : Byte) (s : State) (sf : Surface) (g : GlyphRecord), s.current? = some sf → c ≠ 0x0A →
    glyph s.cfg sf.font.toNat c = some g →
      ∃ sf', exec (.char c) s = .next (s.withCurrent sf') ∧
        sf'.cx.toNat = (sf.cx.toNat + g.gw + 65535) % 65536 ∧ sf'.cy = sf.cy ∧ sf'.fg = sf.fg ∧ sf'.font = sf.font ∧
        sf.Paints sf' (fun px py =>
            sf.cx.toNat ≤ px ∧ px < sf.cx.toNat + g.gw ∧ sf.cy.toNat ≤ py ∧ py < sf.cy.toNat + g.gh ∧
            coverage s.cfg sf.font.toNat g (px - sf.cx.toNat) (py - sf.cy.toNat) ≠ 0)
          (fun px py => bswap16 (blend (sf.getPixel px py) sf.fg
            (coverage s.cfg sf.font.toNat g (px - sf.cx.toNat) (py - sf.cy.toNat))))

/-- R177: STRING is the sequence of CHAR commands of its bytes, each seeing what the last left; the empty string does nothing. -/
def Obligations.StringIsItsSequenceOfChars : Prop :=
  ∀ (bytes : List Byte) (s : State) (sf : Surface), s.current? = some sf →
    ∃ t, execAll (bytes.map .char) s = .next t ∧ exec (.string bytes) s = .next { t with cmdbuf := [] }

/-- R174, R176: each channel of a blend is the weighted sum divided by 15, so it lies between those of the two colours; bit 5
of the result is 0 below full coverage, and full coverage gives the foreground colour exactly. -/
def Obligations.BlendInterpolatesEachChannel : Prop :=
  ∀ (d f : Word) (a : Nat),
    (1 ≤ a → a ≤ 14 →
      red5 (blend d f a) = (red5 d * (15 - a) + red5 f * a) / 15 ∧
      green5 (blend d f a) = (green5 d * (15 - a) + green5 f * a) / 15 ∧
      blue5 (blend d f a) = (blue5 d * (15 - a) + blue5 f * a) / 15 ∧
      (blend d f a).getLsbD 5 = false ∧
      min (red5 d) (red5 f) ≤ red5 (blend d f a) ∧ red5 (blend d f a) ≤ max (red5 d) (red5 f) ∧
      min (green5 d) (green5 f) ≤ green5 (blend d f a) ∧ green5 (blend d f a) ≤ max (green5 d) (green5 f) ∧
      min (blue5 d) (blue5 f) ≤ blue5 (blend d f a) ∧ blue5 (blend d f a) ≤ max (blue5 d) (blue5 f)) ∧
    blend d f 15 = f

/-! ### Run-length bitmap codec (43_bitmap.md) -/

/-- R192: BITMAP with the null pointer changes nothing. -/
def Obligations.BitmapNullPointerChangesNothing : Prop :=
  (∀ (a : Byte) (x y lo hi : Word) rest,
    decode (header 0x16 a :: x :: y :: lo :: hi :: rest) = .ok (.bitmap x y (pointer lo hi), rest) ∧
    (pointer lo hi).toNat = lo.toNat + 65536 * hi.toNat) ∧
  ∀ (x y : Word) (s : State), exec (.bitmap x y 0) s = .next { s with cmdbuf := [] }

/-- R191 to R197: BITMAP completes exactly where the loop of its rule ends, and leaves exactly the surface the loop leaves,
malformed data included. Beyond the end of ASSET with marker 0 the loop goes on through the wrap, or not, as `bitmapWraps` has
it; that BITMAP otherwise stays in progress is the model's form of the stall (both log 8, the model's choices). -/
def Obligations.BitmapCompletesExactlyWhenItsLoopEnds : Prop :=
  ∀ (x y : Word) (p : BitVec 32) (s : State) (sf : Surface), p ≠ 0 → s.current? = some sf → s.cmdbuf ≠ [] →
    ∀ sf', exec (.bitmap x y p) s = .next (s.withCurrent sf') ↔
      BitmapLoop s.cfg (bitmapHeader s.cfg x.toNat y.toNat p) 0 0 4 sf sf'

/-- R197: where no data word equal to the run marker is followed by a zero word, so that every run has a count of at least 1,
BITMAP ends: the command completes. -/
def Obligations.BitmapEndsWhereEveryRunCounts : Prop :=
  ∀ (x y : Word) (p : BitVec 32) (s : State) (sf : Surface), p ≠ 0 → s.current? = some sf →
    (∀ i, 4 ≤ i → bitmapWord s.cfg p i = bitmapWord s.cfg p 3 → bitmapWord s.cfg p (i + 1) ≠ 0) →
      ∃ sf', exec (.bitmap x y p) s = .next (s.withCurrent sf') ∧ sf.SameBuffer sf' ∧ sf.SameText sf'

/-- R198 (derived by the spec from R191): BITMAP, whether it ends or not, writes only cells of the current surface in its own
columns, and uses neither cursor, colour nor font. -/
def Obligations.BitmapWritesOnlyItsColumns : Prop :=
  ∀ (x y : Word) (p : BitVec 32) (s : State) (sf : Surface), p ≠ 0 → s.current? = some sf →
    ∃ t sf', exec (.bitmap x y p) s = .next t ∧ (t = s.withCurrent sf' ∨ t = { s.withCurrent sf' with cmdbuf := s.cmdbuf }) ∧
      sf.SameBuffer sf' ∧ sf.SameText sf' ∧
      ∀ a, (∀ px py, sf.inside px py = true → x.toNat ≤ px → px < x.toNat + (bitmapWord s.cfg p 0).toNat →
        sf.index px py ≠ a / 2) → sf'.byteAt a = sf.byteAt a

/-- R194, R199: a bitmap whose every column is one run of its height draws exactly that many pixels per column. -/
def Obligations.BitmapOfRunsDrawsAField : Prop :=
  ∀ (x y col : Word) (p : BitVec 32) (s : State) (sf : Surface), p ≠ 0 → s.current? = some sf →
    bitmapWord s.cfg p 1 ≠ 0 → col ≠ bitmapWord s.cfg p 2 →
    (∀ k, k < (bitmapWord s.cfg p 0).toNat →
      bitmapWord s.cfg p (4 + 3 * k) = bitmapWord s.cfg p 3 ∧
      bitmapWord s.cfg p (4 + 3 * k + 1) = bitmapWord s.cfg p 1 ∧ bitmapWord s.cfg p (4 + 3 * k + 2) = col) →
      ∃ sf', exec (.bitmap x y p) s = .next (s.withCurrent sf') ∧ sf.SameText sf' ∧
        sf.Paints sf' (fun px py =>
            x.toNat ≤ px ∧ px < x.toNat + (bitmapWord s.cfg p 0).toNat ∧
            y.toNat ≤ py ∧ py < y.toNat + (bitmapWord s.cfg p 1).toNat)
          (fun _ _ => bswap16 col)

/-- R193, R195: a bitmap without runs draws each word that is not the transparent colour at its own place, column by column. -/
def Obligations.BitmapOfLiteralsDrawsEachPixel : Prop :=
  ∀ (x y : Word) (p : BitVec 32) (s : State) (sf : Surface), p ≠ 0 → s.current? = some sf →
    (∀ i, i < (bitmapWord s.cfg p 0).toNat * (bitmapWord s.cfg p 1).toNat →
      bitmapWord s.cfg p (4 + i) ≠ bitmapWord s.cfg p 3) →
      ∃ sf', exec (.bitmap x y p) s = .next (s.withCurrent sf') ∧ sf.SameText sf' ∧
        sf.Paints sf' (fun px py =>
            x.toNat ≤ px ∧ px < x.toNat + (bitmapWord s.cfg p 0).toNat ∧
            y.toNat ≤ py ∧ py < y.toNat + (bitmapWord s.cfg p 1).toNat ∧
            bitmapWord s.cfg p (4 + (px - x.toNat) * (bitmapWord s.cfg p 1).toNat + (py - y.toNat)) ≠
              bitmapWord s.cfg p 2)
          (fun px py =>
            bswap16 (bitmapWord s.cfg p (4 + (px - x.toNat) * (bitmapWord s.cfg p 1).toNat + (py - y.toNat))))

/-- R197: with marker 0 and the data beyond the end of ASSET, BITMAP never ends and nothing changes (R197 (f), R321), or, on a
platform that follows the wrap of R197 (d), comes back to ASSET and completes. Which of the two, and that the command stays
in `CMDBUF` while it does not end, are the model's choices (log 8). -/
def Obligations.BitmapOffTheEndHangsOrComesBack : Prop :=
  ∀ (x y : Word) (p : BitVec 32) (s : State) (sf : Surface), p ≠ 0 → s.current? = some sf →
    bitmapWord s.cfg p 0 ≠ 0 → bitmapWord s.cfg p 1 ≠ 0 → bitmapWord s.cfg p 3 = 0 →
    s.cfg.assetWords ≤ p.toNat + 4 → p.toNat + 5 < 4294967296 →
      if s.cfg.bitmapWraps = true then
        ∃ sf', exec (.bitmap x y p) s = .next (s.withCurrent sf') ∧ sf.SameBuffer sf' ∧ sf.SameText sf'
      else exec (.bitmap x y p) s = .next s

/-! ### Transport (44_transport.md) -/

/-- R205 to R207: PRESENT appends one frame, all cells in index order, each low byte first, or does nothing where the slot
holds no surface. -/
def Obligations.PresentAppendsAWholeFrame : Prop :=
  ∀ slot : Byte,
    (∀ rest, decode (header 0x30 slot :: rest) = .ok (.present slot, rest)) ∧
    ∀ s : State,
      ((s.cfg.nSurf ≤ slot.toNat ∨ s.surf? slot.toNat = none) → exec (.present slot) s = .next { s with cmdbuf := [] }) ∧
      (∀ sf, slot.toNat < s.cfg.nSurf → s.surf? slot.toNat = some sf →
        ∃ bytes : List Byte,
          exec (.present slot) s = .next { s with tx := s.tx ++ [⟨sf.w, sf.h, bytes⟩], cmdbuf := [] } ∧
          bytes.length = 2 * (sf.w.toNat * sf.h.toNat) ∧
          ∀ i, i < sf.w.toNat * sf.h.toNat →
            bytes[2 * i]? = some (lowByte (sf.cellRead i)) ∧ bytes[2 * i + 1]? = some (highByte (sf.cellRead i)))

/-! ### Key scanner and debounce (45_keyscan.md) -/

/-- R228: the fields of an event word; no event word is 0x0000, the word of nothing. -/
def Obligations.EventWordHasItsFields : Prop :=
  ∀ (press : Bool) (row col : Fin 7),
    (eventWord press row col).getLsbD 15 = true ∧ (eventWord press row col).extractLsb' 9 6 = 0 ∧
    (eventWord press row col).getLsbD 8 = press ∧
    ((eventWord press row col).extractLsb' 4 4).toNat = row.val ∧
    ((eventWord press row col).extractLsb' 0 4).toNat = col.val ∧
    eventWord press row col ≠ 0 ∧ eventOrNothing none = 0

/-- R218 to R221: the scan reports the lowest row line on which a column reads low, and on it the lowest such column, takes
one answer per line visited, and leaves that line selected; with every column high on all seven lines it reports none. -/
def Obligations.ScanReportsTheLowestRowAndColumn : Prop :=
  ∀ (s : State) (rest : List KeySample) (answers : List KeySample), s.matrix = answers ++ rest →
    (∀ r c : Fin 7, answers.length = r.val + 1 →
      (∀ k : Nat, k < r.val → ∀ a, answers[k]? = some a → a.colin = 0x7F) →
      (∀ a, answers[r.val]? = some a →
        a.colin.getLsbD c.val = false ∧ ∀ j : Nat, j < c.val → a.colin.getLsbD j = true) →
        (scan s).1 = some (remap s.cfg r c) ∧
        (scan s).2 = { s with rowsel := selectRow r, matrix := rest, time := (scan s).2.time }) ∧
    (answers.length = 7 → (∀ a ∈ answers, a.colin = 0x7F) →
      (scan s).1 = none ∧ (scan s).2 = { s with rowsel := 0x3F, matrix := rest, time := (scan s).2.time })

/-- R216, R219, R220: with the answers of an ideal matrix in which the physical keys `closed` are closed, the scan reports the
key on the lowest row line, and of those on it the one on the lowest column line; with no key closed it reports none. -/
def Obligations.ScanOfAnIdealMatrixFindsTheLowestKey : Prop :=
  ∀ (s : State) (closed : List (Fin 7 × Fin 7)) (late : Nat) (rest : List KeySample),
    s.matrix = (List.finRange 7).map (fun r => ⟨idealColin closed (selectRow r), late⟩) ++ rest →
      (closed = [] → (scan s).1 = none) ∧
      (∀ r c, (r, c) ∈ closed → (∀ k ∈ closed, r ≤ k.1) → (∀ k ∈ closed, k.1 = r → c ≤ k.2) →
        (scan s).1 = some (remap s.cfg r c))

/-- R223, R224, R226: what a poll does with the answers of its one or two scans. -/
def Obligations.PollFollowsTheDebounceRules : Prop :=
  (∀ s s1, s.db = .idle → scan s = (none, s1) → poll s = (none, s1)) ∧
  (∀ s s1 s2 k, s.db = .idle → scan s = (some k, s1) → rescan s1 = (some k, s2) →
    poll s = (some ⟨true, k⟩, { s2 with db := .pressed k.row k.col s2.time })) ∧
  (∀ s s1 s2 k o, s.db = .idle → scan s = (some k, s1) → rescan s1 = (o, s2) → o ≠ some k → poll s = (none, s2)) ∧
  (∀ s s1 (k : Key) t, s.db = .pressed k.row k.col t → scan s = (some k, s1) → poll s = (none, s1)) ∧
  (∀ s s1 (k k' : Key) t, s.db = .pressed k.row k.col t → scan s = (some k', s1) → k' ≠ k →
    poll s = (some ⟨false, k⟩, { s1 with db := .idle })) ∧
  (∀ s s1 s2 (k : Key) t, s.db = .pressed k.row k.col t → scan s = (none, s1) → rescan s1 = (some k, s2) →
    poll s = (none, s2)) ∧
  (∀ s s1 s2 (k : Key) o t, s.db = .pressed k.row k.col t → scan s = (none, s1) → rescan s1 = (o, s2) → o ≠ some k →
    poll s = (some ⟨false, k⟩, { s2 with db := .idle }))

/-- R226, R39: TIME advances modulo 2^32 and nothing else with it; entering Pressed records TIME of that moment. -/
def Obligations.TimeRunsAndStampsThePress : Prop :=
  (∀ (s : State) (ms : Nat), ∃ t, step (s.taking (.tick ms)) = .next t ∧
    t.time.toNat = (s.time.toNat + ms) % 4294967296 ∧ t = { s with time := t.time }) ∧
  (∀ (s s' : State) (k : Key), poll s = (some ⟨true, k⟩, s') → s.db = .idle ∧ s'.db = .pressed k.row k.col s'.time)

/-- R236: with MULTICORE = 0, POLLKEY is one poll, and answers its event word or 0; it touches no surface, no frame, no queue
and not RESULT1. -/
def Obligations.PollkeyPollsOnTheSingleContextBlock : Prop :=
  ∀ s : State, s.cfg.multicore = false →
    ∃ t, exec .pollkey s = .next t ∧ t.result0 = eventOrNothing (poll s).1 ∧ t.db = (poll s).2.db ∧
      t = { s with
        result0 := t.result0, cmdbuf := [], db := t.db, time := t.time, rowsel := t.rowsel, matrix := t.matrix
        draws := t.draws }

/-- R236, R237, R252, R253: with MULTICORE = 1, POLLKEY and WAITKEY take the oldest event of the queue; with the queue empty
POLLKEY answers 0 and WAITKEY waits, its command staying in progress (log 7). -/
def Obligations.KeyCommandsTakeTheOldestEvent : Prop :=
  (∀ a rest, decode (header 0x40 a :: rest) = .ok (.pollkey, rest) ∧ decode (header 0x41 a :: rest) = .ok (.waitkey, rest)) ∧
  ∀ s : State, s.cfg.multicore = true →
    (∀ ev rest, s.q = ev :: rest →
      exec .pollkey s = .next { s with q := rest, result0 := ev, cmdbuf := [] } ∧
      exec .waitkey s = .next { s with q := rest, result0 := ev, cmdbuf := [] }) ∧
    (s.q = [] → exec .pollkey s = .next { s with result0 := 0, cmdbuf := [] } ∧ exec .waitkey s = .next s)

/-- R227, R237: with MULTICORE = 0, WAITKEY from Pressed is POLLKEY; from Idle it completes with a Press, or goes on polling,
its command staying in progress and `DB` Idle (log 7). -/
def Obligations.WaitkeyPollsUntilAPress : Prop :=
  ∀ s : State, s.cfg.multicore = false →
    (s.db ≠ .idle → ∃ t, exec .waitkey s = .next t ∧ exec .pollkey s = .next t ∧ t.cmdbuf = []) ∧
    (∀ e, s.db = .idle → (poll s).1 = some e →
      ∃ t, exec .waitkey s = .next t ∧ t.cmdbuf = [] ∧ t.result0 = eventWord true e.key.row e.key.col ∧
        t.db.key = some e.key ∧
        t = { s with
          result0 := t.result0, cmdbuf := [], db := t.db, time := t.time, rowsel := t.rowsel, matrix := t.matrix
          draws := t.draws }) ∧
    (s.db = .idle → (poll s).1 = none →
      ∃ t, exec .waitkey s = .next t ∧
        t = { s with time := t.time, rowsel := t.rowsel, matrix := t.matrix, draws := t.draws })

/-! ### Queue and scan engine (46_queue_arb.md) -/

/-- R257 to R259, R251: the scan engine's step in each of its states; a push waits while 32 events are queued. -/
def Obligations.ScanEngineFollowsItsStates : Prop :=
  ∀ s : State, s.cfg.multicore = true →
    (s.se = .off → step (s.taking .scan) = .next { s with se := if s.scanen then .checkArb else .off }) ∧
    (s.se = .checkArb → s.arb = false → step (s.taking .scan) = .next { s with scanact := true, se := .inPoll }) ∧
    (s.se = .checkArb → s.arb = true → step (s.taking .scan) = .next s) ∧
    (∀ s1, s.se = .inPoll → poll s = (none, s1) →
      step (s.taking .scan) = .next { s1 with scanact := false, se := .checkArb, sched := s.sched }) ∧
    (∀ e s1, s.se = .inPoll → poll s = (some e, s1) →
      step (s.taking .scan) = .next { s1 with scanact := false, se := .pushPending e.word, sched := s.sched }) ∧
    (∀ ev, s.se = .pushPending ev → s.q.length < 32 →
      step (s.taking .scan) = .next { s with q := s.q ++ [ev], se := .checkArb }) ∧
    (∀ ev, s.se = .pushPending ev → 32 ≤ s.q.length → step (s.taking .scan) = .next s)

/-! ### Host-visible registers (10_state.md) -/

/-- R28, R73: a read of any offset returns that register and has no side effect; a write of any register but CMD and CTRL, and
of any reserved offset, is ignored; CMD and the reserved offsets read 0. -/
def Obligations.RegisterAccessesHaveOnlyTheirEffects : Prop :=
  ∀ s : State, decode s.cmdbuf = .error .incomplete →
    (∀ offset, step (s.hostDoes (.read offset)) = .next { s with busData := s.readReg offset }) ∧
    (∀ offset v, offset ≠ 0 → offset ≠ 4 → step (s.hostDoes (.write offset v)) = .next s) ∧
    s.readReg 0 = 0 ∧ (∀ offset, 9 ≤ offset → s.readReg offset = 0) ∧
    s.readReg 2 = s.result0 ∧ s.readReg 3 = s.result1

/-- R31: the bits of STATUS. -/
def Obligations.StatusShowsItsBits : Prop :=
  ∀ s : State,
    ((s.readReg 1).getLsbD 0 = (s.cfg.multicore && s.scanact)) ∧
    ((s.readReg 1).getLsbD 1 = true ↔ s.cfg.multicore = true ∧ s.q ≠ []) ∧
    ((s.readReg 1).getLsbD 2 = true ↔ s.cfg.multicore = true ∧ s.q.length = 32) ∧
    ((s.readReg 1).getLsbD 3 = true ↔ s.db ≠ .idle) ∧
    ((s.readReg 1).getLsbD 4 = s.ill) ∧
    ((s.readReg 1).getLsbD 5 = (s.cfg.multicore && s.scanen)) ∧
    ((s.readReg 1).getLsbD 6 = s.cfg.multicore) ∧
    ((s.readReg 1).getLsbD 7 = false) ∧
    highByte (s.readReg 1) = s.cur

/-- R33 to R35: KEYLATCH, KEYTIME and QCOUNT are views of `DB` and `Q`. -/
def Obligations.KeyRegistersAreViews : Prop :=
  ∀ s : State,
    (s.db = .idle → s.readReg 5 = 0 ∧ s.readReg 6 = 0 ∧ s.readReg 7 = 0) ∧
    (∀ row col t, s.db = .pressed row col t →
      (s.readReg 5).getLsbD 15 = true ∧ (s.readReg 5).extractLsb' 8 7 = 0 ∧
      ((s.readReg 5).extractLsb' 4 4).toNat = row.val ∧ ((s.readReg 5).extractLsb' 0 4).toNat = col.val ∧
      s.readReg 6 = t.extractLsb' 0 16 ∧ s.readReg 7 = t.extractLsb' 16 16) ∧
    (s.cfg.multicore = false → s.readReg 8 = 0) ∧
    (s.cfg.multicore = true → s.q.length ≤ 32 → (s.readReg 8).toNat = s.q.length)

/-- R32: a write of CTRL sets `ARB` to bit 0 and, with MULTICORE = 1, sets SCANEN where bit 1 is 1, and changes nothing else;
CTRL reads both back, bits 15:2 as 0. -/
def Obligations.CtrlWriteSetsArbAndStartsTheEngine : Prop :=
  ∀ (s : State) (v : Word), decode s.cmdbuf = .error .incomplete →
    ∃ t, step (s.hostDoes (.write 4 v)) = .next t ∧
      t = { s with arb := v.getLsbD 0, scanen := s.cfg.multicore && (s.scanen || v.getLsbD 1) } ∧
      (t.readReg 4).getLsbD 0 = t.arb ∧ (t.readReg 4).getLsbD 1 = t.scanen ∧ (t.readReg 4).extractLsb' 2 14 = 0
end

