-- ==== Sys2Proof/Laws/Memory.lean ====
section
/-! SUPPORT. The laws of one buffer: a read after a write, and the canonical form that every write keeps. -/

namespace Sys2Proof.Machine

@[simp] theorem Memory.read?_nil (a : Nat) : Memory.read? [] a = none := rfl

theorem Memory.read?_cons (k : Nat) (v : Byte) (t : Memory) (a : Nat) :
    Memory.read? ((k, v) :: t) a = if k = a then some v else Memory.read? t a := rfl

theorem Memory.read?_write (m : Memory) (a b : Nat) (v : Byte) :
    Memory.read? (Memory.write m a v) b = if a = b then some v else Memory.read? m b := by
  induction m with
  | nil => simp [Memory.write, Memory.read?_cons]
  | cons p t ih =>
    obtain ⟨k, u⟩ := p
    simp only [Memory.write]
    split
    · simp only [Memory.read?_cons]
    · split
      · rename_i h; subst h; simp only [Memory.read?_cons]; split <;> simp_all
      · simp only [Memory.read?_cons, ih]; split <;> split <;> simp_all

@[simp] theorem Memory.read?_write_same (m : Memory) (a : Nat) (v : Byte) :
    Memory.read? (Memory.write m a v) a = some v := by simp [Memory.read?_write]

theorem Memory.read?_write_other (m : Memory) {a b : Nat} (v : Byte) (h : a ≠ b) :
    Memory.read? (Memory.write m a v) b = Memory.read? m b := by simp [Memory.read?_write, h]

/-- The addresses listed after a write. -/
theorem Memory.mem_write {m : Memory} {a : Nat} {v : Byte} {p : Host.Cell} (h : p ∈ Memory.write m a v) :
    p.1 = a ∨ p ∈ m := by
  induction m with
  | nil => simp [Memory.write] at h; simp [h]
  | cons q t ih =>
    obtain ⟨k, u⟩ := q
    simp only [Memory.write] at h
    split at h
    · rcases List.mem_cons.1 h with h | h <;> simp_all
    · split at h
      · rcases List.mem_cons.1 h with h | h
        · simp [h]
        · exact .inr (List.mem_cons_of_mem _ h)
      · rcases List.mem_cons.1 h with h | h
        · exact .inr (h ▸ List.mem_cons_self)
        · rcases ih h with h | h
          · exact .inl h
          · exact .inr (List.mem_cons_of_mem _ h)

theorem Memory.wf_nil : Memory.wf [] := List.Pairwise.nil

/-- A write keeps the canonical form. -/
theorem Memory.wf_write {m : Memory} (h : Memory.wf m) (a : Nat) (v : Byte) : Memory.wf (Memory.write m a v) := by
  induction m with
  | nil => simp [Memory.write, Memory.wf]
  | cons p t ih =>
    obtain ⟨k, u⟩ := p
    have ht : Memory.wf t := (List.pairwise_cons.1 h).2
    have hk : ∀ q ∈ t, k < q.1 := (List.pairwise_cons.1 h).1
    simp only [Memory.write]
    split
    · rename_i hlt
      refine List.pairwise_cons.2 ⟨fun q hq => ?_, h⟩
      rcases List.mem_cons.1 hq with rfl | hq
      · exact hlt
      · exact lt_trans hlt (hk q hq)
    · split
      · rename_i heq
        subst heq
        exact List.pairwise_cons.2 ⟨hk, ht⟩
      · rename_i hnlt hne
        refine List.pairwise_cons.2 ⟨fun q hq => ?_, ih ht⟩
        rcases Memory.mem_write hq with hq | hq
        · simp only [hq]; omega
        · exact hk q hq

theorem Memory.read?_eq_none {m : Memory} {a : Nat} (h : ∀ q ∈ m, a < q.1) : Memory.read? m a = none := by
  induction m with
  | nil => rfl
  | cons p t ih =>
    obtain ⟨k, u⟩ := p
    have hk : a < k := h (k, u) List.mem_cons_self
    rw [Memory.read?_cons, if_neg (by omega)]
    exact ih fun q hq => h q (List.mem_cons_of_mem _ hq)

/-- Canonical buffers that list the same bytes are the same data. -/
theorem Memory.ext {m n : Memory} (hm : Memory.wf m) (hn : Memory.wf n)
    (h : ∀ a, Memory.read? m a = Memory.read? n a) : m = n := by
  induction m generalizing n with
  | nil =>
    cases n with
    | nil => rfl
    | cons p t => have := h p.1; obtain ⟨k, u⟩ := p; simp [Memory.read?_cons] at this
  | cons p t ih =>
    obtain ⟨k, u⟩ := p
    have hm1 := (List.pairwise_cons.1 hm).1
    cases n with
    | nil => have := h k; simp [Memory.read?_cons] at this
    | cons q r =>
      obtain ⟨l, v⟩ := q
      have hn1 := (List.pairwise_cons.1 hn).1
      have hkl : k = l := by
        rcases Nat.lt_trichotomy k l with hlt | heq | hgt
        · have h1 := h k
          rw [Memory.read?_cons, if_pos rfl, Memory.read?_cons, if_neg (by omega),
            Memory.read?_eq_none fun x hx => lt_trans hlt (hn1 x hx)] at h1
          simp at h1
        · exact heq
        · have h1 := h l
          rw [Memory.read?_cons, if_neg (by omega), Memory.read?_cons, if_pos rfl,
            Memory.read?_eq_none fun x hx => lt_trans hgt (hm1 x hx)] at h1
          simp at h1
      subst hkl
      have huv : u = v := by have h1 := h k; simpa [Memory.read?_cons] using h1
      subst huv
      congr 1
      refine ih (List.pairwise_cons.1 hm).2 (List.pairwise_cons.1 hn).2 fun a => ?_
      by_cases hak : k = a
      · subst hak
        rw [Memory.read?_eq_none hm1, Memory.read?_eq_none hn1]
      · simpa [Memory.read?_cons, hak] using h a

end Sys2Proof.Machine
end

