-- ==== Sys2Proof/Laws/State.lean ====
section
/-! SUPPORT. What each update of the state does to each field, so that no later proof unfolds a record update. -/

namespace Sys2Proof.Machine.State

variable (s : State)

/-! ### setSlot -/

@[simp] theorem setSlot_cfg (n : Nat) (o : Option Surface) : (s.setSlot n o).cfg = s.cfg := rfl
@[simp] theorem setSlot_surfaces (n : Nat) (o : Option Surface) : (s.setSlot n o).surfaces = s.surfaces.set n o := rfl
@[simp] theorem setSlot_cur (n : Nat) (o : Option Surface) : (s.setSlot n o).cur = s.cur := rfl
@[simp] theorem setSlot_cmdbuf (n : Nat) (o : Option Surface) : (s.setSlot n o).cmdbuf = s.cmdbuf := rfl
@[simp] theorem setSlot_result0 (n : Nat) (o : Option Surface) : (s.setSlot n o).result0 = s.result0 := rfl
@[simp] theorem setSlot_result1 (n : Nat) (o : Option Surface) : (s.setSlot n o).result1 = s.result1 := rfl
@[simp] theorem setSlot_ill (n : Nat) (o : Option Surface) : (s.setSlot n o).ill = s.ill := rfl
@[simp] theorem setSlot_arb (n : Nat) (o : Option Surface) : (s.setSlot n o).arb = s.arb := rfl
@[simp] theorem setSlot_scanen (n : Nat) (o : Option Surface) : (s.setSlot n o).scanen = s.scanen := rfl
@[simp] theorem setSlot_db (n : Nat) (o : Option Surface) : (s.setSlot n o).db = s.db := rfl
@[simp] theorem setSlot_q (n : Nat) (o : Option Surface) : (s.setSlot n o).q = s.q := rfl
@[simp] theorem setSlot_se (n : Nat) (o : Option Surface) : (s.setSlot n o).se = s.se := rfl
@[simp] theorem setSlot_scanact (n : Nat) (o : Option Surface) : (s.setSlot n o).scanact = s.scanact := rfl
@[simp] theorem setSlot_time (n : Nat) (o : Option Surface) : (s.setSlot n o).time = s.time := rfl
@[simp] theorem setSlot_rowsel (n : Nat) (o : Option Surface) : (s.setSlot n o).rowsel = s.rowsel := rfl
@[simp] theorem setSlot_tx (n : Nat) (o : Option Surface) : (s.setSlot n o).tx = s.tx := rfl
@[simp] theorem setSlot_hostOps (n : Nat) (o : Option Surface) : (s.setSlot n o).hostOps = s.hostOps := rfl
@[simp] theorem setSlot_sched (n : Nat) (o : Option Surface) : (s.setSlot n o).sched = s.sched := rfl
@[simp] theorem setSlot_matrix (n : Nat) (o : Option Surface) : (s.setSlot n o).matrix = s.matrix := rfl
@[simp] theorem setSlot_busData (n : Nat) (o : Option Surface) : (s.setSlot n o).busData = s.busData := rfl
@[simp] theorem setSlot_draws (n : Nat) (o : Option Surface) : (s.setSlot n o).draws = s.draws := rfl

/-! ### setR0 -/

@[simp] theorem setR0_cfg (v : Word) : (s.setR0 v).cfg = s.cfg := rfl
@[simp] theorem setR0_surfaces (v : Word) : (s.setR0 v).surfaces = s.surfaces := rfl
@[simp] theorem setR0_cur (v : Word) : (s.setR0 v).cur = s.cur := rfl
@[simp] theorem setR0_cmdbuf (v : Word) : (s.setR0 v).cmdbuf = s.cmdbuf := rfl
@[simp] theorem setR0_result0 (v : Word) : (s.setR0 v).result0 = v := rfl
@[simp] theorem setR0_result1 (v : Word) : (s.setR0 v).result1 = s.result1 := rfl
@[simp] theorem setR0_ill (v : Word) : (s.setR0 v).ill = s.ill := rfl
@[simp] theorem setR0_arb (v : Word) : (s.setR0 v).arb = s.arb := rfl
@[simp] theorem setR0_scanen (v : Word) : (s.setR0 v).scanen = s.scanen := rfl
@[simp] theorem setR0_db (v : Word) : (s.setR0 v).db = s.db := rfl
@[simp] theorem setR0_q (v : Word) : (s.setR0 v).q = s.q := rfl
@[simp] theorem setR0_se (v : Word) : (s.setR0 v).se = s.se := rfl
@[simp] theorem setR0_scanact (v : Word) : (s.setR0 v).scanact = s.scanact := rfl
@[simp] theorem setR0_time (v : Word) : (s.setR0 v).time = s.time := rfl
@[simp] theorem setR0_rowsel (v : Word) : (s.setR0 v).rowsel = s.rowsel := rfl
@[simp] theorem setR0_tx (v : Word) : (s.setR0 v).tx = s.tx := rfl
@[simp] theorem setR0_hostOps (v : Word) : (s.setR0 v).hostOps = s.hostOps := rfl
@[simp] theorem setR0_sched (v : Word) : (s.setR0 v).sched = s.sched := rfl
@[simp] theorem setR0_matrix (v : Word) : (s.setR0 v).matrix = s.matrix := rfl
@[simp] theorem setR0_busData (v : Word) : (s.setR0 v).busData = s.busData := rfl
@[simp] theorem setR0_draws (v : Word) : (s.setR0 v).draws = s.draws := rfl

/-! ### setR1 -/

@[simp] theorem setR1_cfg (v : Word) : (s.setR1 v).cfg = s.cfg := rfl
@[simp] theorem setR1_surfaces (v : Word) : (s.setR1 v).surfaces = s.surfaces := rfl
@[simp] theorem setR1_cur (v : Word) : (s.setR1 v).cur = s.cur := rfl
@[simp] theorem setR1_cmdbuf (v : Word) : (s.setR1 v).cmdbuf = s.cmdbuf := rfl
@[simp] theorem setR1_result0 (v : Word) : (s.setR1 v).result0 = s.result0 := rfl
@[simp] theorem setR1_result1 (v : Word) : (s.setR1 v).result1 = v := rfl
@[simp] theorem setR1_ill (v : Word) : (s.setR1 v).ill = s.ill := rfl
@[simp] theorem setR1_arb (v : Word) : (s.setR1 v).arb = s.arb := rfl
@[simp] theorem setR1_scanen (v : Word) : (s.setR1 v).scanen = s.scanen := rfl
@[simp] theorem setR1_db (v : Word) : (s.setR1 v).db = s.db := rfl
@[simp] theorem setR1_q (v : Word) : (s.setR1 v).q = s.q := rfl
@[simp] theorem setR1_se (v : Word) : (s.setR1 v).se = s.se := rfl
@[simp] theorem setR1_scanact (v : Word) : (s.setR1 v).scanact = s.scanact := rfl
@[simp] theorem setR1_time (v : Word) : (s.setR1 v).time = s.time := rfl
@[simp] theorem setR1_rowsel (v : Word) : (s.setR1 v).rowsel = s.rowsel := rfl
@[simp] theorem setR1_tx (v : Word) : (s.setR1 v).tx = s.tx := rfl
@[simp] theorem setR1_hostOps (v : Word) : (s.setR1 v).hostOps = s.hostOps := rfl
@[simp] theorem setR1_sched (v : Word) : (s.setR1 v).sched = s.sched := rfl
@[simp] theorem setR1_matrix (v : Word) : (s.setR1 v).matrix = s.matrix := rfl
@[simp] theorem setR1_busData (v : Word) : (s.setR1 v).busData = s.busData := rfl
@[simp] theorem setR1_draws (v : Word) : (s.setR1 v).draws = s.draws := rfl

/-! ### retire -/

@[simp] theorem retire_cfg : (s.retire).cfg = s.cfg := rfl
@[simp] theorem retire_surfaces : (s.retire).surfaces = s.surfaces := rfl
@[simp] theorem retire_cur : (s.retire).cur = s.cur := rfl
@[simp] theorem retire_cmdbuf : (s.retire).cmdbuf = [] := rfl
@[simp] theorem retire_result0 : (s.retire).result0 = s.result0 := rfl
@[simp] theorem retire_result1 : (s.retire).result1 = s.result1 := rfl
@[simp] theorem retire_ill : (s.retire).ill = s.ill := rfl
@[simp] theorem retire_arb : (s.retire).arb = s.arb := rfl
@[simp] theorem retire_scanen : (s.retire).scanen = s.scanen := rfl
@[simp] theorem retire_db : (s.retire).db = s.db := rfl
@[simp] theorem retire_q : (s.retire).q = s.q := rfl
@[simp] theorem retire_se : (s.retire).se = s.se := rfl
@[simp] theorem retire_scanact : (s.retire).scanact = s.scanact := rfl
@[simp] theorem retire_time : (s.retire).time = s.time := rfl
@[simp] theorem retire_rowsel : (s.retire).rowsel = s.rowsel := rfl
@[simp] theorem retire_tx : (s.retire).tx = s.tx := rfl
@[simp] theorem retire_hostOps : (s.retire).hostOps = s.hostOps := rfl
@[simp] theorem retire_sched : (s.retire).sched = s.sched := rfl
@[simp] theorem retire_matrix : (s.retire).matrix = s.matrix := rfl
@[simp] theorem retire_busData : (s.retire).busData = s.busData := rfl
@[simp] theorem retire_draws : (s.retire).draws = s.draws := rfl

/-! ### illegalCommand -/

@[simp] theorem illegalCommand_cfg : (s.illegalCommand).cfg = s.cfg := rfl
@[simp] theorem illegalCommand_surfaces : (s.illegalCommand).surfaces = s.surfaces := rfl
@[simp] theorem illegalCommand_cur : (s.illegalCommand).cur = s.cur := rfl
@[simp] theorem illegalCommand_cmdbuf : (s.illegalCommand).cmdbuf = [] := rfl
@[simp] theorem illegalCommand_result0 : (s.illegalCommand).result0 = s.result0 := rfl
@[simp] theorem illegalCommand_result1 : (s.illegalCommand).result1 = s.result1 := rfl
@[simp] theorem illegalCommand_ill : (s.illegalCommand).ill = true := rfl
@[simp] theorem illegalCommand_arb : (s.illegalCommand).arb = s.arb := rfl
@[simp] theorem illegalCommand_scanen : (s.illegalCommand).scanen = s.scanen := rfl
@[simp] theorem illegalCommand_db : (s.illegalCommand).db = s.db := rfl
@[simp] theorem illegalCommand_q : (s.illegalCommand).q = s.q := rfl
@[simp] theorem illegalCommand_se : (s.illegalCommand).se = s.se := rfl
@[simp] theorem illegalCommand_scanact : (s.illegalCommand).scanact = s.scanact := rfl
@[simp] theorem illegalCommand_time : (s.illegalCommand).time = s.time := rfl
@[simp] theorem illegalCommand_rowsel : (s.illegalCommand).rowsel = s.rowsel := rfl
@[simp] theorem illegalCommand_tx : (s.illegalCommand).tx = s.tx := rfl
@[simp] theorem illegalCommand_hostOps : (s.illegalCommand).hostOps = s.hostOps := rfl
@[simp] theorem illegalCommand_sched : (s.illegalCommand).sched = s.sched := rfl
@[simp] theorem illegalCommand_matrix : (s.illegalCommand).matrix = s.matrix := rfl
@[simp] theorem illegalCommand_busData : (s.illegalCommand).busData = s.busData := rfl
@[simp] theorem illegalCommand_draws : (s.illegalCommand).draws = s.draws := rfl

/-! ### push -/

@[simp] theorem push_cfg (ev : Word) : (s.push ev).cfg = s.cfg := rfl
@[simp] theorem push_surfaces (ev : Word) : (s.push ev).surfaces = s.surfaces := rfl
@[simp] theorem push_cur (ev : Word) : (s.push ev).cur = s.cur := rfl
@[simp] theorem push_cmdbuf (ev : Word) : (s.push ev).cmdbuf = s.cmdbuf := rfl
@[simp] theorem push_result0 (ev : Word) : (s.push ev).result0 = s.result0 := rfl
@[simp] theorem push_result1 (ev : Word) : (s.push ev).result1 = s.result1 := rfl
@[simp] theorem push_ill (ev : Word) : (s.push ev).ill = s.ill := rfl
@[simp] theorem push_arb (ev : Word) : (s.push ev).arb = s.arb := rfl
@[simp] theorem push_scanen (ev : Word) : (s.push ev).scanen = s.scanen := rfl
@[simp] theorem push_db (ev : Word) : (s.push ev).db = s.db := rfl
@[simp] theorem push_q (ev : Word) : (s.push ev).q = s.q ++ [ev] := rfl
@[simp] theorem push_se (ev : Word) : (s.push ev).se = s.se := rfl
@[simp] theorem push_scanact (ev : Word) : (s.push ev).scanact = s.scanact := rfl
@[simp] theorem push_time (ev : Word) : (s.push ev).time = s.time := rfl
@[simp] theorem push_rowsel (ev : Word) : (s.push ev).rowsel = s.rowsel := rfl
@[simp] theorem push_tx (ev : Word) : (s.push ev).tx = s.tx := rfl
@[simp] theorem push_hostOps (ev : Word) : (s.push ev).hostOps = s.hostOps := rfl
@[simp] theorem push_sched (ev : Word) : (s.push ev).sched = s.sched := rfl
@[simp] theorem push_matrix (ev : Word) : (s.push ev).matrix = s.matrix := rfl
@[simp] theorem push_busData (ev : Word) : (s.push ev).busData = s.busData := rfl
@[simp] theorem push_draws (ev : Word) : (s.push ev).draws = s.draws := rfl

/-! ### elapse -/

@[simp] theorem elapse_cfg (ms : Nat) : (s.elapse ms).cfg = s.cfg := rfl
@[simp] theorem elapse_surfaces (ms : Nat) : (s.elapse ms).surfaces = s.surfaces := rfl
@[simp] theorem elapse_cur (ms : Nat) : (s.elapse ms).cur = s.cur := rfl
@[simp] theorem elapse_cmdbuf (ms : Nat) : (s.elapse ms).cmdbuf = s.cmdbuf := rfl
@[simp] theorem elapse_result0 (ms : Nat) : (s.elapse ms).result0 = s.result0 := rfl
@[simp] theorem elapse_result1 (ms : Nat) : (s.elapse ms).result1 = s.result1 := rfl
@[simp] theorem elapse_ill (ms : Nat) : (s.elapse ms).ill = s.ill := rfl
@[simp] theorem elapse_arb (ms : Nat) : (s.elapse ms).arb = s.arb := rfl
@[simp] theorem elapse_scanen (ms : Nat) : (s.elapse ms).scanen = s.scanen := rfl
@[simp] theorem elapse_db (ms : Nat) : (s.elapse ms).db = s.db := rfl
@[simp] theorem elapse_q (ms : Nat) : (s.elapse ms).q = s.q := rfl
@[simp] theorem elapse_se (ms : Nat) : (s.elapse ms).se = s.se := rfl
@[simp] theorem elapse_scanact (ms : Nat) : (s.elapse ms).scanact = s.scanact := rfl
@[simp] theorem elapse_time (ms : Nat) : (s.elapse ms).time = s.time + BitVec.ofNat 32 ms := rfl
@[simp] theorem elapse_rowsel (ms : Nat) : (s.elapse ms).rowsel = s.rowsel := rfl
@[simp] theorem elapse_tx (ms : Nat) : (s.elapse ms).tx = s.tx := rfl
@[simp] theorem elapse_hostOps (ms : Nat) : (s.elapse ms).hostOps = s.hostOps := rfl
@[simp] theorem elapse_sched (ms : Nat) : (s.elapse ms).sched = s.sched := rfl
@[simp] theorem elapse_matrix (ms : Nat) : (s.elapse ms).matrix = s.matrix := rfl
@[simp] theorem elapse_busData (ms : Nat) : (s.elapse ms).busData = s.busData := rfl
@[simp] theorem elapse_draws (ms : Nat) : (s.elapse ms).draws = s.draws := rfl

/-! ### wait -/

@[simp] theorem wait_cfg (us : Nat) : (s.wait us).cfg = s.cfg := rfl
@[simp] theorem wait_surfaces (us : Nat) : (s.wait us).surfaces = s.surfaces := rfl
@[simp] theorem wait_cur (us : Nat) : (s.wait us).cur = s.cur := rfl
@[simp] theorem wait_cmdbuf (us : Nat) : (s.wait us).cmdbuf = s.cmdbuf := rfl
@[simp] theorem wait_result0 (us : Nat) : (s.wait us).result0 = s.result0 := rfl
@[simp] theorem wait_result1 (us : Nat) : (s.wait us).result1 = s.result1 := rfl
@[simp] theorem wait_ill (us : Nat) : (s.wait us).ill = s.ill := rfl
@[simp] theorem wait_arb (us : Nat) : (s.wait us).arb = s.arb := rfl
@[simp] theorem wait_scanen (us : Nat) : (s.wait us).scanen = s.scanen := rfl
@[simp] theorem wait_db (us : Nat) : (s.wait us).db = s.db := rfl
@[simp] theorem wait_q (us : Nat) : (s.wait us).q = s.q := rfl
@[simp] theorem wait_se (us : Nat) : (s.wait us).se = s.se := rfl
@[simp] theorem wait_scanact (us : Nat) : (s.wait us).scanact = s.scanact := rfl
@[simp] theorem wait_time (us : Nat) : (s.wait us).time = s.time + BitVec.ofNat 32 (us / 1000) := rfl
@[simp] theorem wait_rowsel (us : Nat) : (s.wait us).rowsel = s.rowsel := rfl
@[simp] theorem wait_tx (us : Nat) : (s.wait us).tx = s.tx := rfl
@[simp] theorem wait_hostOps (us : Nat) : (s.wait us).hostOps = s.hostOps := rfl
@[simp] theorem wait_sched (us : Nat) : (s.wait us).sched = s.sched := rfl
@[simp] theorem wait_matrix (us : Nat) : (s.wait us).matrix = s.matrix := rfl
@[simp] theorem wait_busData (us : Nat) : (s.wait us).busData = s.busData := rfl
@[simp] theorem wait_draws (us : Nat) : (s.wait us).draws = s.draws := rfl

/-! ### writeCtrl -/

@[simp] theorem writeCtrl_cfg (v : Word) : (s.writeCtrl v).cfg = s.cfg := rfl
@[simp] theorem writeCtrl_surfaces (v : Word) : (s.writeCtrl v).surfaces = s.surfaces := rfl
@[simp] theorem writeCtrl_cur (v : Word) : (s.writeCtrl v).cur = s.cur := rfl
@[simp] theorem writeCtrl_cmdbuf (v : Word) : (s.writeCtrl v).cmdbuf = s.cmdbuf := rfl
@[simp] theorem writeCtrl_result0 (v : Word) : (s.writeCtrl v).result0 = s.result0 := rfl
@[simp] theorem writeCtrl_result1 (v : Word) : (s.writeCtrl v).result1 = s.result1 := rfl
@[simp] theorem writeCtrl_ill (v : Word) : (s.writeCtrl v).ill = s.ill := rfl
@[simp] theorem writeCtrl_arb (v : Word) : (s.writeCtrl v).arb = v.getLsbD 0 := rfl
@[simp] theorem writeCtrl_scanen (v : Word) : (s.writeCtrl v).scanen = (s.cfg.multicore && (s.scanen || v.getLsbD 1)) := rfl
@[simp] theorem writeCtrl_db (v : Word) : (s.writeCtrl v).db = s.db := rfl
@[simp] theorem writeCtrl_q (v : Word) : (s.writeCtrl v).q = s.q := rfl
@[simp] theorem writeCtrl_se (v : Word) : (s.writeCtrl v).se = s.se := rfl
@[simp] theorem writeCtrl_scanact (v : Word) : (s.writeCtrl v).scanact = s.scanact := rfl
@[simp] theorem writeCtrl_time (v : Word) : (s.writeCtrl v).time = s.time := rfl
@[simp] theorem writeCtrl_rowsel (v : Word) : (s.writeCtrl v).rowsel = s.rowsel := rfl
@[simp] theorem writeCtrl_tx (v : Word) : (s.writeCtrl v).tx = s.tx := rfl
@[simp] theorem writeCtrl_hostOps (v : Word) : (s.writeCtrl v).hostOps = s.hostOps := rfl
@[simp] theorem writeCtrl_sched (v : Word) : (s.writeCtrl v).sched = s.sched := rfl
@[simp] theorem writeCtrl_matrix (v : Word) : (s.writeCtrl v).matrix = s.matrix := rfl
@[simp] theorem writeCtrl_busData (v : Word) : (s.writeCtrl v).busData = s.busData := rfl
@[simp] theorem writeCtrl_draws (v : Word) : (s.writeCtrl v).draws = s.draws := rfl

end Sys2Proof.Machine.State
end

