-- ==== Sys2Proof/Laws/Surface.lean ====
section
/-! SUPPORT. What the operations on one surface do: the byte swap, a cell read after a cell write, `drawPixel`, and a loop of
`drawPixel`s. -/

namespace Sys2Proof.Machine

@[simp] theorem lowByte_ofBytes (hi lo : Byte) : lowByte (ofBytes hi lo) = lo := by
  apply BitVec.eq_of_getLsbD_eq
  intro i h
  simp only [lowByte, ofBytes, BitVec.getLsbD_extractLsb', BitVec.getLsbD_append]
  simp [h]

@[simp] theorem highByte_ofBytes (hi lo : Byte) : highByte (ofBytes hi lo) = hi := by
  apply BitVec.eq_of_getLsbD_eq
  intro i h
  simp only [highByte, ofBytes, BitVec.getLsbD_extractLsb', BitVec.getLsbD_append]
  simp [h]

@[simp] theorem ofBytes_bytes (v : Word) : ofBytes (highByte v) (lowByte v) = v := by
  apply BitVec.eq_of_getLsbD_eq
  intro i h
  simp only [ofBytes, highByte, lowByte, BitVec.getLsbD_append, BitVec.getLsbD_extractLsb']
  by_cases hi : i < 8
  · simp [hi]
  · have h8 : i - 8 < 8 := by omega
    have h9 : 8 + (i - 8) = i := by omega
    simp [hi, h8, h9]

/-- The byte swap is its own inverse (00_scope.md R7). -/
@[simp] theorem bswap16_bswap16 (v : Word) : bswap16 (bswap16 v) = v := by simp [bswap16]

namespace Surface

variable (sf : Surface)

@[simp] theorem cellWrite_w (i : Nat) (v : Word) : (sf.cellWrite i v).w = sf.w := rfl
@[simp] theorem cellWrite_h (i : Nat) (v : Word) : (sf.cellWrite i v).h = sf.h := rfl
@[simp] theorem cellWrite_cx (i : Nat) (v : Word) : (sf.cellWrite i v).cx = sf.cx := rfl
@[simp] theorem cellWrite_cy (i : Nat) (v : Word) : (sf.cellWrite i v).cy = sf.cy := rfl
@[simp] theorem cellWrite_fg (i : Nat) (v : Word) : (sf.cellWrite i v).fg = sf.fg := rfl
@[simp] theorem cellWrite_font (i : Nat) (v : Word) : (sf.cellWrite i v).font = sf.font := rfl
@[simp] theorem cellWrite_gen (i : Nat) (v : Word) : (sf.cellWrite i v).gen = sf.gen := rfl
@[simp] theorem cellWrite_inside (i : Nat) (v : Word) (x y : Nat) :
    (sf.cellWrite i v).inside x y = sf.inside x y := rfl
@[simp] theorem cellWrite_index (i : Nat) (v : Word) (x y : Nat) : (sf.cellWrite i v).index x y = sf.index x y := rfl
@[simp] theorem cellWrite_cells (i : Nat) (v : Word) : (sf.cellWrite i v).cells = sf.cells := rfl

theorem inside_iff {x y : Nat} : sf.inside x y = true ↔ x < sf.w.toNat ∧ y < sf.h.toNat := by simp [inside]

/-- A pixel inside the surface has a cell of its buffer. -/
theorem index_lt_cells {x y : Nat} (h : sf.inside x y = true) : sf.index x y < sf.cells := by
  obtain ⟨hx, hy⟩ := (sf.inside_iff).1 h
  have : (y + 1) * sf.w.toNat ≤ sf.h.toNat * sf.w.toNat := Nat.mul_le_mul_right _ hy
  have h2 : sf.w.toNat * sf.h.toNat = sf.h.toNat * sf.w.toNat := Nat.mul_comm ..
  have h3 : (y + 1) * sf.w.toNat = y * sf.w.toNat + sf.w.toNat := by ring
  simp only [index, cells]
  omega

/-- Different pixels inside the surface have different cells (20_memory.md R62). -/
theorem index_inj {x y x' y' : Nat} (h : sf.inside x y = true) (h' : sf.inside x' y' = true)
    (he : sf.index x y = sf.index x' y') : x = x' ∧ y = y' := by
  obtain ⟨hx, -⟩ := (sf.inside_iff).1 h
  obtain ⟨hx', -⟩ := (sf.inside_iff).1 h'
  simp only [index] at he
  have hw : 0 < sf.w.toNat := by omega
  have hd : (y * sf.w.toNat + x) / sf.w.toNat = (y' * sf.w.toNat + x') / sf.w.toNat := by rw [he]
  rw [Nat.mul_comm y, Nat.mul_comm y', Nat.mul_add_div hw, Nat.mul_add_div hw, Nat.div_eq_of_lt hx,
    Nat.div_eq_of_lt hx'] at hd
  have hy : y = y' := by omega
  subst hy
  exact ⟨by omega, rfl⟩

/-- Every cell of the buffer is that of a pixel inside the surface. -/
theorem exists_pixel {i : Nat} (h : i < sf.cells) : ∃ x y, sf.inside x y = true ∧ sf.index x y = i := by
  have hw : 0 < sf.w.toNat := by
    rcases Nat.eq_zero_or_pos sf.w.toNat with h0 | h0
    · simp [cells, h0] at h
    · exact h0
  refine ⟨i % sf.w.toNat, i / sf.w.toNat, (sf.inside_iff).2 ⟨Nat.mod_lt _ hw, ?_⟩, ?_⟩
  · exact Nat.div_lt_of_lt_mul h
  · simp only [index]; rw [Nat.mul_comm]; exact Nat.div_add_mod i _

/-- One byte after a cell write (20_memory.md R64, R71). -/
theorem byteAt_cellWrite (i : Nat) (v : Word) (a : Nat) :
    (sf.cellWrite i v).byteAt a =
      if a = 2 * i then lowByte v else if a = 2 * i + 1 then highByte v else sf.byteAt a := by
  simp only [byteAt, cellWrite, Memory.read?_write]
  by_cases h1 : 2 * i + 1 = a
  · subst h1
    rw [if_pos rfl, if_neg (by omega), if_pos rfl]
    rfl
  · rw [if_neg h1]
    by_cases h0 : 2 * i = a
    · subst h0
      rw [if_pos rfl, if_pos rfl]
      rfl
    · rw [if_neg h0, if_neg (Ne.symm h0), if_neg (Ne.symm h1)]

theorem byteAt_cellWrite_other {i : Nat} (v : Word) {a : Nat} (h : a / 2 ≠ i) :
    (sf.cellWrite i v).byteAt a = sf.byteAt a := by
  rw [byteAt_cellWrite, if_neg (by omega), if_neg (by omega)]

/-- A cell after a cell write. -/
theorem cellRead_cellWrite (i : Nat) (v : Word) (j : Nat) :
    (sf.cellWrite i v).cellRead j = if i = j then v else sf.cellRead j := by
  simp only [cellRead, byteAt_cellWrite]
  by_cases h : i = j
  · subst h
    simp
  · rw [if_neg (by omega), if_neg (by omega), if_neg (by omega), if_neg (by omega), if_neg h]

@[simp] theorem cellRead_cellWrite_same (i : Nat) (v : Word) : (sf.cellWrite i v).cellRead i = v := by
  simp [cellRead_cellWrite]

/-- Equal bytes give equal cells. -/
theorem cellRead_congr {sf sf' : Surface} {i : Nat} (h : ∀ a, a / 2 = i → sf'.byteAt a = sf.byteAt a) :
    sf'.cellRead i = sf.cellRead i := by
  simp only [cellRead]
  rw [h (2 * i + 1) (by omega), h (2 * i) (by omega)]

/-- A cell write keeps a surface sound. -/
theorem Sound.cellWrite {cfg : Config} {sf : Surface} (h : sf.Sound cfg) {i : Nat} (hi : i < sf.cells) (v : Word) :
    (sf.cellWrite i v).Sound cfg where
  wf := Memory.wf_write (Memory.wf_write h.wf _ _) _ _
  bytes := by
    intro p hp
    rcases Memory.mem_write hp with hp | hp
    · rw [cellWrite_cells, hp]; omega
    · rcases Memory.mem_write hp with hp | hp
      · rw [cellWrite_cells, hp]; omega
      · exact h.bytes p hp
  font := h.font

/-! ### drawPixel -/

@[simp] theorem drawPixel_w (x y : Nat) (c : Word) : (sf.drawPixel x y c).w = sf.w := by unfold drawPixel; split <;> rfl
@[simp] theorem drawPixel_h (x y : Nat) (c : Word) : (sf.drawPixel x y c).h = sf.h := by unfold drawPixel; split <;> rfl
@[simp] theorem drawPixel_cx (x y : Nat) (c : Word) : (sf.drawPixel x y c).cx = sf.cx := by unfold drawPixel; split <;> rfl
@[simp] theorem drawPixel_cy (x y : Nat) (c : Word) : (sf.drawPixel x y c).cy = sf.cy := by unfold drawPixel; split <;> rfl
@[simp] theorem drawPixel_fg (x y : Nat) (c : Word) : (sf.drawPixel x y c).fg = sf.fg := by unfold drawPixel; split <;> rfl
@[simp] theorem drawPixel_font (x y : Nat) (c : Word) : (sf.drawPixel x y c).font = sf.font := by
  unfold drawPixel; split <;> rfl
@[simp] theorem drawPixel_gen (x y : Nat) (c : Word) : (sf.drawPixel x y c).gen = sf.gen := by
  unfold drawPixel; split <;> rfl
@[simp] theorem drawPixel_inside (x y : Nat) (c : Word) (px py : Nat) :
    (sf.drawPixel x y c).inside px py = sf.inside px py := by simp [inside]
@[simp] theorem drawPixel_index (x y : Nat) (c : Word) (px py : Nat) :
    (sf.drawPixel x y c).index px py = sf.index px py := by simp [index]
@[simp] theorem drawPixel_cells (x y : Nat) (c : Word) : (sf.drawPixel x y c).cells = sf.cells := by simp [cells]

theorem drawPixel_outside {x y : Nat} (h : sf.inside x y = false) (c : Word) : sf.drawPixel x y c = sf := by
  simp [drawPixel, h]

theorem drawPixel_inside_eq {x y : Nat} (h : sf.inside x y = true) (c : Word) :
    sf.drawPixel x y c = sf.cellWrite (sf.index x y) (bswap16 c) := by simp [drawPixel, h]

theorem Sound.drawPixel {cfg : Config} {sf : Surface} (h : sf.Sound cfg) (x y : Nat) (c : Word) :
    (sf.drawPixel x y c).Sound cfg := by
  unfold Surface.drawPixel
  split
  · rename_i hin; exact h.cellWrite (sf.index_lt_cells hin) _
  · exact h

/-! ### A painted surface -/

theorem SameBuffer.inside {sf sf' : Surface} (h : sf.SameBuffer sf') (x y : Nat) : sf'.inside x y = sf.inside x y := by
  simp [Surface.inside, h.1, h.2.1]

theorem SameBuffer.index {sf sf' : Surface} (h : sf.SameBuffer sf') (x y : Nat) : sf'.index x y = sf.index x y := by
  simp [Surface.index, h.1]

/-- A cell of a pixel that was not painted reads as before. -/
theorem Paints.cell_unchanged {sf sf' : Surface} {drawn : Nat → Nat → Prop} {value : Nat → Nat → Word}
    (h : sf.Paints sf' drawn value) {x y : Nat} (hin : sf.inside x y = true) (hd : ¬ drawn x y) :
    sf'.cellRead (sf.index x y) = sf.cellRead (sf.index x y) := by
  refine cellRead_congr fun a ha => h.others a fun px py hpin hpd heq => hd ?_
  obtain ⟨rfl, rfl⟩ := sf.index_inj hpin hin (heq.trans ha)
  exact hpd

/-- `drawPixel` paints its one pixel. -/
theorem drawPixel_paints (x y : Nat) (c : Word) :
    sf.Paints (sf.drawPixel x y c) (fun px py => px = x ∧ py = y) (fun _ _ => bswap16 c) where
  buffer := by simp [SameBuffer]
  painted := by
    rintro px py hin ⟨rfl, rfl⟩
    simp [drawPixel, hin]
  others := by
    intro a ha
    unfold drawPixel
    split
    · rename_i hin
      exact sf.byteAt_cellWrite_other _ (Ne.symm (ha x y hin ⟨rfl, rfl⟩))
    · rfl

/-- A loop of `drawPixel`s keeps everything but the buffer. -/
theorem drawAll_fields (l : List (Nat × Nat)) (c : Word) :
    sf.SameBuffer (sf.drawAll l c) ∧ sf.SameText (sf.drawAll l c) := by
  induction l generalizing sf with
  | nil => simp [drawAll, SameBuffer, SameText]
  | cons p t ih =>
    have := ih (sf.drawPixel p.1 p.2 c)
    simpa [drawAll, SameBuffer, SameText] using this

theorem Sound.drawAll {cfg : Config} {sf : Surface} (h : sf.Sound cfg) (l : List (Nat × Nat)) (c : Word) :
    (sf.drawAll l c).Sound cfg := by
  induction l generalizing sf with
  | nil => exact h
  | cons p t ih => exact ih (h.drawPixel p.1 p.2 c)

/-- A loop of `drawPixel`s in one colour paints the pixels of its list. -/
theorem drawAll_paints (l : List (Nat × Nat)) (c : Word) :
    sf.Paints (sf.drawAll l c) (fun x y => (x, y) ∈ l) (fun _ _ => bswap16 c) := by
  induction l generalizing sf with
  | nil =>
    exact ⟨by simp [drawAll, SameBuffer], by simp, fun a _ => rfl⟩
  | cons p t ih =>
    have hp := sf.drawPixel_paints p.1 p.2 c
    have ht := ih (sf.drawPixel p.1 p.2 c)
    have hfold : sf.drawAll (p :: t) c = (sf.drawPixel p.1 p.2 c).drawAll t c := rfl
    refine ⟨by rw [hfold]; exact ⟨ht.buffer.1.trans hp.buffer.1, ht.buffer.2.1.trans hp.buffer.2.1,
      ht.buffer.2.2.trans hp.buffer.2.2⟩, ?_, ?_⟩
    · intro x y hin hmem
      rw [hfold]
      by_cases hxt : (x, y) ∈ t
      · have := ht.painted x y (by simpa using hin) hxt
        simpa using this
      · have h1 := ht.cell_unchanged (x := x) (y := y) (by simpa using hin) hxt
        rw [drawPixel_index] at h1
        rw [h1]
        rcases List.mem_cons.1 hmem with h2 | h2
        · exact hp.painted x y hin ⟨congrArg Prod.fst h2, congrArg Prod.snd h2⟩
        · exact absurd h2 hxt
    · intro a ha
      rw [hfold]
      rw [ht.others a fun x y hin hmem => by
        rw [drawPixel_index]; exact ha x y (by simpa using hin) (List.mem_cons_of_mem _ hmem)]
      exact hp.others a fun x y hin hd => ha x y hin (by
        obtain ⟨rfl, rfl⟩ := hd; exact List.mem_cons_self)

end Surface

end Sys2Proof.Machine
end

