-- ==== Sys2Proof/Laws/Table.lean ====
section
/-! SUPPORT. The surface table: a slot read after a slot write, and what a command on the current surface answers. -/

namespace Sys2Proof.Machine.State

variable (s : State)

theorem surf?_eq_some {n : Nat} {sf : Surface} : s.surf? n = some sf ↔ s.surfaces[n]? = some (some sf) := by
  unfold surf?
  split <;> simp_all

/-- A slot that holds a surface lies in the table. -/
theorem lt_of_surf? {n : Nat} {sf : Surface} (h : s.surf? n = some sf) : n < s.surfaces.length := by
  rw [surf?_eq_some] at h
  exact (List.getElem?_eq_some_iff.1 h).1

theorem surf?_setSlot_same {n : Nat} (h : n < s.surfaces.length) (o : Option Surface) : (s.setSlot n o).surf? n = o := by
  unfold surf?
  rw [setSlot_surfaces, List.getElem?_set_self h]
  cases o <;> rfl

theorem surf?_setSlot_other {n m : Nat} (h : n ≠ m) (o : Option Surface) : (s.setSlot n o).surf? m = s.surf? m := by
  unfold surf?
  rw [setSlot_surfaces, List.getElem?_set_ne h]

/-- The table decides what a slot holds. -/
theorem surf?_congr {s t : State} (h : t.surfaces = s.surfaces) (n : Nat) : t.surf? n = s.surf? n := by
  unfold surf?; rw [h]

@[simp] theorem surf?_retire (n : Nat) : s.retire.surf? n = s.surf? n := rfl
@[simp] theorem surf?_setR0 (v : Word) (n : Nat) : (s.setR0 v).surf? n = s.surf? n := rfl
@[simp] theorem surf?_setR1 (v : Word) (n : Nat) : (s.setR1 v).surf? n = s.surf? n := rfl

/-- Writing back what a slot holds changes nothing. -/
theorem setSlot_self {n : Nat} {sf : Surface} (h : s.surf? n = some sf) : s.setSlot n (some sf) = s := by
  have h1 := (List.getElem?_eq_some_iff.1 ((s.surf?_eq_some).1 h))
  obtain ⟨hlt, heq⟩ := h1
  have : s.surfaces.set n (some sf) = s.surfaces := by rw [← heq]; exact List.set_getElem_self hlt
  unfold setSlot
  rw [this]

/-- What a command on the current surface answers: the next state, or the fault that no reachable state raises. -/
theorem onCurrent_cases (act : Surface → Surface) :
    (∃ sf, s.current? = some sf ∧ s.onCurrent act = .next (s.withCurrent (act sf))) ∨
    (s.current? = none ∧ s.onCurrent act = .fault .noCurrentSurface) := by
  unfold onCurrent
  cases h : s.current? with
  | none => exact .inr ⟨rfl, rfl⟩
  | some sf => exact .inl ⟨sf, rfl, rfl⟩

/-- A command on the current surface, where there is one. -/
theorem onCurrent_some {sf : Surface} (h : s.current? = some sf) (act : Surface → Surface) :
    s.onCurrent act = .next (s.withCurrent (act sf)) := by
  unfold onCurrent; rw [h]; rfl

theorem withCurrent_self {sf : Surface} (h : s.current? = some sf) : s.withCurrent sf = { s with cmdbuf := [] } := by
  have := s.setSlot_self h
  unfold setSlot at this
  unfold withCurrent
  rw [← this]
  simp

theorem lt_of_current? {sf : Surface} (h : s.current? = some sf) : s.cur.toNat < s.surfaces.length := s.lt_of_surf? h

theorem withCurrent_current? {sf : Surface} (h : s.current? = some sf) (sf' : Surface) :
    (s.withCurrent sf').current? = some sf' := s.surf?_setSlot_same (s.lt_of_current? h) (some sf')

theorem withCurrent_surf?_other {n : Nat} (h : n ≠ s.cur.toNat) (sf' : Surface) :
    (s.withCurrent sf').surf? n = s.surf? n := s.surf?_setSlot_other (Ne.symm h) (some sf')

end Sys2Proof.Machine.State
end

