-- ==== Sys2Proof/Laws/Bitmap.lean ====
section
/-! SUPPORT. BITMAP's three outcomes, what its decoding leaves alone, and where it ends. -/

namespace Sys2Proof.Machine

/-- BITMAP on the current surface: the bitmap drawn, and the command completed where the decoding ends. -/
theorem execBitmap_some {p : BitVec 32} (hp : p ≠ 0) (x y : Word) {s : State} {sf : Surface} (h : s.current? = some sf) :
    execBitmap x y p s =
      .next (if (drawBitmap s.cfg x.toNat y.toNat p sf).1 then s.withCurrent (drawBitmap s.cfg x.toNat y.toNat p sf).2
        else { s.withCurrent (drawBitmap s.cfg x.toNat y.toNat p sf).2 with cmdbuf := s.cmdbuf }) := by
  simp only [execBitmap, if_neg hp, h]
  generalize drawBitmap s.cfg x.toNat y.toNat p sf = r
  rfl

/-- Every way BITMAP can answer. -/
theorem execBitmap_cases (x y : Word) (p : BitVec 32) (s : State) :
    (p = 0 ∧ execBitmap x y p s = .next s.retire) ∨
    (p ≠ 0 ∧ s.current? = none ∧ execBitmap x y p s = .fault .noCurrentSurface) ∨
    ∃ sf r, p ≠ 0 ∧ s.current? = some sf ∧ r = drawBitmap s.cfg x.toNat y.toNat p sf ∧
      (r.1 = true ∧ execBitmap x y p s = .next (s.withCurrent r.2) ∨
        r.1 = false ∧ execBitmap x y p s = .next { s.withCurrent r.2 with cmdbuf := s.cmdbuf }) := by
  by_cases hp : p = 0
  · exact .inl ⟨hp, by simp [execBitmap, hp]⟩
  · cases h : s.current? with
    | none => exact .inr (.inl ⟨hp, rfl, by simp only [execBitmap, if_neg hp, h]⟩)
    | some sf =>
      refine .inr (.inr ⟨sf, _, hp, rfl, rfl, ?_⟩)
      rw [execBitmap_some hp x y h]
      generalize drawBitmap s.cfg x.toNat y.toNat p sf = r
      cases hr : r.1
      · exact .inr ⟨rfl, by simp⟩
      · exact .inl ⟨rfl, by simp⟩

/-- A property of surfaces that `drawPixel` within column `b.x0 + x` keeps is kept by the decoding of that column. -/
theorem bitmapColumn_keeps (P : Surface → Prop) (cfg : Config) (b : BitmapHeader) (x : Nat)
    (hP : ∀ sf y c, P sf → P (sf.drawPixel (b.x0 + x) y c)) (fuel y index : Nat) (sf : Surface) (h : P sf) :
    P (bitmapColumn cfg b x fuel y index sf).2.2 := by
  have run : ∀ (l : List Nat) (y : Nat) (c : Word) (sf : Surface), P sf →
      P (sf.drawAll (l.map fun i => (b.x0 + x, y + i)) c) := by
    intro l y c
    induction l with
    | nil => exact fun sf h => h
    | cons i t ih => exact fun sf h => ih _ (hP sf (y + i) c h)
  induction fuel generalizing y index sf with
  | zero => exact h
  | succ n ih =>
    unfold bitmapColumn
    dsimp only
    split
    · exact h
    · split
      · split
        · exact h
        · split
          · exact ih _ _ _ h
          · refine ih _ _ _ ?_
            split
            · exact h
            · exact run _ _ _ _ h
      · refine ih _ _ _ ?_
        split
        · exact h
        · exact hP _ _ _ h

/-- A property that `drawPixel` within the bitmap's columns keeps is kept by the whole decoding. -/
theorem bitmapColumns_keeps (P : Surface → Prop) (cfg : Config) (b : BitmapHeader) (n x index : Nat) (sf : Surface)
    (hP : ∀ sf k y c, x ≤ k → k < x + n → P sf → P (sf.drawPixel (b.x0 + k) y c)) (h : P sf) :
    P (bitmapColumns cfg b n x index sf).2 := by
  induction n generalizing x index sf with
  | zero => exact h
  | succ n ih =>
    have hc := bitmapColumn_keeps P cfg b x (fun t y c ht => hP t x y c le_rfl (by omega) ht) (columnFuel cfg b) 0 index sf h
    unfold bitmapColumns
    split
    · rename_i nxt drawn heq
      rw [heq] at hc
      exact ih (x + 1) nxt drawn (fun t k y c hk hk' ht => hP t k y c (by omega) (by omega) ht) hc
    · rename_i nxt drawn heq
      rw [heq] at hc
      exact hc

/-- A property that `drawPixel` keeps is kept by a bitmap. -/
theorem drawBitmap_keeps (P : Surface → Prop) (cfg : Config) (x0 y0 : Nat) (p : BitVec 32) (sf : Surface)
    (hP : ∀ sf k y c, k < (bitmapWord cfg p 0).toNat → P sf → P (sf.drawPixel (x0 + k) y c)) (h : P sf) :
    P (drawBitmap cfg x0 y0 p sf).2 :=
  bitmapColumns_keeps P cfg (bitmapHeader cfg x0 y0 p) _ 0 4 sf
    (fun t k y c _ hk ht => hP t k y c (by simpa [bitmapHeader] using hk) ht) h

/-! ### Where the decoding ends (log 8) -/

/-- The item at word `i` is an empty run (43_bitmap.md R197 (b)). -/
def EmptyRun (cfg : Config) (b : BitmapHeader) (i : Nat) : Prop :=
  bitmapWord cfg b.p i = b.marker ∧ bitmapWord cfg b.p (i + 1) = 0

/-- What is passed over beyond the end of ASSET is empty runs, item by item. -/
theorem emptyRuns_spec {cfg : Config} {b : BitmapHeader} {index j : Nat} (h : j < emptyRuns cfg b index) :
    EmptyRun cfg b (index + 3 * j) := by
  simp only [emptyRuns] at h
  split at h
  · rename_i hb
    have off : ∀ i, cfg.assetWords ≤ (b.p.toNat + i) % 4294967296 → bitmapWord cfg b.p i = 0 :=
      fun i hi => List.getD_eq_default _ _ hi
    have hj : (b.p.toNat + index) % 4294967296 + 3 * j + 3 ≤ 4294967297 := by omega
    obtain ⟨q, a, ha, hp⟩ : ∃ q a, (b.p.toNat + index) % 4294967296 = a ∧ b.p.toNat + index = 4294967296 * q + a :=
      ⟨_, _, rfl, (Nat.div_add_mod _ _).symm⟩
    rw [ha] at hb hj
    exact ⟨hb.1 ▸ off _ (by omega), off _ (by omega)⟩
  · omega

/-- Without the wrap nothing is passed over where the column goes on; with it, the column always goes on. -/
theorem emptyForEver_eq_true {cfg : Config} {b : BitmapHeader} {index : Nat} :
    emptyForEver cfg b index = true ↔ cfg.bitmapWraps = false ∧ emptyRuns cfg b index ≠ 0 := by
  simp [emptyForEver]

/-- 2^32 runs on end have begun at every address, so one of their counts is the width, which is not zero. -/
theorem not_all_emptyRun {cfg : Config} {b : BitmapHeader} (hw : bitmapWord cfg b.p 0 ≠ 0) (start : Nat) :
    ¬ ∀ j, j < 4294967296 → EmptyRun cfg b (start + 3 * j) := by
  intro h
  obtain ⟨j, hj, ha⟩ : ∃ j, j < 4294967296 ∧
      (b.p.toNat + (start + 3 * j + 1)) % 4294967296 = (b.p.toNat + 0) % 4294967296 :=
    ⟨(4294967296 - (start + 1) % 4294967296) * 2863311531 % 4294967296, by omega, by omega⟩
  exact hw ((congrArg (assetRead cfg) ha).symm.trans (h j hj).2)

/-- How far within one pass over the address space a word is: its address in ASSET, then the empty runs beyond the end of
ASSET, then the last address. -/
def placeInPass (cfg : Config) (b : BitmapHeader) (index : Nat) : Nat :=
  let address := (b.p.toNat + index) % 4294967296
  if address < cfg.assetWords then address else if address = 4294967295 then cfg.assetWords + 1 else cfg.assetWords

/-- The turns of the loop left in one row, from word `index` on, for runs that have been empty since word `start`. -/
def turnsLeft (cfg : Config) (b : BitmapHeader) (start index : Nat) : Nat :=
  (3 + (b.p.toNat + start) / 4294967296 - (b.p.toNat + index) / 4294967296) * (cfg.assetWords + 3) +
    (cfg.assetWords + 2 - placeInPass cfg b index)

theorem placeInPass_le (cfg : Config) (b : BitmapHeader) (index : Nat) :
    placeInPass cfg b index ≤ cfg.assetWords + 1 := by
  simp only [placeInPass]
  split <;> [omega; (split <;> omega)]

theorem turnsLeft_pos (cfg : Config) (b : BitmapHeader) (start index : Nat) : 0 < turnsLeft cfg b start index := by
  have := placeInPass_le cfg b index
  simp only [turnsLeft]
  omega

theorem turnsLeft_self (cfg : Config) (b : BitmapHeader) (index : Nat) :
    turnsLeft cfg b index index < 4 * (cfg.assetWords + 3) := by
  simp only [turnsLeft, Nat.add_sub_cancel]
  omega

/-- One more turn, over one empty run or over those beyond the end of ASSET together, leaves fewer turns. -/
theorem turnsLeft_lt {cfg : Config} {b : BitmapHeader} {start index m n : Nat} (hi : index = start + 3 * m)
    (hm : m + n < 4294967296) (hn : n = if emptyRuns cfg b index = 0 then 1 else emptyRuns cfg b index)
    (hmk : (b.p.toNat + index) % 4294967296 < cfg.assetWords ∨ b.marker = 0) :
    turnsLeft cfg b start (index + 3 * n) < turnsLeft cfg b start index := by
  obtain ⟨q, a, ha, hq, hp, hlt⟩ : ∃ q a, (b.p.toNat + index) % 4294967296 = a ∧ (b.p.toNat + index) / 4294967296 = q ∧
      b.p.toNat + index = 4294967296 * q + a ∧ a < 4294967296 :=
    ⟨_, _, rfl, rfl, (Nat.div_add_mod _ _).symm, Nat.mod_lt _ (by omega)⟩
  have step : ((b.p.toNat + (index + 3 * n)) / 4294967296 = q ∧ placeInPass cfg b index < placeInPass cfg b (index + 3 * n)) ∨
      (b.p.toNat + (index + 3 * n)) / 4294967296 = q + 1 := by
    simp only [emptyRuns, ha] at hn
    simp only [placeInPass, ha]
    rw [ha] at hmk
    by_cases hw : a < cfg.assetWords
    · have h1 : n = 1 := by simpa [show ¬ cfg.assetWords ≤ a by omega] using hn
      subst h1
      by_cases hM : a + 3 < 4294967296
      · refine .inl ⟨by omega, ?_⟩
        rw [show (b.p.toNat + (index + 3 * 1)) % 4294967296 = a + 3 by omega, if_pos hw]
        split <;> [omega; (split <;> omega)]
      · exact .inr (by omega)
    · have hb : b.marker = 0 ∧ cfg.assetWords ≤ a := ⟨hmk.resolve_left hw, by omega⟩
      rw [if_pos hb] at hn
      by_cases hM : a + 3 * n < 4294967296
      · refine .inl ⟨by omega, ?_⟩
        have hlast : a ≠ 4294967295 ∧ a + 3 * n = 4294967295 := by split at hn <;> omega
        rw [show (b.p.toNat + (index + 3 * n)) % 4294967296 = 4294967295 by omega, if_neg hw, if_neg hlast.1,
          if_pos rfl]
        split <;> omega
      · exact .inr (by split at hn <;> omega)
  have hle := placeInPass_le cfg b index
  have hle' := placeInPass_le cfg b (index + 3 * n)
  have hpass : q + 1 ≤ 3 + (b.p.toNat + start) / 4294967296 ∨ (b.p.toNat + (index + 3 * n)) / 4294967296 = q := by omega
  simp only [turnsLeft, hq]
  generalize placeInPass cfg b (index + 3 * n) = place' at *
  rcases step with ⟨hs, hpl⟩ | hs
  · rw [hs]; omega
  · rw [hs]
    obtain ⟨d, hd⟩ : ∃ d, 3 + (b.p.toNat + start) / 4294967296 - q = d + 1 := ⟨_, (Nat.succ_pred_eq_of_pos (by omega)).symm⟩
    rw [hd, show 3 + (b.p.toNat + start) / 4294967296 - (q + 1) = d by omega, Nat.add_mul]
    omega

/-- A column ends within its turns, unless it comes to a word from where the platform has empty runs for ever. -/
theorem bitmapColumn_ends {cfg : Config} {b : BitmapHeader} (hw : bitmapWord cfg b.p 0 ≠ 0) (x : Nat)
    (fuel y index start m : Nat) (sf : Surface) (hi : index = start + 3 * m)
    (hm : ∀ j, j < m → EmptyRun cfg b (start + 3 * j))
    (hf : y < b.bh → (b.bh - 1 - y) * (4 * (cfg.assetWords + 3)) + turnsLeft cfg b start index ≤ fuel) :
    (bitmapColumn cfg b x fuel y index sf).1 = true ∨ ∃ i, emptyForEver cfg b i = true := by
  have room : ∀ n, (∀ j, j < n → EmptyRun cfg b (start + 3 * j)) → n < 4294967296 := fun n h => by
    by_contra hn
    exact not_all_emptyRun hw start fun j hj => h j (by omega)
  induction fuel generalizing y index start m sf with
  | zero =>
    refine .inl (decide_eq_true ?_)
    by_contra hy
    have := hf (by omega)
    have := turnsLeft_pos cfg b start index
    omega
  | succ n ih =>
    -- a row is done: the turns begin anew
    have next : ∀ (c k : Nat) (t : Surface), 0 < c →
        y < b.bh → (bitmapColumn cfg b x n (y + c) (index + k) t).1 = true ∨ ∃ i, emptyForEver cfg b i = true := by
      intro c k t hc hy
      refine ih (y + c) (index + k) (index + k) 0 t rfl (by simp) (fun hy' => ?_) (fun n h => by
        by_contra hn
        exact not_all_emptyRun hw _ fun j hj => h j (by omega))
      have h1 := turnsLeft_self cfg b (index + k)
      have h2 := hf hy
      have h3 := turnsLeft_pos cfg b start index
      have h4 : (b.bh - 1 - (y + c) + 1) * (4 * (cfg.assetWords + 3)) ≤ (b.bh - 1 - y) * (4 * (cfg.assetWords + 3)) :=
        Nat.mul_le_mul_right _ (by omega)
      rw [Nat.succ_mul] at h4
      omega
    -- an empty turn: the runs go on
    have empty : ∀ (k : Nat) (t : Surface), (k = if emptyRuns cfg b index = 0 then 1 else emptyRuns cfg b index) →
        (∀ j, j < k → EmptyRun cfg b (index + 3 * j)) → y < b.bh →
        (bitmapColumn cfg b x n y (index + 3 * k) t).1 = true ∨ ∃ i, emptyForEver cfg b i = true := by
      intro k t hk he hy
      have hall : ∀ j, j < m + k → EmptyRun cfg b (start + 3 * j) := fun j hj => by
        by_cases h : j < m
        · exact hm j h
        · have := he (j - m) (by omega)
          rwa [show index + 3 * (j - m) = start + 3 * j by omega] at this
      have hk0 : 0 < k := by split at hk <;> omega
      have hmk : (b.p.toNat + index) % 4294967296 < cfg.assetWords ∨ b.marker = 0 := by
        by_contra h
        push Not at h
        exact h.2 ((he 0 hk0).1.symm.trans (List.getD_eq_default _ _ h.1))
      have := turnsLeft_lt hi (room _ hall) hk hmk
      have := hf hy
      exact ih y (index + 3 * k) start (m + k) t (by omega) hall (fun _ => by omega) room
    unfold bitmapColumn
    dsimp only
    split
    · exact .inl rfl
    · rename_i hy
      have hy : y < b.bh := by omega
      split
      · rename_i hv
        split
        · exact .inr ⟨_, ‹_›⟩
        · split
          · rename_i he
            exact empty _ _ (by rw [if_neg he]) (fun j hj => emptyRuns_spec hj) hy
          · rename_i he
            by_cases hc : bitmapWord cfg b.p (index + 1) = 0
            · rw [hc]
              refine empty 1 _ (by rw [if_pos (by simpa using he)]) (fun j hj => ?_) hy
              obtain rfl : j = 0 := by omega
              exact ⟨hv, hc⟩
            · refine next _ _ _ (Nat.pos_of_ne_zero fun h => hc (BitVec.eq_of_toNat_eq h)) hy
      · exact next _ _ _ one_pos hy

/-- With the wrap, as R191 and R197 (d) have it to the letter, every decoding ends (log 8). -/
theorem drawBitmap_ends_of_wraps {cfg : Config} (hc : cfg.bitmapWraps = true) (x0 y0 : Nat) (p : BitVec 32) (sf : Surface) :
    (drawBitmap cfg x0 y0 p sf).1 = true := by
  have stuck : ∀ b i, emptyForEver cfg b i = false := fun b i => by simp [emptyForEver, hc]
  have columns : ∀ (b : BitmapHeader), bitmapWord cfg b.p 0 ≠ 0 → ∀ n x index sf, (bitmapColumns cfg b n x index sf).1 = true := by
    intro b hw n
    induction n with
    | zero => exact fun _ _ _ => rfl
    | succ n ih =>
      intro x index sf
      have h := bitmapColumn_ends hw x (columnFuel cfg b) 0 index index 0 sf rfl (by simp) (fun hy => by
        have := turnsLeft_self cfg b index
        have h4 : (b.bh - 1 - 0 + 1) * (4 * (cfg.assetWords + 3)) ≤ (b.bh + 1) * (4 * (cfg.assetWords + 3)) :=
          Nat.mul_le_mul_right _ (by omega)
        rw [Nat.succ_mul] at h4
        simp only [columnFuel]
        omega)
      simp only [stuck, Bool.false_eq_true, exists_false, or_false] at h
      unfold bitmapColumns
      split
      · exact ih _ _ _
      · rename_i heq
        rw [heq] at h
        exact absurd h (by simp)
  by_cases hw : bitmapWord cfg p 0 = 0
  · simp [drawBitmap, bitmapHeader, hw, bitmapColumns]
  · exact columns _ hw _ _ _ _

end Sys2Proof.Machine
end

