-- ==== Sys2Proof/Laws/Keys.lean ====
section
/-! SUPPORT. What a scan and a poll can change, said once (45_keyscan.md R218, R225). -/

namespace Sys2Proof.Machine

/-- `t` is `s` with other values of ROWSEL, TIME and the inputs that a sample takes. -/
def ScanFrame (s t : State) : Prop :=
  t = { s with time := t.time, rowsel := t.rowsel, matrix := t.matrix, draws := t.draws }

/-- `t` is `s` with other values of those and of `DB`. -/
def PollFrame (s t : State) : Prop :=
  t = { s with db := t.db, time := t.time, rowsel := t.rowsel, matrix := t.matrix, draws := t.draws }

theorem ScanFrame.refl (s : State) : ScanFrame s s := rfl

theorem ScanFrame.trans {s t u : State} (h : ScanFrame s t) (h' : ScanFrame t u) : ScanFrame s u := by
  unfold ScanFrame at *; rw [h']; rw [h]

theorem ScanFrame.poll {s t : State} (h : ScanFrame s t) : PollFrame s t := by
  unfold ScanFrame PollFrame at *; rw [h]

theorem PollFrame.trans {s t u : State} (h : PollFrame s t) (h' : PollFrame t u) : PollFrame s u := by
  unfold PollFrame at *; rw [h']; rw [h]

theorem State.wait_frame (s : State) (us : Nat) : ScanFrame s (s.wait us) := rfl

theorem State.sampleColin_frame (s : State) : ScanFrame s s.sampleColin.2 := by
  unfold State.sampleColin
  split <;> rfl

@[simp] theorem State.sampleColin_rowsel (s : State) : s.sampleColin.2.rowsel = s.rowsel := by
  unfold State.sampleColin
  split <;> rfl

/-- A scan changes only ROWSEL, TIME and the inputs. -/
theorem scanRows_frame (rows : List (Fin 7)) (s : State) : ScanFrame s (scanRows rows s).2 := by
  induction rows generalizing s with
  | nil => rfl
  | cons r rest ih =>
    have h0 : ScanFrame s { s with rowsel := selectRow r } := rfl
    have h1 := (h0.trans (State.wait_frame _ s.cfg.tSettleUs)).trans (State.sampleColin_frame _)
    simp only [scanRows]
    split
    · exact h1.trans (ih _)
    · exact h1

theorem scan_frame (s : State) : ScanFrame s (scan s).2 := scanRows_frame _ s

theorem rescan_frame (s : State) : ScanFrame s (rescan s).2 := (State.wait_frame s _).trans (scan_frame _)

/-- ROWSEL after the lines `rows` have been visited: some line of them, or as before where there are none. -/
theorem scanRows_rowsel (rows : List (Fin 7)) (s : State) :
    (rows = [] ∧ (scanRows rows s).2.rowsel = s.rowsel) ∨ ∃ r ∈ rows, (scanRows rows s).2.rowsel = selectRow r := by
  induction rows generalizing s with
  | nil => exact .inl ⟨rfl, rfl⟩
  | cons r rest ih =>
    refine .inr ?_
    simp only [scanRows]
    split
    · rcases ih (({ s with rowsel := selectRow r }.wait s.cfg.tSettleUs).sampleColin).2 with ⟨-, h⟩ | ⟨r', hr, h⟩
      · exact ⟨r, List.mem_cons_self, by rw [h]; simp⟩
      · exact ⟨r', List.mem_cons_of_mem _ hr, h⟩
    · exact ⟨r, List.mem_cons_self, by simp⟩

/-- A scan leaves exactly one row line selected (45_keyscan.md R221). -/
theorem scan_rowsel (s : State) : ∃ r, (scan s).2.rowsel = selectRow r := by
  rcases scanRows_rowsel [0, 1, 2, 3, 4, 5, 6] s with ⟨h, -⟩ | ⟨r, -, h⟩
  · simp at h
  · exact ⟨r, h⟩

/-- What a poll can do, in each of its seven ways (45_keyscan.md R225). -/
theorem poll_cases (s : State) :
    (s.db = .idle ∧ ((scan s).1 = none ∧ poll s = (none, (scan s).2) ∨
      ∃ k, (scan s).1 = some k ∧
        ((rescan (scan s).2).1 = some k ∧
            poll s = (some ⟨true, k⟩,
              { (rescan (scan s).2).2 with db := .pressed k.row k.col (rescan (scan s).2).2.time }) ∨
          (rescan (scan s).2).1 ≠ some k ∧ poll s = (none, (rescan (scan s).2).2)))) ∨
    ∃ row col t, s.db = .pressed row col t ∧
      ((scan s).1 = some ⟨row, col⟩ ∧ poll s = (none, (scan s).2) ∨
        ((scan s).1 ≠ none ∧ (scan s).1 ≠ some ⟨row, col⟩ ∧
          poll s = (some ⟨false, ⟨row, col⟩⟩, { (scan s).2 with db := .idle })) ∨
        ((scan s).1 = none ∧ (rescan (scan s).2).1 = some ⟨row, col⟩ ∧ poll s = (none, (rescan (scan s).2).2)) ∨
        ((scan s).1 = none ∧ (rescan (scan s).2).1 ≠ some ⟨row, col⟩ ∧
          poll s = (some ⟨false, ⟨row, col⟩⟩, { (rescan (scan s).2).2 with db := .idle }))) := by
  cases hdb : s.db with
  | idle =>
    refine .inl ⟨rfl, ?_⟩
    simp only [poll, hdb, pollIdle]
    cases hs : scan s with
    | mk o s1 =>
      cases o with
      | none => exact .inl ⟨rfl, rfl⟩
      | some k =>
        refine .inr ⟨k, rfl, ?_⟩
        by_cases h2 : (rescan s1).1 = some k
        · exact .inl ⟨h2, by simp [h2]⟩
        · exact .inr ⟨h2, by simp [h2]⟩
  | pressed row col t =>
    refine .inr ⟨row, col, t, rfl, ?_⟩
    simp only [poll, hdb, pollPressed]
    by_cases h1 : (scan s).1 = some ⟨row, col⟩
    · exact .inl ⟨h1, by simp [h1]⟩
    · by_cases h2 : (scan s).1 = none
      · by_cases h3 : (rescan (scan s).2).1 = some ⟨row, col⟩
        · exact .inr (.inr (.inl ⟨h2, h3, by simp [h2, h3]⟩))
        · exact .inr (.inr (.inr ⟨h2, h3, by simp [h2, h3]⟩))
      · exact .inr (.inl ⟨h2, h1, by simp [h1, h2]⟩)

/-- A poll changes only `DB`, ROWSEL, TIME and the inputs. -/
theorem poll_frame (s : State) : PollFrame s (poll s).2 := by
  have f1 := scan_frame s
  have f2 := f1.trans (rescan_frame (scan s).2)
  have idle : ∀ {t : State} (d : Debounce), ScanFrame s t → PollFrame s { t with db := d } := by
    intro t d h; unfold ScanFrame at h; unfold PollFrame; rw [h]
  rcases poll_cases s with ⟨-, ⟨-, h⟩ | ⟨k, -, ⟨-, h⟩ | ⟨-, h⟩⟩⟩ |
    ⟨row, col, t, -, ⟨-, h⟩ | ⟨-, -, h⟩ | ⟨-, -, h⟩ | ⟨-, -, h⟩⟩ <;> rw [h]
  · exact f1.poll
  · exact idle _ f2
  · exact f2.poll
  · exact f1.poll
  · exact idle _ f1
  · exact f2.poll
  · exact idle _ f2

end Sys2Proof.Machine
end

