-- ==== Sys2Proof/Laws/Exec.lean ====
section
/-! SUPPORT. What a command can change, said once: the fields that no command touches, and the four things a command can do to
the surface table. -/

namespace Sys2Proof.Machine

/-! ### Surfaces that a drawing command passes through -/

/-- `sf'` has the size and generation of `sf`, and is sound wherever `sf` is. -/
structure Surface.Evolves (cfg : Config) (sf sf' : Surface) : Prop where
  buffer : sf.SameBuffer sf'
  sound : sf.Sound cfg → sf'.Sound cfg

namespace Surface

variable {cfg : Config}

theorem Evolves.refl (sf : Surface) : Evolves cfg sf sf := ⟨⟨rfl, rfl, rfl⟩, id⟩

theorem Evolves.trans {a b c : Surface} (h : Evolves cfg a b) (h' : Evolves cfg b c) : Evolves cfg a c :=
  ⟨⟨h'.1.1.trans h.1.1, h'.1.2.1.trans h.1.2.1, h'.1.2.2.trans h.1.2.2⟩, fun x => h'.2 (h.2 x)⟩

theorem Evolves.cells {a b : Surface} (h : Evolves cfg a b) : b.cells = a.cells := by
  simp [Surface.cells, h.1.1, h.1.2.1]

theorem evolves_drawPixel (sf : Surface) (x y : Nat) (c : Word) : Evolves cfg sf (sf.drawPixel x y c) :=
  ⟨by simp [SameBuffer], fun h => h.drawPixel _ _ _⟩

theorem evolves_cellWrite {sf : Surface} {i : Nat} (h : i < sf.cells) (v : Word) : Evolves cfg sf (sf.cellWrite i v) :=
  ⟨by simp [SameBuffer], fun h' => h'.cellWrite h v⟩

/-- A loop whose every iteration evolves the surface evolves it. -/
theorem evolves_foldl {α : Type} (l : List α) (f : Surface → α → Surface) (sf : Surface)
    (hf : ∀ t, sf.SameBuffer t → ∀ a ∈ l, Evolves cfg t (f t a)) : Evolves cfg sf (l.foldl f sf) := by
  have go : ∀ (l' : List α) (t : Surface), (∀ a ∈ l', a ∈ l) → Evolves cfg sf t → Evolves cfg sf (l'.foldl f t) := by
    intro l'
    induction l' with
    | nil => exact fun t _ h => h
    | cons a r ih =>
      exact fun t hm h => ih _ (fun b hb => hm b (List.mem_cons_of_mem _ hb))
        (h.trans (hf t h.buffer a (hm a List.mem_cons_self)))
  exact go l sf (fun _ h => h) (Evolves.refl sf)

theorem evolves_fill (sf : Surface) (c : Word) : Evolves cfg sf (sf.fill c) := by
  refine evolves_foldl _ _ sf fun t ht i hi => evolves_cellWrite ?_ _
  simpa [Surface.cells, ht.1, ht.2.1] using List.mem_range.1 hi

theorem evolves_drawAll (sf : Surface) (l : List (Nat × Nat)) (c : Word) : Evolves cfg sf (sf.drawAll l c) :=
  evolves_foldl _ _ sf fun t _ _ _ => evolves_drawPixel t _ _ _

theorem evolves_copyCell (src t : Surface) (x y : Nat) (p : Nat × Nat) : Evolves cfg t (copyCell src t x y p) := by
  unfold copyCell
  split
  · rename_i h; exact evolves_cellWrite (t.index_lt_cells h) _
  · exact Evolves.refl t

theorem evolves_drawGlyph (fonts : Config) (sf : Surface) (g : GlyphRecord) : Evolves cfg sf (drawGlyph fonts g sf) := by
  have h : Evolves cfg sf ((columnMajor g.gw g.gh).foldl
      (drawCoverage fonts sf.font.toNat g sf.cx.toNat sf.cy.toNat sf.fg) sf) := by
    refine evolves_foldl _ _ sf fun t _ p _ => ?_
    unfold drawCoverage
    simp only []
    split
    · exact Evolves.refl t
    · exact evolves_drawPixel t _ _ _
  exact ⟨h.1, fun hs => ⟨(h.2 hs).1, (h.2 hs).2, (h.2 hs).3⟩⟩

theorem evolves_drawChar (fonts : Config) (sf : Surface) (c : Byte) : Evolves cfg sf (drawChar fonts sf c) := by
  unfold drawChar
  split
  · unfold newline
    split <;> exact ⟨⟨rfl, rfl, rfl⟩, fun h => ⟨h.1, h.2, h.3⟩⟩
  · split
    · exact Evolves.refl sf
    · exact evolves_drawGlyph fonts sf _

theorem evolves_drawBitmap (assets : Config) (sf : Surface) (x y : Nat) (p : BitVec 32) :
    Evolves cfg sf (drawBitmap assets x y p sf).2 :=
  drawBitmap_keeps (Evolves cfg sf) assets x y p sf (fun t _ _ _ _ h => h.trans (evolves_drawPixel t _ _ _)) (Evolves.refl sf)

end Surface

/-! ### The fields that no command touches -/

/-- `t` agrees with `s` in every field that no command changes. -/
structure ExecFrame (s t : State) : Prop where
  cfg : t.cfg = s.cfg
  ill : t.ill = s.ill
  arb : t.arb = s.arb
  scanen : t.scanen = s.scanen
  se : t.se = s.se
  scanact : t.scanact = s.scanact
  hostOps : t.hostOps = s.hostOps
  sched : t.sched = s.sched
  busData : t.busData = s.busData
  slots : t.surfaces.length = s.surfaces.length

theorem ExecFrame.refl (s : State) : ExecFrame s s := ⟨rfl, rfl, rfl, rfl, rfl, rfl, rfl, rfl, rfl, rfl⟩

theorem ExecFrame.onCurrent {s t : State} {act : Surface → Surface} (h : s.onCurrent act = .next t) : ExecFrame s t := by
  rcases s.onCurrent_cases act with ⟨sf, -, h2⟩ | ⟨-, h2⟩ <;> rw [h2] at h
  · cases h; exact ⟨rfl, rfl, rfl, rfl, rfl, rfl, rfl, rfl, rfl, by simp [State.withCurrent]⟩
  · cases h

theorem ExecFrame.poll (s : State) : ExecFrame s (poll s).2 := by
  have h := poll_frame s
  unfold PollFrame at h
  rw [h]
  exact ⟨rfl, rfl, rfl, rfl, rfl, rfl, rfl, rfl, rfl, rfl⟩

/-- What no command changes. -/
theorem exec_frame {i : Instr} {s t : State} (h : exec i s = .next t) : ExecFrame s t := by
  have retire : ∀ {u : State}, ExecFrame s u → ExecFrame s u.retire :=
    fun h => ⟨h.1, h.2, h.3, h.4, h.5, h.6, h.7, h.8, h.9, h.10⟩
  have setR0 : ∀ {u : State} (v : Word), ExecFrame s u → ExecFrame s (u.setR0 v) :=
    fun _ h => ⟨h.1, h.2, h.3, h.4, h.5, h.6, h.7, h.8, h.9, h.10⟩
  have same := ExecFrame.refl s
  cases i with
  | nop => cases h; exact retire same
  | surfnew =>
    cases h
    split
    · exact ⟨rfl, rfl, rfl, rfl, rfl, rfl, rfl, rfl, rfl, by simp [State.setSlot, State.setR0, State.retire]⟩
    · exact retire (setR0 _ same)
  | surffree =>
    cases h
    split
    · exact retire (setR0 _ same)
    · exact ⟨rfl, rfl, rfl, rfl, rfl, rfl, rfl, rfl, rfl, by simp [State.setSlot, State.setR0, State.retire]⟩
  | select =>
    cases h
    split
    · exact ⟨rfl, rfl, rfl, rfl, rfl, rfl, rfl, rfl, rfl, rfl⟩
    · exact retire (setR0 _ same)
  | setcur => exact ExecFrame.onCurrent h
  | getcur =>
    simp only [exec, execGetcur] at h
    split at h <;> cases h
    exact ⟨rfl, rfl, rfl, rfl, rfl, rfl, rfl, rfl, rfl, rfl⟩
  | setfg => exact ExecFrame.onCurrent h
  | setfont =>
    have f := ExecFrame.onCurrent (s := s.setR0 _) h
    exact ⟨f.1, f.2, f.3, f.4, f.5, f.6, f.7, f.8, f.9, f.10⟩
  | fill => exact ExecFrame.onCurrent h
  | pixel => exact ExecFrame.onCurrent h
  | getpix =>
    simp only [exec, execGetpix] at h
    split at h <;> cases h
    exact retire (setR0 _ same)
  | line => exact ExecFrame.onCurrent h
  | rect => exact ExecFrame.onCurrent h
  | sprite => exact ExecFrame.onCurrent h
  | bitmap x y p =>
    change execBitmap x y p s = _ at h
    rcases execBitmap_cases x y p s with ⟨-, h2⟩ | ⟨-, -, h2⟩ | ⟨sf, r, -, -, -, ⟨-, h2⟩ | ⟨-, h2⟩⟩ <;> rw [h2] at h <;>
      cases h
    · exact retire same
    all_goals exact ⟨rfl, rfl, rfl, rfl, rfl, rfl, rfl, rfl, rfl, by simp [State.withCurrent]⟩
  | char => exact ExecFrame.onCurrent h
  | string => exact ExecFrame.onCurrent h
  | present =>
    cases h
    split
    · exact retire same
    · split <;> exact ⟨rfl, rfl, rfl, rfl, rfl, rfl, rfl, rfl, rfl, rfl⟩
  | pollkey =>
    cases h
    split
    · unfold State.pop
      split <;> exact ⟨rfl, rfl, rfl, rfl, rfl, rfl, rfl, rfl, rfl, rfl⟩
    · exact retire (setR0 _ (ExecFrame.poll s))
  | waitkey =>
    cases h
    split
    · unfold waitPop
      split
      · exact same
      · exact ⟨rfl, rfl, rfl, rfl, rfl, rfl, rfl, rfl, rfl, rfl⟩
    · unfold waitPoll
      simp only []
      split
      · exact ExecFrame.poll s
      · exact retire (setR0 _ (ExecFrame.poll s))

/-! ### The surface table -/

/-- What a command can do to the table and to `CUR`: nothing (SELECT chooses an allocated slot), change the current surface,
create one in a free slot, or destroy one, selecting the screen if it was current. -/
inductive TableStep (s t : State) : Prop where
  | same (table : t.surfaces = s.surfaces) (cur : t.cur = s.cur ∨ ∃ sf, s.surf? t.cur.toNat = some sf)
  | draw (sf sf' : Surface) (current : s.current? = some sf) (table : t.surfaces = s.surfaces.set s.cur.toNat (some sf'))
      (evolves : sf.Evolves s.cfg sf') (cur : t.cur = s.cur)
  | create (n : Nat) (w h : Word) (gen : Nat) (can : canCreate s n w h = true)
      (table : t.surfaces = s.surfaces.set n (some (Surface.fresh w h gen))) (cur : t.cur = s.cur)
  | destroy (n : Byte) (sf : Surface) (notScreen : n ≠ 0) (held : s.surf? n.toNat = some sf)
      (table : t.surfaces = s.surfaces.set n.toNat none) (cur : t.cur = if s.cur = n then 0 else s.cur)

theorem TableStep.onCurrent {s t : State} {act : Surface → Surface} (h : s.onCurrent act = .next t)
    (hact : ∀ sf, Surface.Evolves s.cfg sf (act sf)) : TableStep s t := by
  rcases s.onCurrent_cases act with ⟨sf, h0, h2⟩ | ⟨-, h2⟩ <;> rw [h2] at h
  · cases h; exact .draw sf _ h0 rfl (hact sf) rfl
  · cases h

/-- What a command does to the surface table. -/
theorem exec_table {i : Instr} {s t : State} (h : exec i s = .next t) : TableStep s t := by
  have kept : ∀ {sf sf' : Surface}, sf.SameBuffer sf' → sf'.mem = sf.mem → sf'.font = sf.font →
      Surface.Evolves s.cfg sf sf' := by
    intro sf sf' hb hm hf
    exact ⟨hb, fun hs => ⟨hm ▸ hs.1, by rw [hm]; simpa [Surface.cells, hb.1, hb.2.1] using hs.2, hf ▸ hs.3⟩⟩
  cases i with
  | nop => cases h; exact .same rfl (.inl rfl)
  | surfnew n w hh =>
    by_cases hc : canCreate s n.toNat w hh = true
    · simp only [exec, execSurfnew, hc, if_true] at h; cases h; exact .create _ _ _ _ hc rfl rfl
    · simp only [exec, execSurfnew, hc] at h; cases h; exact .same rfl (.inl rfl)
  | surffree n =>
    cases h
    split
    · exact .same rfl (.inl rfl)
    · rename_i hh
      simp only [not_or] at hh
      cases hz : s.surf? n.toNat with
      | none => simp [hz] at hh
      | some z => exact .destroy n z hh.1 hz rfl rfl
  | select n =>
    cases h
    split
    · rename_i hh
      exact .same rfl (.inr (by simpa [Option.isSome_iff_exists] using hh.2))
    · exact .same rfl (.inl rfl)
  | setcur => exact TableStep.onCurrent h fun sf => kept ⟨rfl, rfl, rfl⟩ rfl rfl
  | getcur =>
    simp only [exec, execGetcur] at h
    split at h <;> cases h
    exact .same rfl (.inl rfl)
  | setfg => exact TableStep.onCurrent h fun sf => kept ⟨rfl, rfl, rfl⟩ rfl rfl
  | setfont f =>
    have ht := TableStep.onCurrent (s := s.setR0 _) h (fun sf => by
      split
      · rename_i hh; exact ⟨⟨rfl, rfl, rfl⟩, fun h => ⟨h.1, h.2, by simpa using hh⟩⟩
      · exact Surface.Evolves.refl sf)
    cases ht with
    | same h hc => exact .same h hc
    | draw sf sf' h0 h hg hc => exact .draw sf sf' h0 h hg hc
    | create n w h g hcan h' hc => exact .create n w h g hcan h' hc
    | destroy n sf h0 h1 h hc => exact .destroy n sf h0 h1 h hc
  | fill => exact TableStep.onCurrent h fun sf => sf.evolves_fill _
  | pixel => exact TableStep.onCurrent h fun sf => sf.evolves_drawPixel _ _ _
  | getpix =>
    simp only [exec, execGetpix] at h
    split at h <;> cases h
    exact .same rfl (.inl rfl)
  | line => exact TableStep.onCurrent h fun sf => sf.evolves_drawAll _ _
  | rect => exact TableStep.onCurrent h fun sf => sf.evolves_drawAll _ _
  | sprite =>
    refine TableStep.onCurrent h fun sf => ?_
    split
    · exact Surface.Evolves.refl sf
    · split
      · exact Surface.evolves_foldl _ _ _ fun t _ _ _ => Surface.evolves_copyCell _ _ _ _ _
      · exact Surface.evolves_foldl _ _ _ fun t _ _ _ => Surface.evolves_copyCell _ _ _ _ _
  | bitmap x y p =>
    change execBitmap x y p s = _ at h
    rcases execBitmap_cases x y p s with ⟨-, h2⟩ | ⟨-, -, h2⟩ | ⟨sf, r, -, h0, hr, ⟨-, h2⟩ | ⟨-, h2⟩⟩ <;> rw [h2] at h <;>
      cases h
    · exact .same rfl (.inl rfl)
    all_goals exact .draw sf r.2 h0 rfl (hr ▸ Surface.evolves_drawBitmap _ _ _ _ _) rfl
  | char => exact TableStep.onCurrent h fun sf => sf.evolves_drawChar _ _
  | string =>
    exact TableStep.onCurrent h fun sf => Surface.evolves_foldl _ _ _ fun t _ c _ => t.evolves_drawChar _ _
  | present =>
    cases h
    split
    · exact .same rfl (.inl rfl)
    · split <;> exact .same rfl (.inl rfl)
  | pollkey =>
    cases h
    split
    · unfold State.pop
      split <;> exact .same rfl (.inl rfl)
    · have hp := poll_frame s
      unfold PollFrame at hp
      rw [hp]
      exact .same rfl (.inl rfl)
  | waitkey =>
    cases h
    split
    · unfold waitPop
      split <;> exact .same rfl (.inl rfl)
    · have hp := poll_frame s
      unfold PollFrame at hp
      unfold waitPoll
      simp only []
      rw [hp]
      split <;> exact .same rfl (.inl rfl)

end Sys2Proof.Machine
end

