-- ==== Sys2Proof/Laws/PerInstr.lean ====
section
/-! SUPPORT. The family `HeaderAndLength`, said of every command: its first word matches its row of the opcode map under the
mask 0xFF00 (30_encoding.md R93), and the length rule (R100) finds all of its words and no more. -/

namespace Sys2Proof.Laws

/-- The `match` column of the opcode map (R93). -/
def rowMatch (i : Instr) : Word :=
  match i with
  | .nop => 0x0000
  | .surfnew _ _ _ => 0x0100
  | .surffree _ => 0x0200
  | .select _ => 0x0300
  | .setcur _ _ => 0x0400
  | .getcur => 0x0500
  | .setfg _ => 0x0600
  | .setfont _ => 0x0700
  | .fill _ => 0x1000
  | .pixel _ _ _ => 0x1100
  | .getpix _ _ => 0x1200
  | .line _ _ _ _ _ => 0x1300
  | .rect _ _ _ _ _ _ _ => 0x1400
  | .sprite _ _ _ => 0x1500
  | .bitmap _ _ _ => 0x1600
  | .char _ => 0x2000
  | .string _ => 0x2100
  | .present _ => 0x3000
  | .pollkey => 0x4000
  | .waitkey => 0x4100

@[simp] theorem opField_header (op a : Byte) : opField (header op a) = op := Machine.highByte_ofBytes op a

@[simp] theorem aField_header (op a : Byte) : aField (header op a) = a := Machine.lowByte_ofBytes op a

/-- The mask keeps the opcode and clears the immediate (R91, R93). -/
theorem header_masked (op a : Byte) : header op a &&& 0xFF00 = header op 0 := by
  apply BitVec.eq_of_getLsbD_eq
  intro i h
  simp only [header, BitVec.getLsbD_and, BitVec.getLsbD_append]
  interval_cases i <;> simp

/-- STRING's operand words end with the first zero byte (R95, R101). -/
theorem stringWords_encodeString (bs : List Byte) (h : bs.all (fun b => b != 0) = true) :
    stringWords (encodeString bs) = some (encodeString bs).length := by
  induction bs using encodeString.induct with
  | case1 => decide
  | case2 b => simp [encodeString, stringWords]
  | case3 b0 b1 bs ih =>
    simp at h
    simp [encodeString, stringWords, h, ih (by simpa using h.2.2)]

end Sys2Proof.Laws

namespace Sys2Proof.Laws.HeaderAndLength

/-- The header matches the command's row, and the length rule finds the command's words. -/
def Statement (i : Instr) : Prop :=
  i.wellFormed = true → ∃ h ws, encode i = h :: ws ∧ h &&& 0xFF00 = rowMatch i ∧
    commandLength h ws = some (encode i).length

/-- A command of fixed length: the row of its opcode, with its operand count. -/
theorem ofRow {i : Instr} {op a : Byte} {ws : List Word} {r : OpcodeRow} (he : encode i = header op a :: ws)
    (hm : header op 0 = rowMatch i) (hr : opcodeMap.find? (fun r => r.op = op) = some r)
    (hn : r.operands = some ws.length) : Statement i := by
  intro _
  refine ⟨_, _, he, by rw [header_masked, hm], ?_⟩
  simp only [commandLength, opField_header, hr, hn, he, List.length_cons]

theorem nop : Statement .nop := ofRow rfl rfl rfl rfl

theorem surfnew (s : Byte) (w h : Word) : Statement (.surfnew s w h) := ofRow rfl rfl rfl rfl

theorem surffree (s : Byte) : Statement (.surffree s) := ofRow rfl rfl rfl rfl

theorem select (s : Byte) : Statement (.select s) := ofRow rfl rfl rfl rfl

theorem setcur (x y : Word) : Statement (.setcur x y) := ofRow rfl rfl rfl rfl

theorem getcur : Statement .getcur := ofRow rfl rfl rfl rfl

theorem setfg (c : Word) : Statement (.setfg c) := ofRow rfl rfl rfl rfl

theorem setfont (f : Byte) : Statement (.setfont f) := ofRow rfl rfl rfl rfl

theorem fill (c : Word) : Statement (.fill c) := ofRow rfl rfl rfl rfl

theorem pixel (x y c : Word) : Statement (.pixel x y c) := ofRow rfl rfl rfl rfl

theorem getpix (x y : Word) : Statement (.getpix x y) := ofRow rfl rfl rfl rfl

theorem line (x1 y1 x2 y2 c : Word) : Statement (.line x1 y1 x2 y2 c) := ofRow rfl rfl rfl rfl

theorem rect (filled : Bool) (x y w h radius c : Word) : Statement (.rect filled x y w h radius c) :=
  ofRow rfl rfl rfl rfl

theorem sprite (s : Byte) (x y : Word) : Statement (.sprite s x y) := ofRow rfl rfl rfl rfl

theorem bitmap (x y : Word) (p : BitVec 32) : Statement (.bitmap x y p) := ofRow rfl rfl rfl rfl

theorem char (c : Byte) : Statement (.char c) := ofRow rfl rfl rfl rfl

theorem string (bytes : List Byte) : Statement (.string bytes) := by
  intro h
  refine ⟨_, _, rfl, header_masked 0x21 0, ?_⟩
  have hr : opcodeMap.find? (fun r => r.op = (0x21 : Byte)) = some ⟨"STRING", 0x21, none⟩ := rfl
  simp only [commandLength, opField_header, hr, stringWords_encodeString bytes h, encode, List.length_cons,
    Option.map_some]

theorem present (s : Byte) : Statement (.present s) := ofRow rfl rfl rfl rfl

theorem pollkey : Statement .pollkey := ofRow rfl rfl rfl rfl

theorem waitkey : Statement .waitkey := ofRow rfl rfl rfl rfl

end Sys2Proof.Laws.HeaderAndLength
end

