-- ==== Sys2Proof/Tests/Slice0.lean ====
section
/-! SUPPORT. The model's own tests: the checks of WellFormed, words written out from the encoding tables, the vectors of
95_test_vectors.md (named V-…, E…, computed there from the rules), and one witness per obligation that has hypotheses. -/

namespace Sys2Proof.Tests

set_option Elab.async false

open Sys2Proof.Machine

/-! ### Small states -/

/-- The font `TF` of 95_test_vectors.md 2.4. -/
def testFont : List Byte :=
  List.replicate 92 0 ++ [0x0A, 0x02] ++ List.replicate 36 0 ++ [0x00, 0x02, 0x05, 0x02] ++ List.replicate 114 0 ++
    [0x0D, 0x02] ++ List.replicate 262 0 ++
    [0x03, 0x02, 0xF8, 0x04, 0xF1, 0x02, 0x03, 0x12, 0x34, 0x56, 0x01, 0x01, 0xF0, 0x00, 0x00]

/-- ASSET: V-B1 at 8, V-B4 at 21, E4 at 30, three literals at 37, and marker 0 at the very end, at 44 (V-B9). -/
def testAsset : List Word :=
  List.replicate 8 0 ++ [2, 3, 0x1111, 0xFFFF, 0xF800, 0x1111, 0x001F, 0xFFFF, 2, 0x07E0, 0xFFFF, 1, 0xFFFF] ++
    [2, 2, 0, 0xFFFF, 0xFFFF, 3, 1, 2, 2] ++ [1, 4, 0, 0xFFFF, 0xFFFF, 4, 5] ++ [1, 3, 0, 0xFFFF, 6, 0, 7] ++
    [1, 3, 0x1111, 0]

/-- A platform with a 4x3 screen, four slots, CELL_CAP 20, both remaps the identity, MULTICORE 0. -/
def solo : Config :=
  { multicore := false, screenW := 4, screenH := 3, nSurf := 4, cellCap := some 20, fonts := [testFont]
    asset := testAsset, rowMap := [0, 1, 2, 3, 4, 5, 6], colMap := [0, 1, 2, 3, 4, 5, 6], tSettleUs := 1000
    tDebounceUs := 20000, base := 0, bitmapWraps := false }

/-- The same platform with MULTICORE 1. -/
def duo : Config := { solo with multicore := true }

/-- A surface whose every cell holds the stored value `v`. -/
def plain (w h v : Word) : Surface :=
  (List.range (w.toNat * h.toNat)).foldl (fun t i => t.cellWrite i v) (Surface.fresh w h 0)

/-- The block after reset with its screen a plain `w` by `h` surface. -/
def block (c : Config) (w h v : Word) : State :=
  let s := State.powerOn { c with screenW := w, screenH := h }
  { s with surfaces := s.surfaces.set 0 (some (plain w h v)) }

/-- The block with the key matrix's next answers listed. -/
def keys (c : Config) (answers : List (BitVec 7)) : State :=
  { State.powerOn { c with fonts := [[]], asset := [] } with matrix := answers.map fun a => ⟨a, 0⟩ }

/-- The seven answers, in line order, of a scan that finds the key on (r, c). -/
def closedAt (r c : Fin 7) : List (BitVec 7) := List.replicate r.val 0x7F ++ [0x7F#7 ^^^ (1#7 <<< c.val)]

/-- The seven answers of a scan that finds nothing. -/
def open7 : List (BitVec 7) := List.replicate 7 0x7F

/-- The next state, where there is one. -/
def after (o : Host.Outcome State Fault Refusal) : Option State :=
  match o with
  | .next t => some t
  | _ => none

/-- The state after a list of commands. -/
def runAll (cs : List Instr) (s : State) : Option State := after (execAll cs s)

/-- The stored cells of slot `n`. -/
def cellsOf (n : Nat) (s : State) : Option (List Word) :=
  (s.surf? n).map fun sf => (List.range sf.cells).map sf.cellRead

/-- The cursor of the current surface. -/
def cursorOf (s : State) : Option (Word × Word) := s.current?.map fun sf => (sf.cx, sf.cy)

/-! ### WellFormed and the encoding -/

theorem test_wellFormed_refuses_zero_byte : (Instr.string [0x41, 0x00]).wellFormed = false := by decide

theorem test_wellFormed_accepts_string : (Instr.string [0x41, 0x0A]).wellFormed = true := by decide

/-- The opcodes of the map are twenty different ones (30_encoding.md R93). -/
theorem test_opcodes_differ : (opcodeMap.map (·.op)).Nodup ∧ opcodeMap.length = 20 := by decide

theorem test_decode_nop : decode [0x00AB] = .ok (.nop, []) := by decide  -- V-E2
theorem test_decode_surfnew : decode [0x0101, 4, 3, 0x0301] = .ok (.surfnew 1 4 3, [0x0301]) := by decide  -- V-E15
theorem test_decode_surffree : decode [0x0203] = .ok (.surffree 3, []) := by decide
theorem test_decode_select : decode [0x0301] = .ok (.select 1, []) := by decide
theorem test_decode_setcur : decode [0x0400, 0x000A, 0x0014] = .ok (.setcur 10 20, []) := by decide
theorem test_decode_getcur : decode [0x0500] = .ok (.getcur, []) := by decide
theorem test_decode_setfg : decode [0x0600, 0xF800] = .ok (.setfg 0xF800, []) := by decide
theorem test_decode_setfont : decode [0x0702] = .ok (.setfont 2, []) := by decide
theorem test_decode_fill : decode [0x1000, 0x4000] = .ok (.fill 0x4000, []) := by decide  -- V-E4
theorem test_decode_pixel : decode [0x1100, 1, 2, 0xF800] = .ok (.pixel 1 2 0xF800, []) := by decide
theorem test_decode_getpix : decode [0x1200, 3, 2] = .ok (.getpix 3 2, []) := by decide
theorem test_decode_line : decode [0x1300, 3, 1, 0, 1, 0x07E0] = .ok (.line 3 1 0 1 0x07E0, []) := by decide
theorem test_decode_rect : decode [0x14FE, 1, 2, 3, 4, 7, 9] = .ok (.rect false 1 2 3 4 7 9, []) := by decide  -- V-E14
theorem test_decode_rect_filled : decode [0x1401, 1, 2, 3, 4, 7, 9] = .ok (.rect true 1 2 3 4 7 9, []) := by decide
theorem test_decode_sprite : decode [0x1501, 2, 0] = .ok (.sprite 1 2 0, []) := by decide
theorem test_decode_bitmap : decode [0x1600, 1, 2, 4, 1] = .ok (.bitmap 1 2 65540, []) := by decide  -- V-E13
theorem test_decode_char : decode [0x2041] = .ok (.char 0x41, []) := by decide
theorem test_decode_string : decode [0x2100, 0x4241, 0x0000, 7] = .ok (.string [0x41, 0x42], [7]) := by decide  -- V-E10
theorem test_decode_string_low_zero : decode [0x2100, 0x4100] = .ok (.string [], []) := by decide  -- V-E11
theorem test_decode_present : decode [0x3005] = .ok (.present 5, []) := by decide
theorem test_decode_pollkey : decode [0x4000] = .ok (.pollkey, []) := by decide
theorem test_decode_waitkey : decode [0x4100] = .ok (.waitkey, []) := by decide
theorem test_decode_illegal : decode [0x0900, 0] = .error (.illegalOpcode 0x09) := by decide  -- V-E5
theorem test_decode_incomplete : decode [0x1300, 1, 2] = .error .incomplete := by decide  -- V-Z5

/-- HLINE at the last column: one pixel fits, two do not; from column 0 a whole 65536 fit (30_encoding.md R102). -/
theorem test_pseudo_hline :
    expandPseudo (.hline 0xFFFF 3 1 7) = some (.line 0xFFFF 3 0xFFFF 3 7) ∧ expandPseudo (.hline 0xFFFF 3 2 7) = none ∧
    expandPseudo (.hline 0 3 65536 7) = some (.line 0 3 0xFFFF 3 7) ∧ expandPseudo (.vline 1 2 0 7) = none ∧
    expandPseudo (.vline 1 0 65537 7) = none ∧ expandPseudo .newline = some (.char 0x0A) := by decide

/-- The words of a table row reach the step (host interface): WAITKEY and SURFNEW as the first command after reset. -/
theorem test_withFetchWord :
    (nextTurn (State.reset.withFetchWord 16 0x0101)).1 = .primary ∧
    (State.reset.withFetchWord 16 0x0101).cmdbuf = [0x0101, 0] ∧ decodeTableWord 16 0x4100 = some .waitkey := by
  decide +kernel

/-! ### Surface management -/

theorem test_nop : after (exec .nop (block solo 2 1 0)) = some (block solo 2 1 0) := by decide +kernel  -- V-E1

/-- V-S1, V-S5, V-S6: SURFNEW within and beyond CELL_CAP. -/
theorem test_surfnew :
    (runAll [.surfnew 1 4 3] (block solo 4 3 0)).map (fun t => (t.result0, t.cur, (t.surf? 1).map fun z => (z.w, z.h, z.fg)))
      = some (1, 0, some (4, 3, 0xFFFF)) ∧
    (runAll [.surfnew 1 4 3, .surfnew 2 3 3] (block solo 4 3 0)).map (fun t => (t.result0, t.surf? 2)) = some (0, none) ∧
    (runAll [.surfnew 1 4 3, .surfnew 2 4 2] (block solo 4 3 0)).map (fun t => t.result0) = some 1 := by decide +kernel

/-- V-S2, V-S3, V-S4: a slot in use, the screen, a slot out of range. -/
theorem test_surfnew_fails :
    (runAll [.surfnew 1 1 1, .surfnew 1 1 1] (block solo 4 3 0)).map (·.result0) = some 0 ∧
    (runAll [.surfnew 0 1 1] (block solo 4 3 0)).map (·.result0) = some 0 ∧
    (runAll [.surfnew 4 1 1] (block solo 4 3 0)).map (·.result0) = some 0 := by decide +kernel

/-- V-S10, V-S12: SURFFREE of the current surface, and of the screen. -/
theorem test_surffree :
    (runAll [.surfnew 3 0 0xFFFF, .select 3, .surffree 3] (block solo 4 3 0)).map (fun t => (t.result0, t.cur, t.surf? 3))
      = some (1, 0, none) ∧
    (runAll [.surffree 0] (block solo 4 3 0)).map (fun t => (t.result0, (t.surf? 0).isSome)) = some (0, true) := by
  decide +kernel

/-- V-S8, V-S13: SELECT and the CUR field of STATUS. -/
theorem test_select :
    (runAll [.surfnew 3 0 0xFFFF, .select 3] (block solo 4 3 0)).map (fun t => (t.result0, t.readReg 1)) = some (1, 0x0300) ∧
    (runAll [.select 3] (block solo 4 3 0)).map (fun t => (t.result0, t.cur)) = some (0, 0) := by decide +kernel

/-- V-S14, V-S15: the cursor is per surface. -/
theorem test_setcur_getcur :
    (runAll [.surfnew 1 1 1, .select 1, .setcur 10 20, .select 0, .getcur] (block solo 4 3 0)).map
      (fun t => (t.result0, t.result1)) = some (0, 0) ∧
    (runAll [.surfnew 1 1 1, .select 1, .setcur 10 20, .select 0, .select 1, .getcur] (block solo 4 3 0)).map
      (fun t => (t.result0, t.result1)) = some (10, 20) := by decide +kernel

/-- V-S17: the colour is kept as given. -/
theorem test_setfg : (runAll [.setfg 0xF800] (block solo 2 1 0)).bind (fun t => t.current?.map (·.fg)) = some 0xF800 := by
  decide +kernel

/-- V-S16. -/
theorem test_setfont :
    (runAll [.setfont 1] (block { solo with fonts := [[], []] } 2 1 0)).bind (fun t => t.current?.map fun z => (t.result0, z.font))
      = some (1, 1) ∧
    (runAll [.setfont 1, .setfont 2] (block { solo with fonts := [[], []] } 2 1 0)).bind
      (fun t => t.current?.map fun z => (t.result0, z.font)) = some (0, 1) := by decide +kernel

/-! ### Rasterizer -/

/-- V-R1. -/
theorem test_fill : (runAll [.fill 0x1234] (block solo 2 2 0)).bind (cellsOf 0) = some [0x3412, 0x3412, 0x3412, 0x3412] := by
  decide +kernel

/-- V-R3, V-R2. -/
theorem test_pixel_getpix :
    (runAll [.pixel 3 2 0x8001, .getpix 3 2] (block solo 4 3 0)).map (fun t => (t.result0, (cellsOf 0 t).map (·.getD 11 0)))
      = some (0x8001, some 0x0180) ∧
    (runAll [.pixel 4 0 0xFFFF, .pixel 0 3 0xFFFF, .pixel 0xFFFF 0xFFFF 0xFFFF, .getpix 4 0] (block solo 4 3 0)).map
      (fun t => (t.result0, cellsOf 0 t)) = some (0, some (List.replicate 12 0)) := by decide +kernel

/-- V-R10, V-R8: end points reversed, and a line that leaves the surface. -/
theorem test_line :
    (runAll [.line 3 2 3 0 0x07E0] (block solo 4 3 0)).bind (cellsOf 0) =
      some [0, 0, 0, 0xE007, 0, 0, 0, 0xE007, 0, 0, 0, 0xE007] ∧
    (runAll [.line 0 2 0xFFFF 2 0xF800] (block solo 4 3 0)).bind (cellsOf 0) =
      some [0, 0, 0, 0, 0, 0, 0, 0, 0x00F8, 0x00F8, 0x00F8, 0x00F8] := by decide +kernel

/-- V-R7: a diagonal line draws nothing. -/
theorem test_line_diagonal : (runAll [.line 0 0 3 2 0xFFFF] (block solo 4 3 0)).bind (cellsOf 0) = some (List.replicate 12 0) := by
  decide +kernel

/-- V-R11 (grid a) and V-R13 (grid c). -/
theorem test_rect_outline :
    (runAll [.rect false 1 1 3 3 7 0xFFFF] (block solo 5 4 0)).bind (cellsOf 0) = some
      [0, 0, 0, 0, 0, 0, 0xFFFF, 0xFFFF, 0xFFFF, 0, 0, 0xFFFF, 0, 0xFFFF, 0, 0, 0xFFFF, 0xFFFF, 0xFFFF, 0] ∧
    (runAll [.rect false 3 2 4 4 0 0xFFFF] (block solo 5 4 0)).bind (cellsOf 0) = some
      [0, 0, 0, 0, 0, 0, 0, 0, 0, 0, 0, 0, 0, 0xFFFF, 0xFFFF, 0, 0, 0, 0xFFFF, 0] := by decide +kernel

/-- V-R12 (grid b) and V-R13c: no wrap at 65535. -/
theorem test_rect_filled :
    (runAll [.rect true 1 1 3 3 0 0xFFFF] (block solo 5 4 0)).bind (cellsOf 0) = some
      [0, 0, 0, 0, 0, 0, 0xFFFF, 0xFFFF, 0xFFFF, 0, 0, 0xFFFF, 0xFFFF, 0xFFFF, 0, 0, 0xFFFF, 0xFFFF, 0xFFFF, 0] ∧
    (runAll [.rect true 0xFFFF 0 2 2 0 0xFFFF] (block solo 5 4 0)).bind (cellsOf 0) = some (List.replicate 20 0) := by
  decide +kernel

/-- V-R14, V-R17: a blit partly outside the destination, and one from an empty slot. -/
theorem test_sprite :
    (runAll [.surfnew 1 2 2, .select 1, .pixel 0 0 1, .pixel 1 0 2, .pixel 0 1 3, .pixel 1 1 4, .select 0, .sprite 1 2 0]
      (block solo 3 2 0)).bind (cellsOf 0) = some [0, 0, 0x0100, 0, 0, 0x0300] ∧
    (runAll [.sprite 2 0 0] (block solo 3 2 0)).bind (cellsOf 0) = some [0, 0, 0, 0, 0, 0] := by decide +kernel

/-- V-R19: a surface blitted onto itself smears. -/
theorem test_sprite_smears :
    (runAll [.pixel 0 0 1, .pixel 1 0 2, .pixel 2 0 3, .sprite 0 1 0] (block solo 3 1 0)).bind (cellsOf 0) =
      some [0x0100, 0x0100, 0x0100] := by decide +kernel

/-! ### Glyphs -/

/-- V-G4, V-G6 to V-G9, V-G11, V-G12, V-G3. -/
theorem test_blend :
    blend 0x0000 0xFFFF 1 = 0x1082 ∧ blend 0xF800 0x001F 5 = 0xA00A ∧ blend 0x07E0 0x0000 1 = 0x0700 ∧
    blend 0x000A 0x0000 1 = 0x0009 ∧ blend 0xFFFF 0x0000 8 = 0x738E ∧ blend 0x1234 0xABCD 9 = 0x6B0F ∧
    blend 0x0020 0x0020 3 = 0x0000 ∧ blend 0x0000 0xFFFF 15 = 0xFFFF := by decide

/-- V-G1: CHAR 'A' at (1, 0), cells and cursor; V-G13: a glyph of odd height. -/
theorem test_char :
    (runAll [.setcur 1 0, .char 0x41] (block solo 4 3 0)).map (fun t => (cellsOf 0 t, cursorOf t)) = some
      (some [0, 0xFFFF, 0, 0xFFFF, 0, 0x1084, 0x0842, 0x8210, 0, 0, 0, 0], some (3, 0)) ∧
    (runAll [.char 0x42] (block solo 2 3 0)).map (fun t => (cellsOf 0 t, cursorOf t)) = some
      (some [0x8210, 0x0842, 0x0421, 0x8A52, 0x8631, 0x0C63], some (1, 0)) := by decide +kernel

/-- V-G17, V-G18, V-G19: a newline that wraps, an absent glyph, a glyph of width 0. -/
theorem test_char_cursor :
    (runAll [.setcur 33 0xFFFF, .char 0x0A] (block solo 1 1 0)).bind cursorOf = some (0, 1) ∧
    (runAll [.setcur 1 1, .char 0x7F] (block solo 1 1 0)).bind cursorOf = some (1, 1) ∧
    (runAll [.char 0x7C] (block solo 1 1 0)).bind cursorOf = some (0xFFFF, 0) := by decide +kernel

/-- V-G24: STRING "AB.", glyphs that overlap by one column. -/
theorem test_string :
    (runAll [.string [0x41, 0x42, 0x2E]] (block solo 6 3 0)).map (fun t => (cellsOf 0 t, cursorOf t)) = some
      (some [0xFFFF, 0, 0xDFFF, 0xFFFF, 0, 0, 0x1084, 0x0842, 0x4529, 0x8A52, 0, 0, 0, 0, 0x8631, 0x0C63, 0, 0],
        some (3, 0)) := by decide +kernel

/-! ### Bitmaps -/

/-- V-B1, and V-B4: a run longer than its column. -/
theorem test_bitmap :
    (runAll [.bitmap 1 0 8] (block solo 3 3 0)).bind (cellsOf 0) =
      some [0, 0x00F8, 0xE007, 0, 0, 0xE007, 0, 0x1F00, 0xFFFF] ∧
    (runAll [.bitmap 0 0 21] (block solo 2 4 0xAAAA)).bind (cellsOf 0) =
      some [0x0100, 0x0200, 0x0100, 0x0200, 0x0100, 0xAAAA, 0xAAAA, 0xAAAA] := by decide +kernel

/-- V-B9: marker 0 and the data missing: where the wrap is not followed the command stays in progress; V-B6: the null
pointer. -/
theorem test_bitmap_hang :
    (after (exec (.bitmap 0 0 44) { block solo 1 3 0 with cmdbuf := [0x1600, 0, 0, 44, 0] })).map (·.cmdbuf) =
      some [0x1600, 0, 0, 44, 0] ∧
    (after (exec (.bitmap 0 0 0) { block solo 1 3 0 with cmdbuf := [0x1600, 0, 0, 0, 0] })).map (·.cmdbuf) = some [] := by
  decide +kernel

/-- V-B9's words with the wrap followed (R191, R197 (d)): after address 2^32 - 1 the decoding comes back to ASSET[2], here 9,
and ends with that literal (by hand). -/
theorem test_bitmap_wrap :
    let c := { solo with asset := [0, 0, 9, 9, 9, 9, 9, 9, 1, 3, 0x1111, 0], bitmapWraps := true }
    (runAll [.bitmap 0 0 8] (block c 1 3 0)).bind (cellsOf 0) = some [0x0900, 0x0900, 0x0900] := by decide +kernel

/-! ### Transport -/

/-- V-T1 and V-T2. -/
theorem test_present :
    (runAll [.pixel 0 0 0xF800, .pixel 1 0 0x07E0, .present 0, .present 5] (block solo 2 1 0)).map (·.tx) =
      some [⟨2, 1, [0xF8, 0x00, 0x07, 0xE0]⟩] := by decide +kernel

/-! ### Keys -/

/-- V-K3 and V-K6: the lowest physical row line wins, then the lowest column line; the remap comes after. -/
theorem test_scan :
    ((scan (keys solo [0x7F, 0x7F, 0x57])).1, (scan (keys solo [0x7F, 0x7F, 0x57])).2.rowsel) = (some ⟨2, 3⟩, 0x7B) ∧
    (scan (keys { solo with rowMap := [6, 5, 4, 3, 2, 1, 0], colMap := [1, 2, 3, 4, 5, 6, 0] } [0x7F, 0x3F])).1 =
      some ⟨5, 0⟩ := by decide +kernel

/-- The ideal matrix of 45_keyscan.md R216 with the keys of V-K3 closed. -/
theorem test_idealColin :
    idealColin [(2, 5), (2, 3), (5, 0)] 0x7B = 0x57 ∧ idealColin [(2, 5), (2, 3), (5, 0)] 0x7D = 0x7F := by decide

/-- E5 (V-K7), and STATUS, KEYLATCH and KEYTIME after the Press: 3 settle delays of 1 ms, 20 ms, 3 settle delays (log 6). -/
theorem test_pollkey :
    (runAll [.pollkey] (keys solo (closedAt 2 3 ++ closedAt 2 3 ++ open7 ++ open7))).map
      (fun t => (t.result0, t.readReg 1, t.readReg 5, t.readReg 6)) = some (0x8123, 0x0008, 0x8023, 26) ∧
    (runAll [.pollkey, .pollkey] (keys solo (closedAt 2 3 ++ closedAt 2 3 ++ open7 ++ open7))).map
      (fun t => (t.result0, t.readReg 1, t.readReg 5, t.readReg 6)) = some (0x8023, 0, 0, 0) := by decide +kernel

/-- V-K10: none, then the same key again, is no Release. -/
theorem test_pollkey_noise :
    (runAll [.pollkey, .pollkey] (keys solo (closedAt 2 3 ++ closedAt 2 3 ++ open7 ++ closedAt 2 3))).map
      (fun t => (t.result0, t.db.key)) = some (0, some ⟨2, 3⟩) := by decide +kernel

/-- V-K14's first poll: nothing found, and the command stays in progress. -/
theorem test_waitkey_waits :
    (after (exec .waitkey { keys solo open7 with cmdbuf := [0x4100] })).map (fun t => (t.cmdbuf, t.db)) =
      some ([0x4100], .idle) := by decide +kernel

/-- 45_keyscan.md R237's example. -/
theorem test_waitkey_pops :
    (after (exec .waitkey { keys duo [] with q := [0x8123, 0x8023] })).map (fun t => (t.result0, t.q)) =
      some (0x8123, [0x8023]) := by decide +kernel

/-- V-Q3's steps 2 and 3: `ARB` raised during a poll does not stop it, and the next CheckArb does not begin one. -/
theorem test_engine :
    (fun s : State => (s.se, s.scanact, s.rowsel))
        (engineStep { keys duo (closedAt 2 3 ++ closedAt 2 3) with se := .inPoll, scanact := true, scanen := true, arb := true })
      = (.pushPending 0x8123, false, 0x7B) ∧
    engineStep { keys duo [] with se := .checkArb, scanen := true, arb := true } =
      { keys duo [] with se := .checkArb, scanen := true, arb := true } := by decide +kernel

/-- V-Q4. -/
theorem test_ctrl :
    ((keys duo []).writeCtrl 0xFFFF).readReg 4 = 3 ∧ (((keys duo []).writeCtrl 0xFFFF).writeCtrl 0).readReg 4 = 2 ∧
    ((keys solo []).writeCtrl 0xFFFF).readReg 4 = 1 := by decide +kernel

/-! ### Witnesses: states and operands that meet the hypotheses of the obligations, clause by clause -/

/-- A block in the middle of things: an event queued, the Release of the same key in flight, one cell written. -/
def busy : State :=
  { block { duo with fonts := [[]], asset := [] } 2 1 0x1234 with
    q := [0x8123], se := .pushPending 0x8023, scanen := true, rowsel := 0x7B, cmdbuf := [0x1000]
    sched := [.scan, .primary, .tick 5], hostOps := [.write 0 0xF800] }

/-- A block whose bus is the host's (46_queue_arb.md R265, after step 2). -/
def handedOver : State :=
  { State.powerOn { duo with fonts := [[]], asset := [] } with
    arb := true, scanen := true, se := .checkArb, sched := [.scan, .primary, .tick 3, .scan]
    hostOps := [.read 1, .write 4 0x0003] }

theorem witness_DecodeOfEncodeIsTheCommand :
    (Instr.string [0x41, 0x42]).wellFormed = true ∧ (Instr.rect true 1 2 3 4 5 6).wellFormed = true := by decide

theorem witness_DecodeTakesTheCommandLength :
    decode [0x2100, 0x4241, 0x0000, 7] = .ok (.string [0x41, 0x42], [7]) ∧
    decode [0x09AB, 5] = .error (.illegalOpcode 0x09) ∧
    decode [0x1000] = .error .incomplete ∧ commandLength 0x1000 [] = some 2 := by decide

theorem witness_IgnoredFieldsHaveNoEffect :
    (0x21 : Byte) ∈ ([0x00, 0x04, 0x05, 0x06, 0x10, 0x11, 0x12, 0x13, 0x16, 0x21, 0x40, 0x41] : List Byte) ∧
    (0x01 : Byte).getLsbD 0 = (0xFF : Byte).getLsbD 0 := by decide

/-- The ends of each range of illegal opcodes. -/
theorem witness_IllegalHeaderOnlySetsIll :
    (block solo 1 1 0).cmdbuf = [] ∧
    (opField 0x0800 = 8 ∧ opField 0x0FFF = 15) ∧ (opField 0x1700 = 23 ∧ opField 0x1FFF = 31) ∧
    (opField 0x2200 = 34 ∧ opField 0x2FFF = 47) ∧ (opField 0x3100 = 49 ∧ opField 0x3FFF = 63) ∧
    (opField 0x4200 = 66 ∧ opField 0xFFFF = 255) := by decide +kernel

theorem witness_StepRunsTheDecodedCommand :
    decode [0x1000] = .error .incomplete ∧ decode ([0x1000] ++ [0xF800]) = .ok (.fill 0xF800, []) ∧
    decode ([0x1200] ++ [3]) = .error .incomplete ∧ decode [0x4100] = .ok (.waitkey, []) := by decide

theorem witness_HostIsStalledDuringACommand :
    decode ({ keys duo [] with cmdbuf := [0x4100] }).cmdbuf = .ok (.waitkey, []) ∧
    after (step ({ keys duo [] with cmdbuf := [0x4100] }.taking .primary)) = some { keys duo [] with cmdbuf := [0x4100] } := by
  decide +kernel

theorem busy_inv : busy.Inv where
  legal := by decide +kernel
  slots := by decide +kernel
  screen := ⟨plain 2 1 0x1234, by decide +kernel⟩
  current := ⟨plain 2 1 0x1234, by decide +kernel⟩
  sound := by
    intro n sf h
    have hs : ∀ m, busy.surf? m = if m = 0 then some (plain 2 1 0x1234) else none := by
      intro m
      match m with
      | 0 => decide +kernel
      | 1 => decide +kernel
      | 2 => decide +kernel
      | 3 => decide +kernel
      | k + 4 =>
        have : busy.surfaces[k + 4]? = none := List.getElem?_eq_none (by
          have : busy.surfaces.length = 4 := by decide +kernel
          omega)
        simp [State.surf?, this]
    rw [hs] at h
    split at h
    · cases h; exact ⟨by decide +kernel, by decide +kernel, by decide +kernel⟩
    · cases h
  capacity := by decide +kernel
  command := .inl (by decide +kernel)
  queue := ⟨by decide +kernel, by intro v hv; simp [busy] at hv; subst hv; exact ⟨true, 2, 3, by decide⟩⟩
  pending := by intro v hv; simp [busy] at hv; subst hv; exact ⟨false, 2, 3, by decide⟩
  scanact := by decide +kernel
  started := by intro _; decide +kernel
  single := by intro h; exact absurd h (by decide +kernel)
  rows := .inr ⟨2, by decide +kernel⟩
  frames := by decide +kernel

theorem busy_events : busy.EventsInOrder :=
  ⟨none, ⟨2, 3⟩, by decide +kernel, by decide +kernel, rfl⟩

theorem witness_EveryStepKeepsTheInvariant : busy.Inv ∧ ∃ t, step busy = .next t := ⟨busy_inv, _, rfl⟩

theorem witness_NoStepStops : busy.Inv := busy_inv

theorem witness_EveryStepKeepsTheEventsInOrder : busy.Inv ∧ busy.EventsInOrder ∧ ∃ t, step busy = .next t :=
  ⟨busy_inv, busy_events, _, rfl⟩

theorem witness_SurfaceSizeIsFixedAtCreation :
    (nextTurn busy).1 ≠ .reset ∧ (∃ t, step busy = .next t ∧ t.surf? 0 = some (plain 2 1 0x1234)) ∧
    busy.surf? 0 = some (plain 2 1 0x1234) := ⟨by decide +kernel, ⟨_, rfl, by decide +kernel⟩, by decide +kernel⟩

theorem witness_TransportHistoryOnlyGrows : (nextTurn busy).1 ≠ .reset ∧ ∃ t, step busy = .next t :=
  ⟨by decide +kernel, _, rfl⟩

theorem witness_IllIsClearedByResetOnly :
    (nextTurn { busy with ill := true }).1 ≠ .reset ∧ (∃ t, step { busy with ill := true } = .next t) ∧
    { busy with ill := true }.ill = true ∧ ∃ t, exec .nop busy = .next t := ⟨by decide +kernel, ⟨_, rfl⟩, rfl, _, rfl⟩

theorem handedOver_inv : handedOver.Inv where
  legal := by decide +kernel
  slots := by decide +kernel
  screen := ⟨Surface.fresh 4 3 0, by decide +kernel⟩
  current := ⟨Surface.fresh 4 3 0, by decide +kernel⟩
  sound := by
    intro n sf h
    have hs : ∀ m, handedOver.surf? m = if m = 0 then some (Surface.fresh 4 3 0) else none := by
      intro m
      match m with
      | 0 => decide +kernel
      | 1 => decide +kernel
      | 2 => decide +kernel
      | 3 => decide +kernel
      | k + 4 =>
        have : handedOver.surfaces[k + 4]? = none := List.getElem?_eq_none (by
          have : handedOver.surfaces.length = 4 := by decide +kernel
          omega)
        simp [State.surf?, this]
    rw [hs] at h
    split at h
    · cases h; exact ⟨by decide +kernel, by decide +kernel, by decide +kernel⟩
    · cases h
  capacity := by decide +kernel
  command := .inl (by decide +kernel)
  queue := ⟨by decide +kernel, fun v hv => absurd hv List.not_mem_nil⟩
  pending := by intro v hv; exact absurd hv (by simp [handedOver])
  scanact := by decide +kernel
  started := by intro _; decide +kernel
  single := by intro h; exact absurd h (by decide +kernel)
  rows := .inl (by decide +kernel)
  frames := by decide +kernel

theorem witness_BusHandshakeExcludesScans :
    handedOver.Inv ∧ handedOver.BusIsHosts ∧ handedOver.KeepsArb ∧ 4 ≤ handedOver.sched.length ∧
    (∀ turn ∈ handedOver.sched.take 4, turn ≠ .reset) ∧
    ∃ t, Host.Core.run Sys2Proof.core 4 handedOver = .next t := by
  refine ⟨handedOver_inv, by constructor <;> decide +kernel, ?_, by decide +kernel, by decide +kernel, _, rfl⟩
  intro v hv
  simp [handedOver] at hv
  subst hv
  decide

theorem witness_ResultRegistersAreWrittenByTheirCommandsOnly :
    (∃ t, exec .pollkey busy = .next t) ∧ (2 = 2 ∨ 2 = 3) ∧ decode busy.cmdbuf = .error .incomplete :=
  ⟨⟨_, rfl⟩, .inl rfl, by decide +kernel⟩

theorem witness_ResetTurnRestoresEverything : 1 ≤ busy.cfg.nSurf := by decide +kernel

theorem witness_NopChangesNothing : (block solo 1 1 0).cmdbuf = [] := by decide +kernel

/-- Failure by the screen's slot, a slot number at N_SURF, a slot in use, one cell too many; success at exactly CELL_CAP. -/
theorem witness_SurfnewCreatesOrReportsFailure :
    (block solo 4 3 0).surfaces.length = (block solo 4 3 0).cfg.nSurf ∧
    (block solo 4 3 0).cfg.nSurf ≤ (4 : Byte).toNat ∧
    (∃ sf, (block solo 4 3 0).surf? (0 : Byte).toNat = some sf) ∧
    (block solo 4 3 0).cfg.cellCap = some 20 ∧ 20 < (block solo 4 3 0).usedCells + (3 : Word).toNat * (7 : Word).toNat ∧
    (3 : Byte) ≠ 0 ∧ (3 : Byte).toNat < (block solo 4 3 0).cfg.nSurf ∧ (block solo 4 3 0).surf? (3 : Byte).toNat = none ∧
    (block solo 4 3 0).usedCells + (4 : Word).toNat * (5 : Word).toNat ≤ 20 :=
  ⟨by decide +kernel, by decide +kernel, ⟨plain 4 3 0, by decide +kernel⟩, by decide +kernel, by decide +kernel,
    by decide, by decide +kernel, by decide +kernel, by decide +kernel⟩

/-- Slot 3 allocated and current, slot 2 free. -/
def second : State :=
  let s := block solo 3 1 0
  { s with surfaces := s.surfaces.set 3 (some (plain 2 2 0x0100)), cur := 3 }

theorem witness_SurffreeDestroysOrReportsFailure :
    second.cfg.nSurf ≤ (4 : Byte).toNat ∧ second.surf? (2 : Byte).toNat = none ∧
    (3 : Byte) ≠ 0 ∧ (3 : Byte).toNat < second.cfg.nSurf ∧ second.surf? (3 : Byte).toNat = some (plain 2 2 0x0100) := by
  decide +kernel

theorem witness_SelectSwitchesOrReportsFailure :
    (3 : Byte).toNat < second.cfg.nSurf ∧ second.surf? (3 : Byte).toNat = some (plain 2 2 0x0100) ∧
    second.cfg.nSurf ≤ (4 : Byte).toNat ∧ second.surf? (2 : Byte).toNat = none := by decide +kernel

theorem witness_DrawingStateCommandsActOnTheCurrentSurface :
    second.current? = some (plain 2 2 0x0100) ∧ (0 : Byte).toNat < second.cfg.nFonts ∧
    second.cfg.nFonts ≤ (1 : Byte).toNat := by decide +kernel

/-- The one hypothesis of FILL, PIXEL, LINE, RECT, STRING and of LINE's and RECT's loops. -/
theorem witness_FillPaintsEveryCell : second.current? = some (plain 2 2 0x0100) := by decide +kernel

theorem witness_PixelPaintsItsCell : second.current? = some (plain 2 2 0x0100) := witness_FillPaintsEveryCell

theorem witness_GetpixAnswersTheTrueColour :
    second.current? = some (plain 2 2 0x0100) ∧ (1 : Word).toNat < (plain 2 2 0x0100).w.toNat ∧
    (1 : Word).toNat < (plain 2 2 0x0100).h.toNat ∧ (plain 2 2 0x0100).w.toNat ≤ (2 : Word).toNat := by decide +kernel

theorem witness_PixelThenGetpixRoundTrips :
    second.current? = some (plain 2 2 0x0100) ∧ (1 : Word).toNat < (plain 2 2 0x0100).w.toNat ∧
    (0 : Word).toNat < (plain 2 2 0x0100).h.toNat := by decide +kernel

theorem witness_LinePaintsItsPixels : second.current? = some (plain 2 2 0x0100) := witness_FillPaintsEveryCell

theorem witness_RectPaintsItsPixels : second.current? = some (plain 2 2 0x0100) := witness_FillPaintsEveryCell

theorem witness_LineAndRectAreTheLoopsOfTheirRules : second.current? = some (plain 2 2 0x0100) :=
  witness_FillPaintsEveryCell

theorem witness_CoveringFilledRectEqualsFill :
    second.current? = some (plain 2 2 0x0100) ∧ Memory.wf (plain 2 2 0x0100).mem ∧
    (plain 2 2 0x0100).w.toNat ≤ (2 : Word).toNat ∧ (plain 2 2 0x0100).h.toNat ≤ (0xFFFF : Word).toNat := by
  decide +kernel

theorem witness_OutlineIsItsFourLines :
    second.current? = some (plain 2 2 0x0100) ∧ Memory.wf (plain 2 2 0x0100).mem ∧ 1 ≤ (1 : Word).toNat ∧
    1 ≤ (3 : Word).toNat ∧ (5 : Word).toNat = (5 : Word).toNat + (1 : Word).toNat - 1 ∧
    (0xFFFF : Word).toNat = (0xFFFD : Word).toNat + (3 : Word).toNat - 1 := by decide +kernel

theorem witness_SpriteIsTheLoopOfItsRule :
    second.current? = some (plain 2 2 0x0100) ∧ (3 : Byte).toNat < second.cfg.nSurf ∧
    second.surf? (3 : Byte).toNat = some (plain 2 2 0x0100) ∧ second.cfg.nSurf ≤ (4 : Byte).toNat ∧
    second.surf? (2 : Byte).toNat = none := by decide +kernel

theorem witness_SpriteCopiesTheInBoundsPart :
    second.current? = some (plain 2 2 0x0100) ∧ (0 : Byte) ≠ second.cur ∧ (0 : Byte).toNat < second.cfg.nSurf ∧
    second.surf? (0 : Byte).toNat = some (plain 3 1 0) := by decide +kernel

theorem witness_SpriteOntoItselfAtTheOriginChangesNoByte :
    second.current? = some (plain 2 2 0x0100) ∧ second.cur.toNat < second.cfg.nSurf := by decide +kernel

/-- A font with an 'A', and one without. -/
theorem witness_CharNewlineAndAbsentGlyph :
    second.current? = some (plain 2 2 0x0100) ∧
    glyph second.cfg (plain 2 2 0x0100).font.toNat 0x41 = some ⟨3, 2, 514⟩ ∧
    glyph busy.cfg (plain 2 1 0x1234).font.toNat 0x41 = none ∧
    (0x7F : Byte) ≠ 0x0A ∧ glyph second.cfg (plain 2 2 0x0100).font.toNat 0x7F = none := by decide +kernel

theorem witness_CharBlendsItsGlyph :
    second.current? = some (plain 2 2 0x0100) ∧ (0x42 : Byte) ≠ 0x0A ∧
    glyph second.cfg (plain 2 2 0x0100).font.toNat 0x42 = some ⟨2, 3, 519⟩ := by decide +kernel

theorem witness_StringIsItsSequenceOfChars : second.current? = some (plain 2 2 0x0100) := witness_FillPaintsEveryCell

theorem witness_BlendInterpolatesEachChannel : 1 ≤ 1 ∧ 1 ≤ 14 ∧ 1 ≤ 14 ∧ 14 ≤ 14 := by decide

theorem witness_BitmapCompletesExactlyWhenItsLoopEnds :
    (8 : BitVec 32) ≠ 0 ∧ { second with cmdbuf := [0x1600, 0, 0, 8, 0] }.current? = some (plain 2 2 0x0100) ∧
    { second with cmdbuf := [0x1600, 0, 0, 8, 0] }.cmdbuf ≠ [] := by decide +kernel

/-- E4's bitmap alone in ASSET: the marker 0xFFFF stands at words 11 and 12, and neither word after them is 0. -/
def runOnly : State :=
  { second with cfg := { solo with asset := List.replicate 8 0 ++ [1, 4, 0, 0xFFFF, 0xFFFF, 4, 5] } }

theorem witness_BitmapEndsWhereEveryRunCounts :
    (8 : BitVec 32) ≠ 0 ∧ runOnly.current? = some (plain 2 2 0x0100) ∧
    (∀ i, 4 ≤ i → bitmapWord runOnly.cfg 8 i = bitmapWord runOnly.cfg 8 3 → bitmapWord runOnly.cfg 8 (i + 1) ≠ 0) := by
  refine ⟨by decide, by decide +kernel, fun i _ h => ?_⟩
  have h8 : (8 : BitVec 32).toNat = 8 := by decide
  have hm : bitmapWord runOnly.cfg 8 3 = 0xFFFF := by decide +kernel
  rw [hm] at h
  simp only [bitmapWord, h8, assetRead] at *
  generalize ha : (8 + i) % 4294967296 = a at h
  have hn : (8 + (i + 1)) % 4294967296 = (a + 1) % 4294967296 := by omega
  rw [hn]
  have hlen : runOnly.cfg.asset.length = 15 := by decide +kernel
  by_cases hlt : a < 15
  · interval_cases a <;> revert h <;> decide +kernel
  · rw [List.getD_eq_default _ _ (by omega)] at h
    exact absurd h (by decide)

theorem witness_BitmapWritesOnlyItsColumns :
    (44 : BitVec 32) ≠ 0 ∧ second.current? = some (plain 2 2 0x0100) := by decide +kernel

theorem witness_BitmapOfRunsDrawsAField :
    (30 : BitVec 32) ≠ 0 ∧ second.current? = some (plain 2 2 0x0100) ∧ bitmapWord second.cfg 30 1 ≠ 0 ∧
    (5 : Word) ≠ bitmapWord second.cfg 30 2 ∧
    (∀ k, k < (bitmapWord second.cfg 30 0).toNat →
      bitmapWord second.cfg 30 (4 + 3 * k) = bitmapWord second.cfg 30 3 ∧
      bitmapWord second.cfg 30 (4 + 3 * k + 1) = bitmapWord second.cfg 30 1 ∧
      bitmapWord second.cfg 30 (4 + 3 * k + 2) = 5) := by decide +kernel

theorem witness_BitmapOfLiteralsDrawsEachPixel :
    (37 : BitVec 32) ≠ 0 ∧ second.current? = some (plain 2 2 0x0100) ∧
    (∀ i, i < (bitmapWord second.cfg 37 0).toNat * (bitmapWord second.cfg 37 1).toNat →
      bitmapWord second.cfg 37 (4 + i) ≠ bitmapWord second.cfg 37 3) := by decide +kernel

/-- V-B9: the header is the last thing in ASSET; on a platform that does not follow the wrap, and on one that does. -/
theorem witness_BitmapOffTheEndHangsOrComesBack :
    second.cfg.bitmapWraps = false ∧ ∀ s ∈ [second, { second with cfg := { second.cfg with bitmapWraps := true } }],
      (44 : BitVec 32) ≠ 0 ∧ s.current? = some (plain 2 2 0x0100) ∧ bitmapWord s.cfg 44 0 ≠ 0 ∧
      bitmapWord s.cfg 44 1 ≠ 0 ∧ bitmapWord s.cfg 44 3 = 0 ∧
      s.cfg.assetWords ≤ (44 : BitVec 32).toNat + 4 ∧ (44 : BitVec 32).toNat + 5 < 4294967296 := by decide +kernel

theorem witness_PresentAppendsAWholeFrame :
    second.cfg.nSurf ≤ (4 : Byte).toNat ∧ second.surf? (2 : Byte).toNat = none ∧
    (3 : Byte).toNat < second.cfg.nSurf ∧ second.surf? (3 : Byte).toNat = some (plain 2 2 0x0100) := by decide +kernel

/-- The key on line 1, column 3; and no key. -/
theorem witness_ScanReportsTheLowestRowAndColumn :
    (keys solo [0x7F, 0x77]).matrix = [⟨0x7F, 0⟩, ⟨0x77, 0⟩] ++ [] ∧ ([⟨0x7F, 0⟩, ⟨0x77, 0⟩] : List KeySample).length = 1 + 1 ∧
    (0x77 : BitVec 7).getLsbD 3 = false ∧ (∀ j, j < 3 → (0x77 : BitVec 7).getLsbD j = true) ∧
    (keys solo open7).matrix = List.replicate 7 ⟨0x7F, 0⟩ ++ [] ∧
    (∀ a ∈ List.replicate 7 (⟨0x7F, 0⟩ : KeySample), a.colin = 0x7F) := by decide +kernel

/-- The keys of V-K3: (2, 3) is the lowest of them. -/
theorem witness_ScanOfAnIdealMatrixFindsTheLowestKey :
    (let closed : List (Fin 7 × Fin 7) := [(2, 5), (2, 3), (5, 0)]
     ({ keys solo [] with matrix := (List.finRange 7).map fun r => ⟨idealColin closed (selectRow r), 0⟩ }).matrix =
        (List.finRange 7).map (fun r => ⟨idealColin closed (selectRow r), 0⟩) ++ [] ∧
      (2, 3) ∈ closed ∧ (∀ k ∈ closed, 2 ≤ k.1) ∧ (∀ k ∈ closed, k.1 = 2 → 3 ≤ k.2)) := by decide +kernel

/-- A debounce state for the witnesses below. -/
def held (answers : List (BitVec 7)) : State := { keys solo answers with db := .pressed 2 3 0 }

theorem witness_PollFollowsTheDebounceRules :
    ((keys solo open7).db = .idle ∧ (scan (keys solo open7)).1 = none) ∧
    (scan (keys solo (closedAt 2 3 ++ closedAt 2 3))).1 = some ⟨2, 3⟩ ∧
    (rescan (scan (keys solo (closedAt 2 3 ++ closedAt 2 3))).2).1 = some ⟨2, 3⟩ ∧
    (rescan (scan (keys solo (closedAt 2 3 ++ open7))).2).1 ≠ some ⟨2, 3⟩ ∧
    ((held (closedAt 2 3)).db = .pressed 2 3 0 ∧ (scan (held (closedAt 2 3))).1 = some ⟨2, 3⟩) ∧
    (scan (held (closedAt 4 1))).1 = some ⟨4, 1⟩ ∧ (⟨4, 1⟩ : Key) ≠ ⟨2, 3⟩ ∧
    (scan (held (open7 ++ closedAt 2 3))).1 = none ∧
    (rescan (scan (held (open7 ++ closedAt 2 3))).2).1 = some ⟨2, 3⟩ ∧
    (rescan (scan (held (open7 ++ closedAt 4 1))).2).1 ≠ some ⟨2, 3⟩ := by decide +kernel

theorem witness_TimeRunsAndStampsThePress :
    (poll (keys solo (closedAt 2 3 ++ closedAt 2 3))).1 = some ⟨true, ⟨2, 3⟩⟩ := by decide +kernel

theorem witness_PollkeyPollsOnTheSingleContextBlock : (keys solo open7).cfg.multicore = false := by decide +kernel

theorem witness_KeyCommandsTakeTheOldestEvent :
    { keys duo [] with q := [0x8123, 0x8023] }.cfg.multicore = true ∧
    { keys duo [] with q := [0x8123, 0x8023] }.q = 0x8123 :: [0x8023] ∧ (keys duo []).q = [] := by decide +kernel

theorem witness_WaitkeyPollsUntilAPress :
    (held open7).cfg.multicore = false ∧ (held open7).db ≠ .idle ∧
    ((keys solo (closedAt 2 3 ++ closedAt 2 3)).db = .idle ∧
      (poll (keys solo (closedAt 2 3 ++ closedAt 2 3))).1 = some ⟨true, ⟨2, 3⟩⟩) ∧
    (poll (keys solo open7)).1 = none := by decide +kernel

/-- 31 events queued, and 32. -/
def queued (n : Nat) : State := { keys duo [] with q := List.replicate n 0x8123, se := .pushPending 0x8023, scanen := true }

theorem witness_ScanEngineFollowsItsStates :
    (keys duo []).cfg.multicore = true ∧ (keys duo []).se = .off ∧
    ({ keys duo [] with se := .checkArb }.se = .checkArb ∧ { keys duo [] with se := .checkArb }.arb = false) ∧
    { keys duo [] with se := .checkArb, arb := true }.arb = true ∧
    (poll { keys duo open7 with se := .inPoll }).1 = none ∧
    (poll { keys duo (closedAt 2 3 ++ closedAt 2 3) with se := .inPoll }).1 = some ⟨true, ⟨2, 3⟩⟩ ∧
    (queued 31).se = .pushPending 0x8023 ∧ (queued 31).q.length < 32 ∧ 32 ≤ (queued 32).q.length := by decide +kernel

theorem witness_RegisterAccessesHaveOnlyTheirEffects :
    decode busy.cmdbuf = .error .incomplete ∧ 5 ≠ 0 ∧ 5 ≠ 4 ∧ 9 ≤ 9 := by decide +kernel

theorem witness_KeyRegistersAreViews :
    (keys solo []).db = .idle ∧ (held []).db = .pressed 2 3 0 ∧ (keys solo []).cfg.multicore = false ∧
    (queued 32).cfg.multicore = true ∧ (queued 32).q.length ≤ 32 := by decide +kernel

theorem witness_CtrlWriteSetsArbAndStartsTheEngine : decode busy.cmdbuf = .error .incomplete := by decide +kernel

end Sys2Proof.Tests
end

section
/-! The inversion of a step (00_scope.md R5): what the primary context's turn, the scan engine's turn and the choice of the
next turn can change, each said once; and with it what a step does to the transport history and the parameters. -/

namespace Sys2Proof.Machine

/-! ### What one turn can change -/

/-- `t` is `s` with other values of what the host's accesses and the intake of a command's words change. -/
def HostFrame (s t : State) : Prop :=
  t = { s with
    cmdbuf := t.cmdbuf, ill := t.ill, arb := t.arb, scanen := t.scanen, hostOps := t.hostOps, busData := t.busData }

theorem HostFrame.trans {s t u : State} (h : HostFrame s t) (h' : HostFrame t u) : HostFrame s u := by
  unfold HostFrame at *; rw [h', h]

/-- The command engine executes a command from `CMDBUF` as it stands, or changes nothing but `CMDBUF` and `ILL`. -/
theorem runCommand_cases {s t : State} (h : runCommand s = .next t) :
    HostFrame s t ∨ ∃ i, exec i s = .next t := by
  unfold runCommand at h
  split at h
  · exact .inr ⟨_, h⟩
  · cases h; exact .inl rfl
  · cases h; exact .inl rfl

/-- An access of the host executes at most one command, the one that its write to CMD completes. -/
theorem hostAccess_cases {op : HostOp} {s t : State} (h : hostAccess op s = .next t) :
    HostFrame s t ∨ ∃ i u, HostFrame s u ∧ exec i u = .next t := by
  unfold hostAccess at h
  split at h
  case h_1 v =>
    have taken : HostFrame s { s with cmdbuf := s.cmdbuf ++ [v] } := rfl
    exact (runCommand_cases h).imp taken.trans fun ⟨i, hi⟩ => ⟨i, _, taken, hi⟩
  all_goals cases h; exact .inl rfl

/-- A turn of the primary context executes at most one command; all else it does is a host access. -/
theorem primaryTurn_cases {s t : State} (h : primaryTurn s = .next t) :
    HostFrame s t ∨ ∃ i u, HostFrame s u ∧ exec i u = .next t := by
  unfold primaryTurn at h
  split at h
  · exact (runCommand_cases h).imp_right fun ⟨i, hi⟩ => ⟨i, s, rfl, hi⟩
  · split at h
    case h_1 => cases h; exact .inl rfl
    case h_2 op rest _ =>
      have taken : HostFrame s { s with hostOps := rest } := rfl
      exact (hostAccess_cases h).imp taken.trans fun ⟨i, u, hu, hi⟩ => ⟨i, u, taken.trans hu, hi⟩

/-- `t` is `s` with other values of what the scan engine writes and of the inputs that its polls take (60_exceptions.md
R288). -/
def EngineFrame (s t : State) : Prop :=
  t = { s with
    db := t.db, q := t.q, se := t.se, scanact := t.scanact, time := t.time, rowsel := t.rowsel
    matrix := t.matrix, draws := t.draws }

theorem enginePoll_frame (s : State) : EngineFrame s (enginePoll s) := by
  have hp := poll_frame s
  unfold enginePoll
  cases hr : poll s with
  | mk event s1 =>
    rw [hr] at hp
    change PollFrame s s1 at hp
    unfold PollFrame at hp
    unfold EngineFrame
    cases event <;> (dsimp only; rw [hp])

theorem engineStep_frame (s : State) : EngineFrame s (engineStep s) := by
  unfold engineStep
  split
  · split
    case h_1 => split <;> rfl
    case h_2 => split <;> rfl
    case h_3 => exact enginePoll_frame s
    case h_4 => split <;> rfl
  · rfl

/-- Choosing the next turn takes it off the list, or draws a free one (log 1). -/
theorem nextTurn_frame (s : State) :
    (nextTurn s).2 = { s with sched := (nextTurn s).2.sched, draws := (nextTurn s).2.draws } := by
  unfold nextTurn
  split <;> rfl

@[simp] theorem State.resetBlock_cfg (s : State) : s.resetBlock.cfg = s.cfg := rfl

/-! ### The transport history -/

theorem State.onCurrent_tx {s t : State} {act : Surface → Surface} (h : s.onCurrent act = .next t) : t.tx = s.tx := by
  rcases s.onCurrent_cases act with ⟨sf, -, h2⟩ | ⟨-, h2⟩ <;> rw [h2] at h <;> cases h
  rfl

@[simp] theorem poll_tx (s : State) : (poll s).2.tx = s.tx := by
  have hp := poll_frame s
  unfold PollFrame at hp
  rw [hp]

@[simp] theorem State.pop_tx (s : State) : s.pop.2.tx = s.tx := by
  unfold State.pop
  split <;> rfl

@[simp] theorem waitPop_tx (s : State) : (waitPop s).tx = s.tx := by
  unfold waitPop
  split <;> rfl

@[simp] theorem waitPoll_tx (s : State) : (waitPoll s).tx = s.tx := by
  unfold waitPoll
  dsimp only
  split <;> simp

/-- What PRESENT answers (44_transport.md R205): nothing but its completion, or the frame of its slot appended. -/
theorem execPresent_cases (slot : Byte) (s : State) :
    execPresent slot s = .next s.retire ∨
      ∃ sf, s.surf? slot.toNat = some sf ∧ execPresent slot s = .next { s with tx := s.tx ++ [frameOf sf] }.retire := by
  unfold execPresent
  split
  · exact .inl rfl
  · split
    case h_1 => exact .inl rfl
    case h_2 sf hsf => exact .inr ⟨sf, hsf, rfl⟩

/-- PRESENT of an allocated slot appends its frame to `TX`; no other command touches the history (10_state.md R41). -/
theorem exec_tx {i : Instr} {s t : State} (h : exec i s = .next t) :
    t.tx = s.tx ∨ ∃ slot sf, i = .present slot ∧ s.surf? slot.toNat = some sf ∧ t.tx = s.tx ++ [frameOf sf] := by
  cases i with
  | present slot =>
    change execPresent slot s = .next t at h
    rcases execPresent_cases slot s with h2 | ⟨sf, hsf, h2⟩ <;> rw [h2] at h <;> cases h
    · exact .inl rfl
    · exact .inr ⟨slot, sf, rfl, hsf, rfl⟩
  | nop => cases h; exact .inl rfl
  | surfnew | surffree | select => cases h; left; split <;> rfl
  | getcur =>
    simp only [exec, execGetcur] at h
    split at h <;> cases h
    exact .inl rfl
  | getpix =>
    simp only [exec, execGetpix] at h
    split at h <;> cases h
    exact .inl rfl
  | bitmap x y p =>
    change execBitmap x y p s = .next t at h
    rcases execBitmap_cases x y p s with ⟨-, h2⟩ | ⟨-, -, h2⟩ | ⟨sf, r, -, -, -, ⟨-, h2⟩ | ⟨-, h2⟩⟩ <;> rw [h2] at h <;>
      cases h <;> exact .inl rfl
  | pollkey | waitkey => cases h; left; split <;> simp
  | setfont =>
    have htx := State.onCurrent_tx (s := s.setR0 _) h
    exact .inl htx
  | setcur | setfg | fill | pixel | line | rect | sprite | char | string => exact .inl (State.onCurrent_tx h)

/-- The parameters are those of `s`, and no frame of its history is missing or changed. -/
structure HistoryGrows (s t : State) : Prop where
  cfg : t.cfg = s.cfg
  tx : ∃ frames, t.tx = s.tx ++ frames

theorem HistoryGrows.of_eq {s t : State} (hcfg : t.cfg = s.cfg) (htx : t.tx = s.tx) : HistoryGrows s t :=
  ⟨hcfg, [], by simp [htx]⟩

theorem HistoryGrows.trans {s t u : State} (h : HistoryGrows s t) (h' : HistoryGrows t u) : HistoryGrows s u := by
  obtain ⟨hcfg, frames, htx⟩ := h
  obtain ⟨hcfg', frames', htx'⟩ := h'
  exact ⟨hcfg'.trans hcfg, frames ++ frames', by rw [htx', htx, List.append_assoc]⟩

theorem HostFrame.historyGrows {s t : State} (h : HostFrame s t) : HistoryGrows s t := by
  unfold HostFrame at h
  exact .of_eq (by rw [h]) (by rw [h])

theorem EngineFrame.historyGrows {s t : State} (h : EngineFrame s t) : HistoryGrows s t := by
  unfold EngineFrame at h
  exact .of_eq (by rw [h]) (by rw [h])

theorem nextTurn_historyGrows (s : State) : HistoryGrows s (nextTurn s).2 :=
  .of_eq (by rw [nextTurn_frame]) (by rw [nextTurn_frame])

theorem exec_historyGrows {i : Instr} {s t : State} (h : exec i s = .next t) : HistoryGrows s t where
  cfg := (exec_frame h).cfg
  tx := by
    rcases exec_tx h with htx | ⟨_, sf, -, -, htx⟩
    · exact ⟨[], by simp [htx]⟩
    · exact ⟨[frameOf sf], htx⟩

/-- Every turn but a reset keeps the parameters and the frames sent so far. -/
theorem takeTurn_historyGrows {turn : Turn} {s t : State} (hturn : turn ≠ .reset) (h : takeTurn turn s = .next t) :
    HistoryGrows s t := by
  cases turn with
  | primary =>
    rcases primaryTurn_cases h with hf | ⟨i, u, hf, hi⟩
    · exact hf.historyGrows
    · exact hf.historyGrows.trans (exec_historyGrows hi)
  | scan => cases h; exact (engineStep_frame s).historyGrows
  | tick ms => cases h; exact .of_eq rfl rfl
  | reset => exact absurd rfl hturn

/-- Settles O13: every turn but a reset extends the history, and a reset restores the parameters it found. -/
theorem transportHistoryOnlyGrows : Obligations.TransportHistoryOnlyGrows := by
  intro s t h
  have hnext := nextTurn_historyGrows s
  by_cases hreset : (nextTurn s).1 = .reset
  · have ht : (nextTurn s).2.resetBlock = t := by
      simpa [step, hreset, takeTurn] using h
    exact ⟨by rw [← ht, State.resetBlock_cfg, hnext.cfg], fun hne => absurd hreset hne⟩
  · obtain ⟨hcfg, htx⟩ := hnext.trans (takeTurn_historyGrows hreset h)
    exact ⟨hcfg, fun _ => htx⟩

end Sys2Proof.Machine
end

section
/-! PIXEL and GETPIX on the current surface (41_rasterizer.md R142 to R146). -/

namespace Sys2Proof.Machine

/-- A pixel inside the surface reads as the colour drawn there: the swap of R142 is undone by that of R144. -/
theorem Surface.getPixel_drawPixel_same (sf : Surface) {x y : Nat} (h : sf.inside x y = true) (c : Word) :
    (sf.drawPixel x y c).getPixel x y = c := by
  have hcell : (sf.drawPixel x y c).cellRead (sf.index x y) = bswap16 c :=
    (sf.drawPixel_paints x y c).painted x y h ⟨rfl, rfl⟩
  simp [Surface.getPixel, h, hcell]

theorem execPixel_some {s : State} {sf : Surface} (h : s.current? = some sf) (x y c : Word) :
    execPixel x y c s = .next (s.withCurrent (sf.drawPixel x.toNat y.toNat c)) := s.onCurrent_some h _

theorem execGetpix_some {s : State} {sf : Surface} (h : s.current? = some sf) (x y : Word) :
    execGetpix x y s = .next (s.setR0 (sf.getPixel x.toNat y.toNat)).retire := by simp only [execGetpix, h]

/-- Settles O27: GETPIX reads the surface that PIXEL left current. -/
theorem pixelThenGetpixRoundTrips : Obligations.PixelThenGetpixRoundTrips := by
  intro x y c s sf hcur hx hy
  have hdrawn := s.withCurrent_current? hcur (sf.drawPixel x.toNat y.toNat c)
  exact ⟨_, _, execPixel_some hcur x y c, execGetpix_some hdrawn x y,
    sf.getPixel_drawPixel_same ((sf.inside_iff).2 ⟨hx, hy⟩) c⟩

end Sys2Proof.Machine
end

section
/-! What a decoded command leaves of the word stream (30_encoding.md R100), and from it what `CMDBUF` can hold when a command
runs: its own words and no more (10_state.md R29). -/

namespace Sys2Proof.Machine

/-- STRING's bytes are decided by the words up to its terminator. -/
theorem decodeString_split {ws rest : List Word} {bytes : List Byte} (h : decodeString ws = some (bytes, rest)) :
    ∃ pre, ws = pre ++ rest ∧ ∀ more, decodeString (pre ++ more) = some (bytes, more) := by
  induction ws generalizing bytes with
  | nil => simp [decodeString] at h
  | cons w ws ih =>
    rw [decodeString] at h
    split at h
    case isTrue hlow =>
      cases h
      exact ⟨[w], rfl, fun more => if_pos hlow⟩
    case isFalse hlow =>
      split at h
      case isTrue hhigh =>
        cases h
        exact ⟨[w], rfl, fun more => (if_neg hlow).trans (if_pos hhigh)⟩
      case isFalse hhigh =>
        obtain ⟨⟨tail, rest'⟩, htail, heq⟩ := Option.map_eq_some_iff.1 h
        cases heq
        obtain ⟨pre, rfl, hpre⟩ := ih htail
        exact ⟨w :: pre, rfl, fun more => by
          rw [List.cons_append, decodeString, if_neg hlow, if_neg hhigh, hpre, Option.map_some]⟩

/-- The operands of a command are decided by the words that it takes. -/
theorem decodeBody_split {op : Nat} {a : Byte} {ws rest : List Word} {i : Instr}
    (h : decodeBody op a ws = .ok (i, rest)) :
    ∃ pre, ws = pre ++ rest ∧ ∀ more, decodeBody op a (pre ++ more) = .ok (i, more) := by
  unfold decodeBody at h
  split at h
  case h_1 | h_3 | h_4 | h_6 | h_8 | h_16 | h_18 | h_19 | h_20 =>
    cases h; exact ⟨[], rfl, fun _ => rfl⟩
  case h_7 | h_9 => split at h <;> cases h; exact ⟨[_], rfl, fun _ => rfl⟩
  case h_2 | h_5 | h_11 | h_14 => split at h <;> cases h; exact ⟨[_, _], rfl, fun _ => rfl⟩
  case h_10 => split at h <;> cases h; exact ⟨[_, _, _], rfl, fun _ => rfl⟩
  case h_15 => split at h <;> cases h; exact ⟨[_, _, _, _], rfl, fun _ => rfl⟩
  case h_12 => split at h <;> cases h; exact ⟨[_, _, _, _, _], rfl, fun _ => rfl⟩
  case h_13 => split at h <;> cases h; exact ⟨[_, _, _, _, _, _], rfl, fun _ => rfl⟩
  case h_17 =>
    split at h <;> cases h
    case h_1 hstring =>
      obtain ⟨pre, hws, hpre⟩ := decodeString_split hstring
      exact ⟨pre, hws, fun more => by simp [decodeBody, hpre]⟩
  case h_21 => cases h

/-- A decoded command is decided by the words that it takes (R100). -/
theorem decode_split {ws rest : List Word} {i : Instr} (h : decode ws = .ok (i, rest)) :
    ∃ pre, ws = pre ++ rest ∧ ∀ more, decode (pre ++ more) = .ok (i, more) := by
  cases ws with
  | nil => cases h
  | cons header ws =>
    obtain ⟨pre, hws, hpre⟩ := decodeBody_split h
    exact ⟨header :: pre, by rw [hws]; rfl, hpre⟩

/-- The word that completes a command is its last (R29, R323). -/
theorem rest_eq_nil_of_completed {ws rest : List Word} {v : Word} {i : Instr} (hwait : decode ws = .error .incomplete)
    (h : decode (ws ++ [v]) = .ok (i, rest)) : rest = [] := by
  obtain ⟨pre, hws, hpre⟩ := decode_split h
  cases rest using List.reverseRecOn with
  | nil => rfl
  | append_singleton rest' last =>
    have hshort : ws = pre ++ rest' := by
      rw [← List.append_assoc] at hws
      exact (List.append_inj' hws rfl).1
    rw [hshort, hpre rest'] at hwait
    cases hwait

/-- `CMDBUF` holds no word beyond those of its command. -/
def ExactCommand (ws : List Word) : Prop := ∀ i rest, decode ws = .ok (i, rest) → rest = []

theorem CommandBufferSound.exact {ws : List Word} (h : CommandBufferSound ws) : ExactCommand ws := by
  intro i rest hi
  rcases h with h | h | ⟨x, y, p, h⟩ <;> rw [h] at hi <;> cases hi <;> rfl

/-- Where no command is in progress, sound words are a proper beginning of one. -/
theorem CommandBufferSound.incomplete {s : State} (h : CommandBufferSound s.cmdbuf) (hidle : inProgress s = false) :
    decode s.cmdbuf = .error .incomplete := by
  rcases h with h | h | ⟨x, y, p, h⟩
  · exact h
  all_goals simp [inProgress, h] at hidle

end Sys2Proof.Machine
end

section
/-! What every command does to `CMDBUF`, the result registers, `Q` and ROWSEL, said once (10_state.md R29, R30, R37, R40). -/

namespace Sys2Proof.Machine

/-! ### The key scanner's part -/

/-- A poll ends with a scan, which leaves exactly one row line selected (45_keyscan.md R221). -/
theorem poll_rowsel (s : State) : ∃ r, (poll s).2.rowsel = selectRow r := by
  have one := scan_rowsel s
  have two : ∃ r, (rescan (scan s).2).2.rowsel = selectRow r := scan_rowsel _
  rcases poll_cases s with ⟨-, ⟨-, h⟩ | ⟨k, -, ⟨-, h⟩ | ⟨-, h⟩⟩⟩ |
    ⟨row, col, t, -, ⟨-, h⟩ | ⟨-, -, h⟩ | ⟨-, -, h⟩ | ⟨-, -, h⟩⟩ <;> rw [h]
  · exact one
  · exact two
  · exact two
  · exact one
  · exact one
  · exact two
  · exact two

@[simp] theorem poll_result1 (s : State) : (poll s).2.result1 = s.result1 := by
  have hp := poll_frame s
  unfold PollFrame at hp
  rw [hp]

@[simp] theorem poll_q (s : State) : (poll s).2.q = s.q := by
  have hp := poll_frame s
  unfold PollFrame at hp
  rw [hp]

@[simp] theorem poll_cmdbuf (s : State) : (poll s).2.cmdbuf = s.cmdbuf := by
  have hp := poll_frame s
  unfold PollFrame at hp
  rw [hp]

/-! ### What a command writes -/

/-- Whether R30 names the command as one that writes RESULT0. -/
def writesResult0 (i : Instr) : Bool :=
  match i with
  | .surfnew _ _ _ | .surffree _ | .select _ | .getcur | .setfont _ | .getpix _ _ | .pollkey | .waitkey => true
  | _ => false

/-- Whether the command can stay in progress when its turn ends (43_bitmap.md R197, 45_keyscan.md R227, 46_queue_arb.md
R252). -/
def mayStall (i : Instr) : Bool :=
  match i with
  | .bitmap _ _ _ | .waitkey => true
  | _ => false

/-- What command `i` does to `CMDBUF`, the result registers, `Q` and ROWSEL: it completes or, where it may, stays as it is;
it writes the result registers that R30 gives it; it takes events from the head of `Q` only; and it scans or does not. -/
structure CommandEffect (i : Instr) (s t : State) : Prop where
  cmdbuf : t.cmdbuf = [] ∨ (mayStall i = true ∧ t.cmdbuf = s.cmdbuf)
  result0 : writesResult0 i = false → t.result0 = s.result0
  result1 : i ≠ .getcur → t.result1 = s.result1
  q : t.q <:+ s.q
  rowsel : t.rowsel = s.rowsel ∨ ∃ r, t.rowsel = selectRow r

variable {i : Instr} {s t : State}

/-- The effect of a completed command that leaves `Q` and ROWSEL alone. -/
theorem CommandEffect.of_eq (hcmdbuf : t.cmdbuf = []) (h0 : writesResult0 i = false → t.result0 = s.result0)
    (h1 : i ≠ .getcur → t.result1 = s.result1) (hq : t.q = s.q) (hrowsel : t.rowsel = s.rowsel) : CommandEffect i s t :=
  ⟨.inl hcmdbuf, h0, h1, hq ▸ List.suffix_rfl, .inl hrowsel⟩

theorem CommandEffect.retire : CommandEffect i s s.retire := .of_eq rfl (fun _ => rfl) (fun _ => rfl) rfl rfl

theorem CommandEffect.onCurrent {act : Surface → Surface} (h : s.onCurrent act = .next t) : CommandEffect i s t := by
  rcases s.onCurrent_cases act with ⟨sf, -, h2⟩ | ⟨-, h2⟩ <;> rw [h2] at h <;> cases h
  exact .of_eq rfl (fun _ => rfl) (fun _ => rfl) rfl rfl

theorem CommandEffect.pollkey (s : State) (v : Word) : CommandEffect .pollkey s ((poll s).2.setR0 v).retire :=
  ⟨.inl rfl, nofun, fun _ => by simp, by simp, .inr (by simpa using poll_rowsel s)⟩

theorem CommandEffect.waitPoll (s : State) : CommandEffect .waitkey s (waitPoll s) := by
  unfold Machine.waitPoll
  dsimp only
  split
  · exact ⟨.inr ⟨rfl, poll_cmdbuf s⟩, nofun, fun _ => by simp, by simp, .inr (poll_rowsel s)⟩
  · exact ⟨.inl rfl, nofun, fun _ => by simp, by simp, .inr (by simpa using poll_rowsel s)⟩

/-- What every command does to `CMDBUF`, the result registers, `Q` and ROWSEL. -/
theorem exec_effect (h : exec i s = .next t) : CommandEffect i s t := by
  cases i with
  | nop => cases h; exact .retire
  | surfnew | surffree | select =>
    cases h
    split <;> exact .of_eq rfl nofun (fun _ => rfl) rfl rfl
  | getcur =>
    simp only [exec, execGetcur] at h
    split at h <;> cases h
    exact .of_eq rfl nofun (fun hne => absurd rfl hne) rfl rfl
  | getpix =>
    simp only [exec, execGetpix] at h
    split at h <;> cases h
    exact .of_eq rfl nofun (fun _ => rfl) rfl rfl
  | setfont f =>
    have effect : CommandEffect (.setfont f) (s.setR0 _) t := CommandEffect.onCurrent h
    exact ⟨effect.cmdbuf, nofun, effect.result1, effect.q, effect.rowsel⟩
  | bitmap x y p =>
    change execBitmap x y p s = .next t at h
    rcases execBitmap_cases x y p s with ⟨-, h2⟩ | ⟨-, -, h2⟩ | ⟨sf, r, -, -, -, ⟨-, h2⟩ | ⟨-, h2⟩⟩ <;> rw [h2] at h <;>
      cases h
    · exact .retire
    · exact .of_eq rfl (fun _ => rfl) (fun _ => rfl) rfl rfl
    · exact ⟨.inr ⟨rfl, rfl⟩, fun _ => rfl, fun _ => rfl, List.suffix_rfl, .inl rfl⟩
  | present slot =>
    change execPresent slot s = .next t at h
    rcases execPresent_cases slot s with h2 | ⟨sf, -, h2⟩ <;> rw [h2] at h <;> cases h
    · exact .retire
    · exact .of_eq rfl (fun _ => rfl) (fun _ => rfl) rfl rfl
  | pollkey =>
    cases h
    split
    · unfold State.pop
      split
      case h_1 => exact .of_eq rfl nofun (fun _ => rfl) rfl rfl
      case h_2 ev rest hq => exact ⟨.inl rfl, nofun, fun _ => rfl, hq ▸ List.suffix_cons ev rest, .inl rfl⟩
    · exact .pollkey s _
  | waitkey =>
    cases h
    split
    · unfold waitPop
      split
      case h_1 => exact ⟨.inr ⟨rfl, rfl⟩, nofun, fun _ => rfl, List.suffix_rfl, .inl rfl⟩
      case h_2 ev rest hq => exact ⟨.inl rfl, nofun, fun _ => rfl, hq ▸ List.suffix_cons ev rest, .inl rfl⟩
    · exact .waitPoll s
  | setcur | setfg | fill | pixel | line | rect | sprite | char | string => exact .onCurrent h

end Sys2Proof.Machine
end

section
/-! What a command does to one slot of the surface table, read off `TableStep`, and from it that no step but a reset resizes a
surface (10_state.md R21) and that every command keeps the table sound (R22 to R24). -/

namespace Sys2Proof.Machine

/-! ### One slot -/

/-- `canCreate` in the words of R122. -/
theorem canCreate_iff {s : State} {n : Nat} {w h : Word} :
    canCreate s n w h = true ↔
      n ≠ 0 ∧ n < s.cfg.nSurf ∧ s.surf? n = none ∧ fitsCells s (w.toNat * h.toNat) = true := by
  simp [canCreate, and_assoc]

/-- What slot `n` holds after a write of slot `m`. -/
theorem State.surf?_of_set {s t : State} {m n : Nat} {o : Option Surface} {sf : Surface}
    (table : t.surfaces = s.surfaces.set m o) (h : t.surf? n = some sf) :
    (n = m ∧ o = some sf) ∨ (n ≠ m ∧ s.surf? n = some sf) := by
  rw [State.surf?_congr (s := s.setSlot m o) table] at h
  by_cases hn : n = m
  · subst hn
    have hlt : n < s.surfaces.length := by simpa using State.lt_of_surf? _ h
    exact .inl ⟨rfl, (s.surf?_setSlot_same hlt o).symm.trans h⟩
  · exact .inr ⟨hn, (s.surf?_setSlot_other (Ne.symm hn) o).symm.trans h⟩

/-- Where a surface that stands after a command comes from: it stood in its slot before and evolved, or it is new in a free
slot. -/
theorem TableStep.surf?_after {s t : State} (step : TableStep s t) {n : Nat} {sf' : Surface} (h : t.surf? n = some sf') :
    (∃ sf, s.surf? n = some sf ∧ sf.Evolves s.cfg sf') ∨
      (s.surf? n = none ∧ ∃ w h gen, sf' = Surface.fresh w h gen) := by
  have stays (hs : s.surf? n = some sf') : ∃ sf, s.surf? n = some sf ∧ sf.Evolves s.cfg sf' := ⟨sf', hs, .refl sf'⟩
  cases step with
  | same table => exact .inl (stays ((State.surf?_congr table n).symm.trans h))
  | draw sf drawn current table evolves =>
    rcases State.surf?_of_set table h with ⟨rfl, hsf⟩ | ⟨-, hs⟩
    · cases hsf; exact .inl ⟨sf, current, evolves⟩
    · exact .inl (stays hs)
  | create m w hh gen can table =>
    rcases State.surf?_of_set table h with ⟨rfl, hsf⟩ | ⟨-, hs⟩
    · cases hsf; exact .inr ⟨(canCreate_iff.1 can).2.2.1, w, hh, gen, rfl⟩
    · exact .inl (stays hs)
  | destroy m sf notScreen held table =>
    rcases State.surf?_of_set table h with ⟨-, hsf⟩ | ⟨-, hs⟩
    · cases hsf
    · exact .inl (stays hs)

/-- Where a surface goes that stands before a command: it stays in its slot and evolves, or SURFFREE destroyed it, which
leaves it neither the screen nor current. -/
theorem TableStep.surf?_before {s t : State} (step : TableStep s t) {n : Nat} {sf : Surface} (h : s.surf? n = some sf) :
    (∃ sf', t.surf? n = some sf' ∧ sf.Evolves s.cfg sf') ∨
      (n ≠ 0 ∧ t.cur.toNat ≠ n) := by
  have written : ∀ {m o}, t.surfaces = s.surfaces.set m o → m ≠ n → t.surf? n = some sf := fun table hm =>
    (State.surf?_congr (s := s.setSlot _ _) table n).trans ((s.surf?_setSlot_other hm _).trans h)
  cases step with
  | same table => exact .inl ⟨sf, (State.surf?_congr table n).trans h, .refl sf⟩
  | draw old drawn current table evolves =>
    by_cases hn : s.cur.toNat = n
    · subst hn
      obtain rfl : old = sf := Option.some.inj (current.symm.trans h)
      exact .inl ⟨drawn, (State.surf?_congr (s := s.setSlot _ _) table _).trans
        (s.surf?_setSlot_same (s.lt_of_surf? h) _), evolves⟩
    · exact .inl ⟨sf, written table hn, .refl sf⟩
  | create m w hh gen can table =>
    have hfree : s.surf? m = none := (canCreate_iff.1 can).2.2.1
    exact .inl ⟨sf, written table (fun hm => by rw [hm, h] at hfree; cases hfree), .refl sf⟩
  | destroy m old notScreen held table cur =>
    by_cases hn : m.toNat = n
    · refine .inr ⟨fun h0 => notScreen (BitVec.eq_of_toNat_eq (hn.trans h0)), fun hc => ?_⟩
      have hcur : t.cur = m := BitVec.eq_of_toNat_eq (hc.trans hn.symm)
      rw [cur] at hcur
      split at hcur
      · exact notScreen hcur.symm
      · rename_i hne; exact hne hcur
    · exact .inl ⟨sf, written table hn, .refl sf⟩

/-! ### The size of a surface -/

/-- A surface that stands in one slot before and after has one size. -/
def SameSizes (s t : State) : Prop :=
  ∀ n sf sf', s.surf? n = some sf → t.surf? n = some sf' → sf'.w = sf.w ∧ sf'.h = sf.h

theorem SameSizes.of_table {s t : State} (h : t.surfaces = s.surfaces) : SameSizes s t := by
  intro n sf sf' hs ht
  obtain rfl : sf = sf' := Option.some.inj (hs.symm.trans ((State.surf?_congr h n).symm.trans ht))
  exact ⟨rfl, rfl⟩

theorem TableStep.sameSizes {s t : State} (step : TableStep s t) : SameSizes s t := by
  intro n sf sf' hs ht
  rcases step.surf?_after ht with ⟨old, hold, evolves⟩ | ⟨hfree, -⟩
  · obtain rfl : old = sf := Option.some.inj (hold.symm.trans hs)
    obtain ⟨hw, hh, -⟩ := evolves.buffer
    exact ⟨hw, hh⟩
  · rw [hs] at hfree; cases hfree

theorem HostFrame.surfaces {s t : State} (h : HostFrame s t) : t.surfaces = s.surfaces := by
  unfold HostFrame at h
  rw [h]

theorem EngineFrame.surfaces {s t : State} (h : EngineFrame s t) : t.surfaces = s.surfaces := by
  unfold EngineFrame at h
  rw [h]

@[simp] theorem nextTurn_surfaces (s : State) : (nextTurn s).2.surfaces = s.surfaces := by rw [nextTurn_frame]

/-- Every turn but a reset keeps the sizes of the surfaces that stay. -/
theorem takeTurn_sameSizes {turn : Turn} {s t : State} (hturn : turn ≠ .reset) (h : takeTurn turn s = .next t) :
    SameSizes s t := by
  cases turn with
  | primary =>
    rcases primaryTurn_cases h with hf | ⟨i, u, hf, hi⟩
    · exact .of_table hf.surfaces
    · intro n sf sf' hs ht
      exact (exec_table hi).sameSizes n sf sf' ((State.surf?_congr hf.surfaces n).trans hs) ht
  | scan => cases h; exact .of_table (engineStep_frame s).surfaces
  | tick ms => cases h; exact .of_table rfl
  | reset => exact absurd rfl hturn

/-- Settles O12: a command changes a surface only by drawing, which keeps its size, and a slot made anew was free. -/
theorem surfaceSizeIsFixedAtCreation : Obligations.SurfaceSizeIsFixedAtCreation := by
  intro s t n sf sf' hturn h hs ht
  exact takeTurn_sameSizes hturn h n sf sf' ((State.surf?_congr (nextTurn_surfaces s) n).trans hs) ht

end Sys2Proof.Machine
end

section
/-! The reset state (10_state.md R43, 70_reset_and_hazards.md R311): what a reset turn leaves, and that it meets the
invariant. -/

namespace Sys2Proof.Machine

theorem platform_legal : Config.platform.Legal := by
  unfold Config.platform
  split
  · assumption
  · decide

/-- A surface as created is sound, since font 0 exists (00_scope.md R4). -/
theorem Surface.fresh_sound {cfg : Config} (hlegal : cfg.Legal) (w h : Word) (gen : Nat) :
    (Surface.fresh w h gen).Sound cfg where
  wf := Memory.wf_nil
  bytes := by simp [Surface.fresh]
  font := by
    obtain ⟨-, ⟨hfonts, -⟩, -⟩ := hlegal
    exact hfonts

namespace State

variable (s : State)

@[simp] theorem resetBlock_surf?_zero :
    s.resetBlock.surf? 0 = some (Surface.fresh s.cfg.screenW s.cfg.screenH s.draws) := rfl

/-- After a reset the screen is the only surface (R43). -/
theorem resetBlock_surf?_of_pos {n : Nat} (hn : 1 ≤ n) : s.resetBlock.surf? n = none := by
  obtain ⟨m, rfl⟩ := Nat.exists_eq_add_of_le' hn
  simp only [surf?, resetBlock, List.getElem?_cons_succ, List.getElem?_replicate]
  by_cases hm : m < s.cfg.nSurf - 1 <;> simp [hm]

theorem resetBlock_slots (hslots : 1 ≤ s.cfg.nSurf) : s.resetBlock.surfaces.length = s.cfg.nSurf := by
  simp only [resetBlock, List.length_cons, List.length_replicate]
  omega

/-- No slot but the screen's holds a cell after a reset. -/
@[simp] theorem resetBlock_usedCells : s.resetBlock.usedCells = 0 := by simp [usedCells, resetBlock]

/-- A reset meets the invariant, whatever the state it comes in. -/
theorem resetBlock_inv (hlegal : s.cfg.Legal) : s.resetBlock.Inv where
  legal := hlegal
  slots := s.resetBlock_slots hlegal.1.1
  screen := ⟨_, s.resetBlock_surf?_zero, rfl, rfl⟩
  current := ⟨_, s.resetBlock_surf?_zero⟩
  sound := by
    intro n sf hsf
    rcases Nat.eq_zero_or_pos n with rfl | hn
    · cases hsf; exact Surface.fresh_sound hlegal _ _ _
    · rw [s.resetBlock_surf?_of_pos hn] at hsf; cases hsf
  capacity := by
    unfold fitsCells
    split <;> simp
  command := .inl rfl
  queue := ⟨Nat.zero_le _, nofun⟩
  pending := nofun
  scanact := ⟨nofun, nofun⟩
  started := fun h => absurd rfl h
  single := fun _ => ⟨rfl, rfl, rfl⟩
  rows := .inl rfl
  frames := nofun

/-- Power-on is a reset before any free value has been drawn. -/
theorem powerOn_eq_resetBlock (cfg : Config) : powerOn cfg = { powerOn cfg with draws := 0 }.resetBlock := rfl

end State

/-- Settles O8: the reset state is that of a reset turn on a legal platform, with no event queued or in flight. -/
theorem resetStateIsSound : Obligations.ResetStateIsSound := by
  refine ⟨?_, none, rfl⟩
  rw [State.reset, State.powerOn_eq_resetBlock]
  exact State.resetBlock_inv _ platform_legal

/-- A step whose next turn is `turn` is that turn. -/
theorem step_taking (s : State) (turn : Turn) : step (s.taking turn) = takeTurn turn s := rfl

/-- Settles O18: the table of R43, read off the state that a reset turn leaves. -/
theorem resetTurnRestoresEverything : Obligations.ResetTurnRestoresEverything := by
  intro s hslots
  refine ⟨s.resetBlock, _, step_taking s .reset, s.resetBlock_surf?_zero, rfl, rfl, rfl, rfl, rfl, rfl,
    fun n hn => s.resetBlock_surf?_of_pos hn, s.resetBlock_slots hslots, ?_⟩
  simp [State.resetBlock, State.powerOn]

end Sys2Proof.Machine
end

section
/-! Every step keeps the invariant of the whole machine. The invariant but for `CMDBUF` is that of the state with `CMDBUF`
emptied, `s.retire.Inv`: it holds while a command runs from words that are no longer a proper beginning. -/

namespace Sys2Proof.Machine

/-! ### The cells of the surface table (40_surface_mgmt.md R122) -/

/-- The cells of a slot. -/
def slotCells (o : Option Surface) : Nat := o.elim 0 Surface.cells

theorem State.usedCells_eq (s : State) : s.usedCells = ((s.surfaces.drop 1).map slotCells).sum := by
  unfold State.usedCells
  congr 2
  funext o
  cases o <;> rfl

/-- Replacing an entry by one that weighs at most `k` more makes the list weigh at most `k` more. -/
theorem sum_map_set_le {α : Type} (f : α → Nat) (l : List α) (n : Nat) (a : α) (k : Nat)
    (h : ∀ old, l[n]? = some old → f a ≤ f old + k) : ((l.set n a).map f).sum ≤ (l.map f).sum + k := by
  induction l generalizing n with
  | nil => simp
  | cons b l ih =>
    cases n with
    | zero =>
      have := h b rfl
      simp only [List.set_cons_zero, List.map_cons, List.sum_cons]
      omega
    | succ n =>
      have := ih n h
      simp only [List.set_cons_succ, List.map_cons, List.sum_cons]
      omega

/-- A slot write that puts at most `k` cells more into its slot uses at most `k` cells more. -/
theorem usedCells_set_le {s t : State} {n k : Nat} {o : Option Surface} (table : t.surfaces = s.surfaces.set n o)
    (h : ∀ old, s.surfaces[n]? = some old → slotCells o ≤ slotCells old + k) : t.usedCells ≤ s.usedCells + k := by
  rw [State.usedCells_eq, State.usedCells_eq, table]
  cases hl : s.surfaces with
  | nil => simp
  | cons screen rest =>
    rw [hl] at h
    cases n with
    | zero => simp
    | succ n => exact sum_map_set_le slotCells rest n o k h

theorem fitsCells_iff {s : State} {n : Nat} :
    fitsCells s n = true ↔ ∀ cap, s.cfg.cellCap = some cap → s.usedCells + n ≤ cap := by
  unfold fitsCells
  split <;> simp_all

/-- A command uses no more cells than before, or as many more as R122 has found to fit. -/
theorem TableStep.fits {s t : State} (step : TableStep s t) (hcfg : t.cfg = s.cfg) (h : fitsCells s 0 = true) :
    fitsCells t 0 = true := by
  have bound {k : Nat} (hfits : fitsCells s k = true) (hle : t.usedCells ≤ s.usedCells + k) : fitsCells t 0 = true := by
    rw [fitsCells_iff] at hfits ⊢
    intro cap hcap
    have := hfits cap (hcfg ▸ hcap)
    omega
  cases step with
  | same table => exact bound h (by rw [State.usedCells_eq, State.usedCells_eq, table]; omega)
  | draw sf drawn current table evolves =>
    refine bound h (usedCells_set_le table fun old hold => ?_)
    obtain rfl : some sf = old := Option.some.inj (((s.surf?_eq_some).1 current).symm.trans hold)
    exact le_of_eq evolves.cells
  | create n w hh gen can table =>
    exact bound (canCreate_iff.1 can).2.2.2 (usedCells_set_le table fun old _ => Nat.le_add_left _ (slotCells old))
  | destroy n sf notScreen held table =>
    exact bound h (usedCells_set_le table fun old _ => Nat.zero_le _)

/-! ### A command keeps the table and the history sound -/

/-- After a command `CUR` names a slot that held a surface before it: the slot it named, the screen, or the one selected. -/
theorem TableStep.cur_held {s t : State} (step : TableStep s t) (hscreen : ∃ sf, s.surf? 0 = some sf)
    (hcurrent : ∃ sf, s.current? = some sf) : ∃ sf, s.surf? t.cur.toNat = some sf := by
  cases step with
  | same _ cur => exact cur.elim (fun hcur => hcur ▸ hcurrent) id
  | draw _ _ _ _ _ cur => exact cur ▸ hcurrent
  | create _ _ _ _ _ _ cur => exact cur ▸ hcurrent
  | destroy _ _ _ _ _ cur =>
    rw [cur]
    split
    · exact hscreen
    · exact hcurrent

@[simp] theorem frameBytes_length (sf : Surface) : (frameBytes sf).length = 2 * (sf.w.toNat * sf.h.toNat) := by
  simp [frameBytes, Surface.cells, Nat.mul_comm]

/-- The invariant, with `CMDBUF` apart. -/
theorem inv_iff_retire {s : State} : s.Inv ↔ s.retire.Inv ∧ CommandBufferSound s.cmdbuf :=
  ⟨fun h => ⟨{ h with command := .inl rfl }, h.command⟩, fun ⟨h, hcmd⟩ => { h with command := hcmd }⟩

/-- A command keeps all of the invariant but the part about `CMDBUF`. -/
theorem exec_keeps_retire_inv {i : Instr} {s t : State} (h : s.retire.Inv) (hexec : exec i s = .next t) :
    t.retire.Inv := by
  have frame := exec_frame hexec
  have table := exec_table hexec
  have effect := exec_effect hexec
  constructor
  case legal => exact frame.cfg ▸ h.legal
  case slots => exact frame.slots.trans (h.slots.trans (congrArg _ frame.cfg.symm))
  case screen =>
    obtain ⟨sf, hsf, hw, hh⟩ := h.screen
    obtain ⟨sf', hsf', evolves⟩ := (table.surf?_before hsf).resolve_right fun hgone => hgone.1 rfl
    obtain ⟨hw', hh', -⟩ := evolves.buffer
    have hcfg : t.retire.cfg = s.retire.cfg := frame.cfg
    exact ⟨sf', hsf', by rw [hw', hw, hcfg], by rw [hh', hh, hcfg]⟩
  case current =>
    obtain ⟨screen, hscreen, -⟩ := h.screen
    obtain ⟨sf, hsf⟩ := table.cur_held ⟨screen, hscreen⟩ h.current
    obtain ⟨sf', hsf', -⟩ := (table.surf?_before hsf).resolve_right fun hgone => hgone.2 rfl
    exact ⟨sf', hsf'⟩
  case sound =>
    intro n sf' hsf'
    change sf'.Sound t.cfg
    rw [frame.cfg]
    rcases table.surf?_after hsf' with ⟨sf, hsf, evolves⟩ | ⟨-, w, hh, gen, rfl⟩
    · exact evolves.sound (h.sound n sf hsf)
    · exact Surface.fresh_sound h.legal w hh gen
  case capacity => exact table.fits frame.cfg h.capacity
  case command => exact .inl rfl
  case queue =>
    obtain ⟨hlen, hevents⟩ := h.queue
    exact ⟨effect.q.length_le.trans hlen, fun v hv => hevents v (effect.q.mem hv)⟩
  case pending => exact fun v hv => h.pending v (frame.se.symm.trans hv)
  case scanact =>
    change t.scanact = true ↔ t.se = .inPoll
    rw [frame.scanact, frame.se]
    exact h.scanact
  case started =>
    change t.se ≠ .off → t.scanen = true
    rw [frame.scanen, frame.se]
    exact h.started
  case single =>
    intro hm
    obtain ⟨hq, hse, hscanen⟩ := h.single ((congrArg Config.multicore frame.cfg).symm.trans hm)
    exact ⟨List.eq_nil_of_suffix_nil (hq ▸ effect.q), frame.se.trans hse, frame.scanen.trans hscanen⟩
  case rows =>
    rcases effect.rowsel with hrow | hrow
    · change t.rowsel = _ ∨ _
      rw [State.retire_rowsel, hrow]
      exact h.rows
    · exact .inr hrow
  case frames =>
    intro f hf
    rcases exec_tx hexec with htx | ⟨slot, sf, -, -, htx⟩
    · exact h.frames f (htx ▸ hf)
    · rw [State.retire_tx, htx] at hf
      rcases List.mem_append.1 hf with hf | hf
      · exact h.frames f hf
      · obtain rfl := List.mem_singleton.1 hf
        exact frameBytes_length sf

/-! ### The primary context -/

/-- A command that is alone in `CMDBUF` leaves it empty, or holding that command still. -/
theorem exec_keeps_commandBuffer {i : Instr} {s t : State} (hi : decode s.cmdbuf = .ok (i, []))
    (hexec : exec i s = .next t) : CommandBufferSound t.cmdbuf := by
  rcases (exec_effect hexec).cmdbuf with hempty | ⟨hstall, hkept⟩
  · rw [hempty]; exact .inl rfl
  · rw [hkept]
    cases i with
    | waitkey => exact .inr (.inl hi)
    | bitmap x y p => exact .inr (.inr ⟨x, y, p, hi⟩)
    | _ => cases hstall

/-- The command engine keeps the invariant, from a buffer that holds no more than its command. -/
theorem runCommand_keeps_inv {s t : State} (h : s.retire.Inv) (hexact : ExactCommand s.cmdbuf)
    (hrun : runCommand s = .next t) : t.Inv := by
  unfold runCommand at hrun
  split at hrun
  case h_1 i rest hi =>
    obtain rfl := hexact i rest hi
    exact inv_iff_retire.2 ⟨exec_keeps_retire_inv h hrun, exec_keeps_commandBuffer hi hrun⟩
  case h_2 => cases hrun; exact { h with }
  case h_3 hwait => cases hrun; exact inv_iff_retire.2 ⟨h, .inl hwait⟩

/-- A write of CTRL keeps the invariant: SCANEN is never cleared, and stays 0 with MULTICORE = 0 (10_state.md R32). -/
theorem State.Inv.writeCtrl {s : State} (h : s.Inv) (v : Word) : (s.writeCtrl v).Inv :=
  { h with
    started := fun hse => by
      have hm : s.cfg.multicore = true := by
        by_contra hm
        exact hse (h.single (by simpa using hm)).2.1
      simp [hm, h.started hse]
    single := fun hm => by
      obtain ⟨hq, hse, -⟩ := h.single hm
      have hm' : s.cfg.multicore = false := hm
      exact ⟨hq, hse, by simp [hm']⟩ }

theorem hostAccess_keeps_inv {op : HostOp} {s t : State} (h : s.Inv) (hidle : inProgress s = false)
    (haccess : hostAccess op s = .next t) : t.Inv := by
  unfold hostAccess at haccess
  split at haccess
  case h_1 v =>
    refine runCommand_keeps_inv (s := { s with cmdbuf := s.cmdbuf ++ [v] }) (inv_iff_retire.1 h).1 ?_ haccess
    exact fun i rest => rest_eq_nil_of_completed (h.command.incomplete hidle)
  case h_2 v => cases haccess; exact h.writeCtrl v
  case h_3 => cases haccess; exact h
  case h_4 => cases haccess; exact { h with }

theorem primaryTurn_keeps_inv {s t : State} (h : s.Inv) (hturn : primaryTurn s = .next t) : t.Inv := by
  unfold primaryTurn at hturn
  split at hturn
  case isTrue => exact runCommand_keeps_inv (inv_iff_retire.1 h).1 h.command.exact hturn
  case isFalse hidle =>
    split at hturn
    case h_1 => cases hturn; exact h
    case h_2 op rest _ =>
      have hrest : State.Inv { s with hostOps := rest } := { h with }
      exact hostAccess_keeps_inv hrest (Bool.eq_false_of_not_eq_true hidle) hturn

/-! ### The scan engine -/

/-- A poll keeps the invariant (45_keyscan.md R221). -/
theorem State.Inv.poll {s : State} (h : s.Inv) : (poll s).2.Inv := by
  have hframe := poll_frame s
  have hrow := poll_rowsel s
  unfold PollFrame at hframe
  rw [hframe]
  exact { h with rows := .inr hrow }

/-- With MULTICORE = 1 the started scan engine may enter any state in which SCANACT is right and the event in flight, if any,
is an event word (10_state.md R38). -/
theorem State.Inv.enter {s : State} (h : s.Inv) (hm : s.cfg.multicore = true) (hstarted : s.scanen = true)
    {se : ScanPhase} {act : Bool} (hact : act = true ↔ se = .inPoll) (hpending : ∀ v, se = .pushPending v → IsEventWord v) :
    State.Inv { s with se := se, scanact := act } :=
  { h with
    pending := hpending
    scanact := hact
    started := fun _ => hstarted
    single := fun hm' => by rw [hm] at hm'; cases hm' }

/-- A push keeps the invariant (46_queue_arb.md R251). -/
theorem State.Inv.push {s : State} (h : s.Inv) (hm : s.cfg.multicore = true) {ev : Word} (hcan : s.canPush = true)
    (hev : IsEventWord ev) : (s.push ev).Inv :=
  { h with
    queue := by
      have hroom : s.q.length < Config.qCap := by simpa [State.canPush] using hcan
      refine ⟨by simpa using hroom, fun v hv => ?_⟩
      rcases List.mem_append.1 hv with hv | hv
      · exact h.queue.2 v hv
      · exact List.mem_singleton.1 hv ▸ hev
    single := fun hm' => by rw [State.push_cfg, hm] at hm'; cases hm' }

theorem enginePoll_keeps_inv {s : State} (h : s.Inv) (hm : s.cfg.multicore = true) (hstarted : s.scanen = true) :
    (enginePoll s).Inv := by
  have hpoll := h.poll
  have hframe := ExecFrame.poll s
  have hm' : (poll s).2.cfg.multicore = true := hframe.cfg ▸ hm
  have hstarted' : (poll s).2.scanen = true := hframe.scanen.trans hstarted
  unfold enginePoll
  generalize poll s = r at hpoll hm' hstarted'
  obtain ⟨event, s1⟩ := r
  cases event with
  | none => exact hpoll.enter hm' hstarted' (by simp) nofun
  | some e =>
    refine hpoll.enter hm' hstarted' (by simp) fun v hv => ?_
    cases hv
    exact ⟨e.press, e.key.row, e.key.col, rfl⟩

theorem engineStep_keeps_inv {s : State} (h : s.Inv) : (engineStep s).Inv := by
  have quiet (hse : s.se ≠ .inPoll) : s.scanact = false := by simpa using mt h.scanact.1 hse
  unfold engineStep
  split
  case isFalse => exact h
  case isTrue hm =>
    split
    case h_1 hse =>
      split
      · rename_i hstarted
        exact h.enter hm hstarted (by simp [quiet (by simp [hse])]) nofun
      · exact h
    case h_2 hse =>
      split
      · exact h
      · exact h.enter hm (h.started (by simp [hse])) (by simp) nofun
    case h_3 hse => exact enginePoll_keeps_inv h hm (h.started (by simp [hse]))
    case h_4 ev hse =>
      split
      · rename_i hcan
        exact (h.push hm hcan (h.pending ev hse)).enter hm (h.started (by simp [hse])) (by simp [quiet (by simp [hse])]) nofun
      · exact h

/-! ### A step -/

theorem takeTurn_keeps_inv {turn : Turn} {s t : State} (h : s.Inv) (hturn : takeTurn turn s = .next t) : t.Inv := by
  cases turn with
  | primary => exact primaryTurn_keeps_inv h hturn
  | scan => cases hturn; exact engineStep_keeps_inv h
  | tick ms => cases hturn; exact { h with }
  | reset => cases hturn; exact s.resetBlock_inv h.legal

theorem nextTurn_keeps_inv {s : State} (h : s.Inv) : (nextTurn s).2.Inv := by
  rw [nextTurn_frame]
  exact { h with }

/-- Settles O9: each agent's turn keeps the invariant. -/
theorem everyStepKeepsTheInvariant : Obligations.EveryStepKeepsTheInvariant :=
  fun _ _ h hstep => takeTurn_keeps_inv (nextTurn_keeps_inv h) hstep

end Sys2Proof.Machine
end

section
/-! The host's view (10_state.md R28 to R35): how a step runs a host access and the command it completes, and what the
registers read. -/

namespace Sys2Proof.Machine

/-! ### A step of the primary context -/

theorem inProgress_of_ok {s : State} {i : Instr} {rest : List Word} (h : decode s.cmdbuf = .ok (i, rest)) :
    inProgress s = true := by simp [inProgress, h]

theorem not_inProgress_of_error {s : State} {e : DecodeError} (h : decode s.cmdbuf = .error e) : inProgress s = false := by
  simp [inProgress, h]

theorem runCommand_of_ok {s : State} {i : Instr} {rest : List Word} (h : decode s.cmdbuf = .ok (i, rest)) :
    runCommand s = exec i s := by simp only [runCommand, h]

theorem runCommand_of_incomplete {s : State} (h : decode s.cmdbuf = .error .incomplete) : runCommand s = .next s := by
  simp only [runCommand, h]

/-- With no command in progress, a step of the host is its next access (R94). -/
theorem step_hostDoes {s : State} (h : decode s.cmdbuf = .error .incomplete) (op : HostOp) :
    step (s.hostDoes op) = hostAccess op s :=
  if_neg (Bool.eq_false_iff.1 (not_inProgress_of_error (s := s) h))

/-- Settles O6: the three ways `CMDBUF` can decode when the command engine looks at it. -/
theorem stepRunsTheDecodedCommand : Obligations.StepRunsTheDecodedCommand := by
  refine ⟨fun s v i rest hwait hi => ?_, fun s v hwait hmore => ?_, fun s i rest hi => ?_⟩
  · rw [step_hostDoes hwait]
    exact runCommand_of_ok (s := { s with cmdbuf := s.cmdbuf ++ [v] }) hi
  · rw [step_hostDoes hwait]
    exact runCommand_of_incomplete (s := { s with cmdbuf := s.cmdbuf ++ [v] }) hmore
  · rw [step_taking]
    exact (if_pos (inProgress_of_ok hi)).trans (runCommand_of_ok hi)

/-! ### Reads and writes of the registers -/

/-- The registers are at the offsets 0 to 8; from 9 on all reads are 0. -/
theorem State.readReg_of_reserved (s : State) {offset : Nat} (h : 9 ≤ offset) : s.readReg offset = 0 := by
  unfold State.readReg
  split
  case h_9 => rfl
  all_goals omega

/-- A write of a register other than CMD and CTRL is ignored (R28). -/
theorem hostAccess_write_ignored {offset : Nat} (h0 : offset ≠ 0) (h4 : offset ≠ 4) (v : Word) (s : State) :
    hostAccess (.write offset v) s = .next s := by
  unfold hostAccess
  split
  case h_1 heq => cases heq; exact absurd rfl h0
  case h_2 heq => cases heq; exact absurd rfl h4
  case h_3 heq => rfl
  case h_4 heq => cases heq

/-- Settles O57: reads return the register, and only CMD and CTRL can be written. -/
theorem registerAccessesHaveOnlyTheirEffects : Obligations.RegisterAccessesHaveOnlyTheirEffects := by
  intro s hwait
  refine ⟨fun offset => step_hostDoes hwait _, fun offset v h0 h4 => ?_, rfl, fun offset => s.readReg_of_reserved, rfl, rfl⟩
  rw [step_hostDoes hwait, hostAccess_write_ignored h0 h4]

/-- Settles O17: the commands by what they write, and the reads by `step_hostDoes`. -/
theorem resultRegistersAreWrittenByTheirCommandsOnly : Obligations.ResultRegistersAreWrittenByTheirCommandsOnly := by
  refine ⟨fun i s t h => ?_, fun s offset hoffset hwait => ?_⟩
  · have effect := exec_effect h
    cases i with
    | surfnew | surffree | select | setfont | getpix | pollkey | waitkey => exact effect.result1 nofun
    | getcur => trivial
    | _ => exact ⟨effect.result0 rfl, effect.result1 nofun⟩
  · rw [step_hostDoes hwait]
    rcases hoffset with rfl | rfl <;> rfl

/-! ### STATUS, the key registers and CTRL -/

theorem State.qne_iff {s : State} : s.qne = true ↔ s.cfg.multicore = true ∧ s.q ≠ [] := by
  simp [State.qne]

theorem State.qfull_iff {s : State} : s.qfull = true ↔ s.cfg.multicore = true ∧ s.q.length = 32 := by
  simp [State.qfull, Config.qCap]

theorem State.kpressed_iff {s : State} : s.kpressed = true ↔ s.db ≠ .idle := by
  unfold State.kpressed
  split <;> simp_all

/-- Bit 0 of a word that ends in a flag is the flag. -/
theorem getLsbD_append_ofBool_zero {w : Nat} (x : BitVec w) (b : Bool) : (x ++ BitVec.ofBool b).getLsbD 0 = b := by
  simp only [BitVec.getLsbD_append]
  simp

/-- The other bits of a word that ends in a flag are those before the flag. -/
theorem getLsbD_append_ofBool_succ {w : Nat} (x : BitVec w) (b : Bool) (i : Nat) :
    (x ++ BitVec.ofBool b).getLsbD (i + 1) = x.getLsbD i := by
  simp [BitVec.getLsbD_append]

/-- Settles O58: STATUS is the concatenation of `CUR` and its flags. -/
theorem statusShowsItsBits : Obligations.StatusShowsItsBits := by
  intro s
  refine ⟨getLsbD_append_ofBool_zero .., ?_, ?_, ?_, ?_, ?_, ?_, ?_, ?_⟩ <;>
    simp only [State.readReg, State.statusReg, getLsbD_append_ofBool_succ, getLsbD_append_ofBool_zero]
  · exact State.qne_iff
  · exact State.qfull_iff
  · exact State.kpressed_iff
  · simp only [BitVec.getLsbD_append]
    simp
  · apply BitVec.eq_of_getLsbD_eq
    intro i hi
    simp only [highByte, BitVec.getLsbD_extractLsb', BitVec.getLsbD_append, hi, decide_true, Bool.true_and]
    simp

/-- `KEYLATCH` in Pressed has the fields of R33. -/
theorem State.keylatchReg_pressed {s : State} {row col : Fin 7} {t : BitVec 32} (hdb : s.db = .pressed row col t) :
    s.keylatchReg = 1#1 ++ 0#7 ++ BitVec.ofNat 4 row.val ++ BitVec.ofNat 4 col.val := by simp only [State.keylatchReg, hdb]

/-- The fields of a word laid out as KEYLATCH is. -/
theorem keylatch_fields : ∀ row col : Fin 7, ∀ v : Word,
    v = 1#1 ++ 0#7 ++ BitVec.ofNat 4 row.val ++ BitVec.ofNat 4 col.val →
      v.getLsbD 15 = true ∧ v.extractLsb' 8 7 = 0 ∧ (v.extractLsb' 4 4).toNat = row.val ∧
        (v.extractLsb' 0 4).toNat = col.val := by
  rintro row col v rfl
  revert row col
  decide

/-- Settles O59: the registers of the debounce state, then the count of the queue. -/
theorem keyRegistersAreViews : Obligations.KeyRegistersAreViews := by
  intro s
  refine ⟨fun hdb => ?_, fun row col t hdb => ?_, fun hm => ?_, fun hm hq => ?_⟩
  · simp [State.readReg, State.keylatchReg, State.keytime, hdb]
  · obtain ⟨hvalid, hzero, hrow, hcol⟩ := keylatch_fields row col _ (State.keylatchReg_pressed hdb)
    have htime : s.keytime = t := by simp only [State.keytime, hdb]
    exact ⟨hvalid, hzero, hrow, hcol, congrArg (BitVec.extractLsb' 0 16) htime,
      congrArg (BitVec.extractLsb' 16 16) htime⟩
  · simp [State.readReg, State.qcountReg, hm]
  · have hcount : s.readReg 8 = 0#10 ++ BitVec.ofNat 6 s.q.length := by simp only [State.readReg, State.qcountReg, hm, if_true]
    rw [hcount, BitVec.toNat_append]
    simp
    omega

/-- Settles O60: the write of CTRL as the host makes it, then the two bits as CTRL reads them back. -/
theorem ctrlWriteSetsArbAndStartsTheEngine : Obligations.CtrlWriteSetsArbAndStartsTheEngine := by
  intro s v hwait
  refine ⟨s.writeCtrl v, step_hostDoes hwait _, rfl, ?_, ?_, ?_⟩
  · exact getLsbD_append_ofBool_zero ..
  · simp only [State.readReg, State.ctrlReg, getLsbD_append_ofBool_succ, getLsbD_append_ofBool_zero]
    simp
  · apply BitVec.eq_of_getLsbD_eq
    intro i hi
    simp only [State.readReg, State.ctrlReg, BitVec.getLsbD_append, BitVec.getLsbD_extractLsb']
    simp


/-! ### TIME -/

/-- Settles O52: the turn of the clock, and the one way in which a poll reports a Press. -/
theorem timeRunsAndStampsThePress : Obligations.TimeRunsAndStampsThePress := by
  refine ⟨fun s ms => ⟨_, step_taking s (.tick ms), by simp, rfl⟩, fun s s' k h => ?_⟩
  rcases poll_cases s with ⟨hidle, ⟨-, h2⟩ | ⟨k', -, ⟨-, h2⟩ | ⟨-, h2⟩⟩⟩ |
    ⟨row, col, t, -, ⟨-, h2⟩ | ⟨-, -, h2⟩ | ⟨-, -, h2⟩ | ⟨-, -, h2⟩⟩ <;> rw [h2] at h <;> cases h
  exact ⟨hidle, rfl⟩

end Sys2Proof.Machine
end

section
/-! The hand-over of the shared bus (46_queue_arb.md R257, R259, R265): what no turn but a reset touches while `ARB` is 1 and
no poll is in progress, agent by agent, and along a run. -/

namespace Sys2Proof.Machine

/-- `t` agrees with `s` in the parameters and in what a poll of the scan engine would change: SCANACT, ROWSEL, the answers of
the key matrix still to come, and `DB`. -/
structure BusFrame (s t : State) : Prop where
  cfg : t.cfg = s.cfg
  scanact : t.scanact = s.scanact
  rowsel : t.rowsel = s.rowsel
  matrix : t.matrix = s.matrix
  db : t.db = s.db

theorem BusFrame.refl (s : State) : BusFrame s s := ⟨rfl, rfl, rfl, rfl, rfl⟩

theorem BusFrame.trans {s t u : State} (h : BusFrame s t) (h' : BusFrame t u) : BusFrame s u :=
  ⟨h'.cfg.trans h.cfg, h'.scanact.trans h.scanact, h'.rowsel.trans h.rowsel, h'.matrix.trans h.matrix, h'.db.trans h.db⟩

/-! ### The commands -/

theorem BusFrame.onCurrent {s t : State} {act : Surface → Surface} (h : s.onCurrent act = .next t) : BusFrame s t := by
  rcases s.onCurrent_cases act with ⟨sf, -, h2⟩ | ⟨-, h2⟩ <;> rw [h2] at h <;> cases h
  exact ⟨rfl, rfl, rfl, rfl, rfl⟩

theorem State.pop_busFrame (s : State) : BusFrame s s.pop.2 := by
  unfold State.pop
  split <;> exact ⟨rfl, rfl, rfl, rfl, rfl⟩

theorem waitPop_busFrame (s : State) : BusFrame s (waitPop s) := by
  unfold waitPop
  split <;> exact ⟨rfl, rfl, rfl, rfl, rfl⟩

/-- With MULTICORE = 1 no command scans: POLLKEY and WAITKEY take their event from `Q` (R253, R252). -/
theorem exec_busFrame {i : Instr} {s t : State} (hm : s.cfg.multicore = true) (h : exec i s = .next t) : BusFrame s t := by
  cases i with
  | pollkey =>
    cases h
    rw [if_pos hm]
    exact s.pop_busFrame.trans ⟨rfl, rfl, rfl, rfl, rfl⟩
  | waitkey =>
    cases h
    rw [if_pos hm]
    exact waitPop_busFrame s
  | nop => cases h; exact ⟨rfl, rfl, rfl, rfl, rfl⟩
  | surfnew | surffree | select => cases h; split <;> exact ⟨rfl, rfl, rfl, rfl, rfl⟩
  | getcur | getpix =>
    simp only [exec, execGetcur, execGetpix] at h
    split at h <;> cases h
    exact ⟨rfl, rfl, rfl, rfl, rfl⟩
  | bitmap x y p =>
    change execBitmap x y p s = .next t at h
    rcases execBitmap_cases x y p s with ⟨-, h2⟩ | ⟨-, -, h2⟩ | ⟨sf, r, -, -, -, ⟨-, h2⟩ | ⟨-, h2⟩⟩ <;> rw [h2] at h <;>
      cases h <;> exact ⟨rfl, rfl, rfl, rfl, rfl⟩
  | present slot =>
    change execPresent slot s = .next t at h
    rcases execPresent_cases slot s with h2 | ⟨sf, -, h2⟩ <;> rw [h2] at h <;> cases h <;> exact ⟨rfl, rfl, rfl, rfl, rfl⟩
  | setfont =>
    have frame : BusFrame (s.setR0 _) t := BusFrame.onCurrent h
    exact { frame with }
  | setcur | setfg | fill | pixel | line | rect | sprite | char | string => exact BusFrame.onCurrent h

/-! ### The primary context -/

theorem HostFrame.busFrame {s t : State} (h : HostFrame s t) : BusFrame s t := by
  unfold HostFrame at h
  constructor <;> rw [h]

theorem primaryTurn_busFrame {s t : State} (hm : s.cfg.multicore = true) (h : primaryTurn s = .next t) : BusFrame s t := by
  rcases primaryTurn_cases h with hf | ⟨i, u, hf, hi⟩
  · exact hf.busFrame
  · have hm' : u.cfg.multicore = true := hf.busFrame.cfg ▸ hm
    exact hf.busFrame.trans (exec_busFrame hm' hi)

/-- The command engine neither writes CTRL nor makes a host access. -/
theorem runCommand_host {s t : State} (h : runCommand s = .next t) : t.arb = s.arb ∧ t.hostOps = s.hostOps := by
  unfold runCommand at h
  split at h
  case h_1 => exact ⟨(exec_frame h).arb, (exec_frame h).hostOps⟩
  case h_2 => cases h; exact ⟨rfl, rfl⟩
  case h_3 => cases h; exact ⟨rfl, rfl⟩

/-- `ARB` after an access of the host: bit 0 of the word written to CTRL, or as before (10_state.md R32). -/
theorem hostAccess_host {op : HostOp} {s t : State} (h : hostAccess op s = .next t) :
    (t.arb = s.arb ∨ ∃ v, op = .write 4 v ∧ t.arb = v.getLsbD 0) ∧ t.hostOps = s.hostOps := by
  unfold hostAccess at h
  split at h
  case h_1 v =>
    obtain ⟨harb, hops⟩ := runCommand_host (s := { s with cmdbuf := s.cmdbuf ++ [v] }) h
    exact ⟨.inl harb, hops⟩
  case h_2 v => cases h; exact ⟨.inr ⟨v, rfl, rfl⟩, rfl⟩
  case h_3 => cases h; exact ⟨.inl rfl, rfl⟩
  case h_4 => cases h; exact ⟨.inl rfl, rfl⟩

theorem State.KeepsArb.mono {s t : State} (h : s.KeepsArb) (hops : t.hostOps ⊆ s.hostOps) : t.KeepsArb :=
  fun v hv => h v (hops hv)

/-- `ARB` is 1, and no coming access of the host lowers it. -/
def State.HoldsArb (s : State) : Prop := s.arb = true ∧ s.KeepsArb

theorem State.HoldsArb.of_eq {s t : State} (h : s.HoldsArb) (harb : t.arb = s.arb) (hops : t.hostOps = s.hostOps) :
    t.HoldsArb :=
  ⟨harb.trans h.1, h.2.mono (hops ▸ List.Subset.refl _)⟩

theorem primaryTurn_holdsArb {s t : State} (h : s.HoldsArb) (hturn : primaryTurn s = .next t) : t.HoldsArb := by
  unfold primaryTurn at hturn
  split at hturn
  case isTrue =>
    obtain ⟨harb, hops⟩ := runCommand_host hturn
    exact h.of_eq harb hops
  case isFalse =>
    split at hturn
    case h_1 => cases hturn; exact h
    case h_2 op rest hlist =>
      obtain ⟨hraised, hkeeps⟩ := h
      obtain ⟨harb, hops⟩ := hostAccess_host hturn
      refine ⟨?_, hkeeps.mono (hlist ▸ hops ▸ List.subset_cons_self op rest)⟩
      rcases harb with harb | ⟨v, rfl, harb⟩
      · exact harb.trans hraised
      · exact harb.trans (hkeeps v (hlist ▸ List.mem_cons_self))

/-! ### The scan engine -/

/-- With `ARB` raised and no poll in progress the scan engine starts, waits or pushes, and does not poll: SCANACT is 1 in
InPoll (R257, R259, 10_state.md R38). -/
theorem engineStep_busFrame {s : State} (h : s.Inv) (harb : s.arb = true) (hquiet : s.scanact = false) :
    BusFrame s (engineStep s) := by
  unfold engineStep
  split
  case isFalse => exact .refl s
  case isTrue =>
    split
    case h_1 => split <;> exact ⟨rfl, rfl, rfl, rfl, rfl⟩
    case h_2 => exact .refl s
    case h_3 hse => rw [h.scanact.2 hse] at hquiet; cases hquiet
    case h_4 => split <;> exact ⟨rfl, rfl, rfl, rfl, rfl⟩

theorem EngineFrame.holdsArb {s t : State} (h : EngineFrame s t) (hs : s.HoldsArb) : t.HoldsArb := by
  unfold EngineFrame at h
  exact hs.of_eq (by rw [h]) (by rw [h])

/-- Settles O15: the turn is `engineStep`, whose frame is the statement's. -/
theorem scanEngineTouchesOnlyItsState : Obligations.ScanEngineTouchesOnlyItsState :=
  fun s => ⟨engineStep s, step_taking s .scan, engineStep_frame s⟩

/-! ### A step and a run -/

/-- The invariant, with the bus handed over to the host for good. -/
structure State.HandedOver (s : State) : Prop where
  inv : s.Inv
  bus : s.BusIsHosts
  keeps : s.KeepsArb

/-- No turn but a reset scans or takes the bus back, whichever agent's it is. -/
theorem takeTurn_handedOver {turn : Turn} {s t : State} (h : s.HandedOver) (hturn : turn ≠ .reset)
    (ht : takeTurn turn s = .next t) : t.HandedOver ∧ BusFrame s t := by
  obtain ⟨hinv, ⟨hm, harb, hquiet⟩, hkeeps⟩ := h
  have both : BusFrame s t ∧ t.HoldsArb := by
    cases turn with
    | primary => exact ⟨primaryTurn_busFrame hm ht, primaryTurn_holdsArb ⟨harb, hkeeps⟩ ht⟩
    | scan => cases ht; exact ⟨engineStep_busFrame hinv harb hquiet, (engineStep_frame s).holdsArb ⟨harb, hkeeps⟩⟩
    | tick ms => cases ht; exact ⟨⟨rfl, rfl, rfl, rfl, rfl⟩, harb, hkeeps⟩
    | reset => exact absurd rfl hturn
  obtain ⟨frame, harb', hkeeps'⟩ := both
  exact ⟨⟨takeTurn_keeps_inv hinv ht, ⟨frame.cfg ▸ hm, harb', frame.scanact.trans hquiet⟩, hkeeps'⟩, frame⟩

/-- No turn lists further turns or takes one off the list (log 1). -/
theorem takeTurn_sched {turn : Turn} {s t : State} (h : takeTurn turn s = .next t) : t.sched = s.sched := by
  cases turn with
  | primary =>
    have host {u : State} (hf : HostFrame s u) : u.sched = s.sched := by unfold HostFrame at hf; rw [hf]
    rcases primaryTurn_cases h with hf | ⟨i, u, hf, hi⟩
    · exact host hf
    · exact (exec_frame hi).sched.trans (host hf)
  | scan =>
    cases h
    have hf := engineStep_frame s
    unfold EngineFrame at hf
    rw [hf]
  | tick ms => cases h; rfl
  | reset => cases h; rfl

/-- A step from a listed turn is that turn, taken off the list. -/
theorem step_of_sched {s : State} {turn : Turn} {rest : List Turn} (h : s.sched = turn :: rest) :
    step s = takeTurn turn { s with sched := rest } := by
  simp only [step, nextTurn, h]

theorem step_handedOver {s t : State} {turn : Turn} {rest : List Turn} (h : s.HandedOver) (hsched : s.sched = turn :: rest)
    (hturn : turn ≠ .reset) (hstep : step s = .next t) : t.HandedOver ∧ BusFrame s t ∧ t.sched = rest := by
  rw [step_of_sched hsched] at hstep
  have taken : State.HandedOver { s with sched := rest } := ⟨{ h.inv with }, h.bus, h.keeps⟩
  obtain ⟨ht, frame⟩ := takeTurn_handedOver taken hturn hstep
  exact ⟨ht, { frame with }, takeTurn_sched hstep⟩

/-- A run of one step more is a step and then the run. -/
theorem run_succ {M : Host.Core} {k : Nat} {s t : M.State} (h : M.run (k + 1) s = .next t) :
    ∃ u, M.step s = .next u ∧ M.run k u = .next t := by
  unfold Host.Core.run at h
  split at h
  case h_1 u hstep => exact ⟨u, hstep, h⟩
  all_goals cases h

theorem run_handedOver {k : Nat} {s t : State} (h : s.HandedOver) (hlen : k ≤ s.sched.length)
    (hturns : ∀ turn ∈ s.sched.take k, turn ≠ .reset) (hrun : Host.Core.run core k s = .next t) :
    t.HandedOver ∧ BusFrame s t := by
  induction k generalizing s with
  | zero => cases hrun; exact ⟨h, .refl _⟩
  | succ k ih =>
    obtain ⟨u, hstep, hrest⟩ := run_succ hrun
    cases hsched : s.sched with
    | nil => rw [hsched] at hlen; cases hlen
    | cons turn rest =>
      rw [hsched] at hlen hturns
      obtain ⟨hu, frame, hlist⟩ := step_handedOver h hsched (hturns turn List.mem_cons_self) hstep
      obtain ⟨ht, frame'⟩ := ih hu (hlist ▸ Nat.le_of_succ_le_succ hlen)
        (fun later hlater => hturns later (List.mem_cons_of_mem turn (hlist ▸ hlater))) hrest
      exact ⟨ht, frame.trans frame'⟩

/-- Settles O16, by induction on the number of steps: each turn keeps the bus handed over and what a poll would change. -/
theorem busHandshakeExcludesScans : Obligations.BusHandshakeExcludesScans := by
  intro k s t hinv hbus hkeeps hlen hturns hrun
  obtain ⟨ht, frame⟩ := run_handedOver ⟨hinv, hbus, hkeeps⟩ hlen hturns hrun
  exact ⟨ht.bus, frame.rowsel, frame.matrix, frame.db⟩

end Sys2Proof.Machine
end

section
/-! BITMAP off the end of ASSET with marker 0 (43_bitmap.md R197 (d), (f); log 8). -/

namespace Sys2Proof.Machine

/-- Off the end of ASSET with marker 0, an item that ends within the address space begins an empty run. -/
theorem emptyRuns_ne_zero {cfg : Config} {b : BitmapHeader} {index : Nat} (hmarker : b.marker = 0)
    (hoff : cfg.assetWords ≤ b.p.toNat + index) (hend : b.p.toNat + index + 1 < 4294967296) :
    emptyRuns cfg b index ≠ 0 := by
  have haddress : (b.p.toNat + index) % 4294967296 = b.p.toNat + index := Nat.mod_eq_of_lt (by omega)
  simp only [emptyRuns, haddress, hmarker, hoff, and_self, if_true]
  omega

/-- A column that comes to empty runs for ever stops there, with the surface as it is. -/
theorem bitmapColumn_of_emptyForEver {cfg : Config} {b : BitmapHeader} {y index : Nat} (hy : y < b.bh)
    (h : emptyForEver cfg b index = true) (x fuel : Nat) (sf : Surface) :
    bitmapColumn cfg b x (fuel + 1) y index sf = (false, index, sf) := by
  have hruns := (emptyForEver_eq_true.1 h).2
  have hmarker : bitmapWord cfg b.p index = b.marker := (emptyRuns_spec (Nat.pos_of_ne_zero hruns)).1
  simp only [bitmapColumn, if_neg (Nat.not_le.2 hy), if_pos hmarker, if_pos h]

/-- A bitmap whose data begins with empty runs for ever draws nothing and does not end. -/
theorem drawBitmap_of_emptyForEver {cfg : Config} {x0 y0 : Nat} {p : BitVec 32} (hw : bitmapWord cfg p 0 ≠ 0)
    (hh : bitmapWord cfg p 1 ≠ 0) (h : emptyForEver cfg (bitmapHeader cfg x0 y0 p) 4 = true) (sf : Surface) :
    drawBitmap cfg x0 y0 p sf = (false, sf) := by
  have positive {v : Word} (hv : v ≠ 0) : 0 < v.toNat := Nat.pos_of_ne_zero fun h0 => hv (BitVec.eq_of_toNat_eq h0)
  have hbh : 0 < (bitmapHeader cfg x0 y0 p).bh := positive hh
  obtain ⟨columns, hbw⟩ : ∃ n, (bitmapHeader cfg x0 y0 p).bw = n + 1 := Nat.exists_eq_add_of_le' (positive hw)
  obtain ⟨fuel, hfuel⟩ : ∃ n, columnFuel cfg (bitmapHeader cfg x0 y0 p) = n + 1 :=
    Nat.exists_eq_add_of_le' (Nat.mul_pos (by omega) (by omega))
  simp only [drawBitmap, hbw, bitmapColumns, hfuel, bitmapColumn_of_emptyForEver hbh h]

/-- A bitmap leaves cursor, colour and font alone (43_bitmap.md R198). -/
theorem drawBitmap_sameText (cfg : Config) (x0 y0 : Nat) (p : BitVec 32) (sf : Surface) :
    sf.SameText (drawBitmap cfg x0 y0 p sf).2 :=
  drawBitmap_keeps sf.SameText cfg x0 y0 p sf (fun t k y c _ ht => by simpa [Surface.SameText] using ht)
    ⟨rfl, rfl, rfl, rfl⟩

theorem exec_bitmap (x y : Word) (p : BitVec 32) (s : State) : exec (.bitmap x y p) s = execBitmap x y p s := rfl

/-- Settles O46: with the wrap every decoding ends; without it the first item is an empty run that never does. -/
theorem bitmapOffTheEndHangsOrComesBack : Obligations.BitmapOffTheEndHangsOrComesBack := by
  intro x y p s sf hp hcurrent hw hh hmarker hoff hend
  rw [exec_bitmap, execBitmap_some hp x y hcurrent]
  split
  case isTrue hwraps =>
    rw [if_pos (drawBitmap_ends_of_wraps hwraps x.toNat y.toNat p sf)]
    exact ⟨_, rfl, (sf.evolves_drawBitmap (cfg := s.cfg) s.cfg x.toNat y.toNat p).buffer, drawBitmap_sameText ..⟩
  case isFalse hwraps =>
    have stuck : emptyForEver s.cfg (bitmapHeader s.cfg x.toNat y.toNat p) 4 = true :=
      emptyForEver_eq_true.2 ⟨Bool.eq_false_of_not_eq_true hwraps, emptyRuns_ne_zero hmarker hoff hend⟩
    rw [drawBitmap_of_emptyForEver hw hh stuck, s.withCurrent_self hcurrent]
    rfl

end Sys2Proof.Machine
end

section
/-! Decoding is the inverse of encoding (30_encoding.md R91 to R101). -/

namespace Sys2Proof.Machine

/-! ### The header and its operands -/

/-- The decoder sees a header through its two fields (R91). -/
@[simp] theorem decode_header (op a : Byte) (ws : List Word) : decode (header op a :: ws) = decodeBody op.toNat a ws := by
  simp only [decode, Laws.opField_header, Laws.aField_header]

/-- The two words that `encode` writes for a pointer are its halves, low half first (R96). -/
@[simp] theorem pointer_halves (p : BitVec 32) : pointer (p.extractLsb' 0 16) (p.extractLsb' 16 16) = p := by
  apply BitVec.eq_of_getLsbD_eq
  intro i hi
  simp only [pointer, BitVec.getLsbD_append, BitVec.getLsbD_extractLsb']
  by_cases hlow : i < 16
  · simp [hlow]
  · simp [hlow, show i - 16 < 16 by omega, Nat.add_sub_cancel' (Nat.le_of_not_lt hlow)]

theorem pointer_toNat (lo hi : Word) : (pointer lo hi).toNat = lo.toNat + 65536 * hi.toNat := by
  rw [pointer, BitVec.toNat_append, ← Nat.shiftLeft_add_eq_or_of_lt lo.isLt, Nat.shiftLeft_eq]
  omega

/-- STRING's bytes come back from their words, the terminator being the first zero byte (R95, R101). -/
theorem decodeString_encodeString {bytes : List Byte} (h : bytes.all (fun b => b != 0) = true) (rest : List Word) :
    decodeString (encodeString bytes ++ rest) = some (bytes, rest) := by
  induction bytes using encodeString.induct with
  | case1 => rfl
  | case2 b =>
    have hb : b ≠ 0#8 := by simpa using h
    simp [encodeString, decodeString, hb]
  | case3 b0 b1 bytes ih =>
    obtain ⟨h0, h1, hbytes⟩ : b0 ≠ 0#8 ∧ b1 ≠ 0#8 ∧ ∀ b ∈ bytes, b ≠ 0#8 := by simpa using h
    simp [encodeString, decodeString, h0, h1, ih (by simpa using hbytes)]

/-- Settles O1: the header's opcode chooses the operands that `encode` wrote; only the pointer's halves, RECT's fill bit and
STRING's bytes are cut in another way than they are put together. -/
theorem decodeOfEncodeIsTheCommand : Obligations.DecodeOfEncodeIsTheCommand := by
  intro i rest hwf
  cases i with
  | rect filled => cases filled <;> exact decode_header _ _ _
  | bitmap x y p =>
    calc decode (encode (.bitmap x y p) ++ rest)
      _ = .ok (.bitmap x y (pointer (p.extractLsb' 0 16) (p.extractLsb' 16 16)), rest) := decode_header _ _ _
      _ = .ok (.bitmap x y p, rest) := by rw [pointer_halves]
  | string bytes =>
    have hbody : decodeBody 0x21 0 (encodeString bytes ++ rest) = .ok (.string bytes, rest) := by
      simp only [decodeBody, decodeString_encodeString hwf rest]
    exact (decode_header _ _ _).trans hbody
  | _ => exact decode_header _ _ _

/-- Settles O3: the words are those that `encode` gives. -/
theorem wordsOfTheTableDecode : Obligations.WordsOfTheTableDecode :=
  have back := decodeOfEncodeIsTheCommand
  ⟨back .nop [] rfl, back (.surfnew 1 4 3) [0x0301] rfl, back (.line 3 1 0 1 0x07E0) [] rfl,
    back (.rect true 1 2 3 4 7 0xFFFF) [] rfl, back (.bitmap 1 2 65540) [] rfl,
    back (.string [0x41, 0x0A, 0x42, 0x2E]) [] rfl, back (.present 0xFF) [] rfl, back .waitkey [] rfl⟩

/-! ### Ignored fields -/

/-- RECT has square corners for every radius (R97). -/
theorem exec_rect_radius (filled : Bool) (x y w h radius radius' c : Word) (s : State) :
    exec (.rect filled x y w h radius c) s = exec (.rect filled x y w h radius' c) s := rfl

/-- Settles O4: the decoder's arms for these opcodes do not mention `A`, or mention its bit 0 only. -/
theorem ignoredFieldsHaveNoEffect : Obligations.IgnoredFieldsHaveNoEffect := by
  refine ⟨fun op a a' ws hop => ?_, fun a a' ws hbit => ?_, exec_rect_radius⟩
  · rw [decode_header, decode_header]
    simp only [List.mem_cons, List.not_mem_nil, or_false] at hop
    rcases hop with rfl | rfl | rfl | rfl | rfl | rfl | rfl | rfl | rfl | rfl | rfl | rfl <;> rfl
  · have harm : decodeBody 0x14 a ws = decodeBody 0x14 a' ws := by simp only [decodeBody, hbit]
    exact (decode_header _ _ _).trans (harm.trans (decode_header 0x14 a' ws).symm)

/-- Settles O40: BITMAP's arm joins its last two words, and the null pointer is its first test. -/
theorem bitmapNullPointerChangesNothing : Obligations.BitmapNullPointerChangesNothing :=
  ⟨fun _ _ _ lo hi _ => ⟨decode_header _ _ _, pointer_toNat lo hi⟩, fun x y s => (exec_bitmap x y 0 s).trans (if_pos rfl)⟩

end Sys2Proof.Machine
end

section
/-! The decoder and the length rule (30_encoding.md R92, R98, R100): each row of the opcode map takes the operand words that
its row counts, and an opcode without a row is an illegal header of one word. -/

namespace Sys2Proof.Machine

/-! ### Opcodes without a row -/

/-- The map's opcodes lie in five blocks (R93). -/
theorem opcodeMap_blocks : ∀ r ∈ opcodeMap, r.op.toNat ≤ 7 ∨ (16 ≤ r.op.toNat ∧ r.op.toNat ≤ 22) ∨
    (32 ≤ r.op.toNat ∧ r.op.toNat ≤ 33) ∨ r.op.toNat = 48 ∨ (64 ≤ r.op.toNat ∧ r.op.toNat ≤ 65) := by decide

/-- An opcode that no row of the map holds is illegal (R98). -/
theorem decodeBody_illegal {op : Byte} (h : ∀ r ∈ opcodeMap, r.op ≠ op) (a : Byte) (ws : List Word) :
    decodeBody op.toNat a ws = .error (.illegalOpcode op) := by
  have hrow (k : Nat) (hk : k ∈ opcodeMap.map (·.op.toNat)) : op.toNat ≠ k := by
    obtain ⟨r, hr, rfl⟩ := List.mem_map.1 hk
    exact fun heq => h r hr (BitVec.eq_of_toNat_eq heq.symm)
  unfold decodeBody
  split
  case h_21 => rw [BitVec.ofNat_toNat, BitVec.setWidth_eq]
  all_goals rename_i heq; exact absurd heq (hrow _ (by decide))

/-! ### Opcodes with a row -/

/-- The answer `d` takes `n` words off `ws`, or says that `ws` ends before them. -/
inductive TakesWords : Nat → List Word → Except DecodeError (Instr × List Word) → Prop where
  | done {i : Instr} {rest : List Word} : TakesWords 0 rest (.ok (i, rest))
  | short {n : Nat} : TakesWords (n + 1) [] (.error .incomplete)
  | more {n : Nat} {w : Word} {ws : List Word} {d : Except DecodeError (Instr × List Word)} (h : TakesWords n ws d) :
      TakesWords (n + 1) (w :: ws) d

theorem TakesWords.cases {n : Nat} {ws : List Word} {d : Except DecodeError (Instr × List Word)} (h : TakesWords n ws d) :
    (n ≤ ws.length ∧ ∃ i, d = .ok (i, ws.drop n)) ∨ (ws.length < n ∧ d = .error .incomplete) := by
  induction h with
  | done => exact .inl ⟨Nat.zero_le _, _, rfl⟩
  | short => exact .inr ⟨Nat.succ_pos _, rfl⟩
  | more _ ih => exact ih.imp (And.imp_left Nat.succ_le_succ) (And.imp_left Nat.succ_lt_succ)

/-- A command of fixed length takes the operand words that its row counts (R92, R93). -/
theorem decodeBody_takesWords (a : Byte) (ws : List Word) :
    ∀ r ∈ opcodeMap, ∀ n, r.operands = some n → TakesWords n ws (decodeBody r.op.toNat a ws) := by
  simp only [opcodeMap, List.forall_mem_cons]
  refine ⟨?nop, ?surfnew, ?surffree, ?select, ?setcur, ?getcur, ?setfg, ?setfont, ?fill, ?pixel, ?getpix, ?line, ?rect,
    ?sprite, ?bitmap, ?char, nofun, ?present, ?pollkey, ?waitkey, nofun⟩ <;> rintro _ ⟨⟩
  case nop | surffree | select | getcur | setfont | char | present | pollkey | waitkey => exact .done
  case setfg | fill => rcases ws with _ | ⟨c, rest⟩ <;> repeat constructor
  case surfnew | setcur | getpix | sprite => rcases ws with _ | ⟨x, _ | ⟨y, rest⟩⟩ <;> repeat constructor
  case pixel => rcases ws with _ | ⟨x, _ | ⟨y, _ | ⟨c, rest⟩⟩⟩ <;> repeat constructor
  case bitmap => rcases ws with _ | ⟨x, _ | ⟨y, _ | ⟨lo, _ | ⟨hi, rest⟩⟩⟩⟩ <;> repeat constructor
  case line => rcases ws with _ | ⟨x1, _ | ⟨y1, _ | ⟨x2, _ | ⟨y2, _ | ⟨c, rest⟩⟩⟩⟩⟩ <;> repeat constructor
  case rect =>
    rcases ws with _ | ⟨x, _ | ⟨y, _ | ⟨w, _ | ⟨h, _ | ⟨radius, _ | ⟨c, rest⟩⟩⟩⟩⟩⟩ <;> repeat constructor

/-- STRING's bytes end in the word in which the length rule finds the terminator (R95, R100). -/
theorem decodeString_cases (ws : List Word) :
    (stringWords ws = none ∧ decodeString ws = none) ∨
    ∃ n bytes, stringWords ws = some n ∧ n ≤ ws.length ∧ decodeString ws = some (bytes, ws.drop n) := by
  induction ws with
  | nil => exact .inl ⟨rfl, rfl⟩
  | cons w ws ih =>
    by_cases hlow : aField w = 0#8
    · exact .inr ⟨1, [], by simp [stringWords, hlow], by simp, by simp [decodeString, hlow]⟩
    by_cases hhigh : opField w = 0#8
    · exact .inr ⟨1, [aField w], by simp [stringWords, hhigh], by simp, by simp [decodeString, hlow, hhigh]⟩
    rcases ih with ⟨hn, hd⟩ | ⟨n, bytes, hn, hle, hd⟩
    · exact .inl ⟨by simp [stringWords, hlow, hhigh, hn], by simp [decodeString, hlow, hhigh, hd]⟩
    · exact .inr ⟨n + 1, aField w :: opField w :: bytes, by simp [stringWords, hlow, hhigh, hn], by simpa using hle,
        by simp [decodeString, hlow, hhigh, hd]⟩

/-! ### The length rule -/

/-- The only row that counts no operands is STRING's (R92). -/
theorem op_of_no_count : ∀ r ∈ opcodeMap, r.operands = none → r.op = 0x21 := by decide

/-- The three answers of the decoder beside the length rule (R100). -/
theorem decode_cases (h : Word) (ws : List Word) :
    (decode (h :: ws) = .error (.illegalOpcode (opField h)) ∧ commandLength h ws = some 1) ∨
    (∃ i n, decode (h :: ws) = .ok (i, ws.drop n) ∧ commandLength h ws = some (n + 1) ∧ n ≤ ws.length) ∨
    (decode (h :: ws) = .error .incomplete ∧ ∀ n, commandLength h ws = some n → ws.length + 1 < n) := by
  have hdecode : decode (h :: ws) = decodeBody (opField h).toNat (aField h) ws := rfl
  rw [hdecode]
  unfold commandLength
  split
  case h_1 hnone =>
    have hrows : ∀ r ∈ opcodeMap, r.op ≠ opField h := by simpa using hnone
    exact .inl ⟨decodeBody_illegal hrows _ _, rfl⟩
  case h_2 r hfound =>
    have hmem := List.mem_of_find?_eq_some hfound
    have hop : r.op = opField h := by simpa using List.find?_some hfound
    rw [← hop]
    cases hoperands : r.operands with
    | some n =>
      rcases (decodeBody_takesWords (aField h) ws r hmem n hoperands).cases with ⟨hle, i, hd⟩ | ⟨hlt, hd⟩
      · exact .inr (.inl ⟨i, n, hd, rfl, hle⟩)
      · exact .inr (.inr ⟨hd, by rintro _ ⟨⟩; exact Nat.succ_lt_succ hlt⟩)
    | none =>
      rw [op_of_no_count r hmem hoperands]
      rcases decodeString_cases ws with ⟨hn, hd⟩ | ⟨n, bytes, hn, hle, hd⟩
      · exact .inr (.inr ⟨by simp [decodeBody, hd], by simp [hn]⟩)
      · exact .inr (.inl ⟨.string bytes, n, by simp [decodeBody, hd], by simp [hn], hle⟩)

/-- Settles O2: the words after a command are those that the length rule leaves, and a command is decided by the words that
it takes (`decode_split`). -/
theorem decodeTakesTheCommandLength : Obligations.DecodeTakesTheCommandLength := by
  intro h ws
  rcases decode_cases h ws with ⟨hd, hlength⟩ | ⟨i, n, hd, hlength, hle⟩ | ⟨hd, hlength⟩
  · exact ⟨by simp [hd], by simp [hd, hlength], by simp [hd]⟩
  · refine ⟨fun i' rest hi => ?_, by simp [hd], by simp [hd]⟩
    obtain ⟨rfl, rfl⟩ : i = i' ∧ ws.drop n = rest := by simpa [hd] using hi
    obtain ⟨pre, hpre, hmore⟩ := decode_split hd
    have hsplit : h :: ws = (h :: ws).take (n + 1) ++ ws.drop n := by simp
    have htake : pre = (h :: ws).take (n + 1) := List.append_cancel_right (hpre.symm.trans hsplit)
    exact ⟨n + 1, hlength, hsplit, Nat.succ_le_succ hle, htake ▸ hmore⟩
  · exact ⟨by simp [hd], by simp [hd], fun _ => hlength⟩

/-! ### Illegal headers and stalled hosts -/

/-- Settles O5: no row of the map holds such an opcode. -/
theorem illegalHeaderOnlySetsIll : Obligations.IllegalHeaderOnlySetsIll := by
  intro s v hempty hranges
  have hrows : ∀ r ∈ opcodeMap, r.op ≠ opField v := by
    intro r hr heq
    have hblock := opcodeMap_blocks r hr
    rw [heq] at hblock
    omega
  have hillegal : decode (s.cmdbuf ++ [v]) = .error (.illegalOpcode (opField v)) := by
    rw [hempty]
    exact decodeBody_illegal hrows _ _
  calc step (s.hostDoes (.write 0 v))
    _ = runCommand { s with cmdbuf := s.cmdbuf ++ [v] } := step_hostDoes (by rw [hempty]; rfl) _
    _ = .next { s with cmdbuf := [], ill := true } := by simp only [runCommand, hillegal]; rfl
    _ = .next { s with ill := true } := by rw [← hempty]

/-- Settles O7: the turn is exec of the command in progress, and no command touches these fields (`exec_frame`). -/
theorem hostIsStalledDuringACommand : Obligations.HostIsStalledDuringACommand := by
  intro s t i rest hi hstep
  obtain ⟨-, -, hgoesOn⟩ := stepRunsTheDecodedCommand
  have frame := exec_frame ((hgoesOn s i rest hi).symm.trans hstep)
  exact ⟨frame.hostOps, frame.busData, frame.arb, frame.scanen, frame.ill⟩

end Sys2Proof.Machine
end

section
/-! ILL (10_state.md R31, 60_exceptions.md R282): what sets it and that nothing but a reset clears it. -/

namespace Sys2Proof.Machine

variable {s t : State}

/-- The command engine leaves `ILL` as it is with a command of the map, and sets it with an illegal header. -/
theorem runCommand_keeps_ill (h : runCommand s = .next t) (hill : s.ill = true) : t.ill = true := by
  unfold runCommand at h
  split at h
  case h_1 => exact (exec_frame h).ill.trans hill
  case h_2 => cases h; rfl
  case h_3 => cases h; exact hill

/-- No access of the host clears `ILL`: a write of CTRL does not reach it. -/
theorem hostAccess_keeps_ill {op : HostOp} (h : hostAccess op s = .next t) (hill : s.ill = true) : t.ill = true := by
  unfold hostAccess at h
  split at h
  case h_1 v => exact runCommand_keeps_ill (s := { s with cmdbuf := s.cmdbuf ++ [v] }) h hill
  all_goals cases h; exact hill

theorem primaryTurn_keeps_ill (h : primaryTurn s = .next t) (hill : s.ill = true) : t.ill = true := by
  unfold primaryTurn at h
  split at h
  case isTrue => exact runCommand_keeps_ill h hill
  case isFalse =>
    split at h
    case h_1 => cases h; exact hill
    case h_2 op rest hlist => exact hostAccess_keeps_ill (s := { s with hostOps := rest }) h hill

theorem EngineFrame.ill (h : EngineFrame s t) : t.ill = s.ill := by
  unfold EngineFrame at h
  rw [h]

@[simp] theorem nextTurn_ill (s : State) : (nextTurn s).2.ill = s.ill := by rw [nextTurn_frame]

/-- Every turn but a reset keeps a set `ILL`. -/
theorem takeTurn_keeps_ill {turn : Turn} (hturn : turn ≠ .reset) (h : takeTurn turn s = .next t) (hill : s.ill = true) :
    t.ill = true := by
  cases turn with
  | primary => exact primaryTurn_keeps_ill h hill
  | scan => cases h; exact (engineStep_frame s).ill.trans hill
  | tick ms => cases h; exact hill
  | reset => exact absurd rfl hturn

/-- Settles O14: by turns, a command of the map being neutral (`exec_frame`). -/
theorem illIsClearedByResetOnly : Obligations.IllIsClearedByResetOnly :=
  ⟨fun s _ hturn h hill => takeTurn_keeps_ill hturn h ((nextTurn_ill s).trans hill), fun _ _ _ h => (exec_frame h).ill⟩

end Sys2Proof.Machine
end

section
/-! The surface management and drawing-state commands (40_surface_mgmt.md R121 to R128): what each answers in either of its
outcomes. -/

namespace Sys2Proof.Machine

variable {s t : State}

/-! ### NOP -/

theorem exec_nop (s : State) : exec .nop s = .next { s with cmdbuf := [] } := rfl

/-- Settles O19: the host's word is a whole command, and what it leaves in `CMDBUF` is what was there, nothing. -/
theorem nopChangesNothing : Obligations.NopChangesNothing := by
  refine ⟨exec_nop, fun s a hempty => ?_⟩
  have hnop : decode (s.cmdbuf ++ [header 0x00 a]) = .ok (.nop, []) := by
    rw [hempty]
    exact decode_header _ _ _
  obtain ⟨hcompletes, -, -⟩ := stepRunsTheDecodedCommand
  calc step (s.hostDoes (.write 0 (header 0x00 a)))
    _ = exec .nop { s with cmdbuf := s.cmdbuf ++ [header 0x00 a] } := hcompletes s _ _ _ (by rw [hempty]; rfl) hnop
    _ = .next { s with cmdbuf := [] } := exec_nop _
    _ = .next s := by rw [← hempty]

/-! ### A write of one slot -/

/-- `t` has the table of `s` but for slot `n`, which lies in it and holds `o`. -/
structure WritesSlot (s t : State) (n : Nat) (o : Option Surface) : Prop where
  written : t.surf? n = o
  others : ∀ m, m ≠ n → t.surf? m = s.surf? m
  slots : t.surfaces.length = s.surfaces.length

theorem WritesSlot.of_table {n : Nat} {o : Option Surface} (table : t.surfaces = s.surfaces.set n o)
    (h : n < s.surfaces.length) : WritesSlot s t n o where
  written := (State.surf?_congr (s := s.setSlot n o) table n).trans (s.surf?_setSlot_same h o)
  others m hm := (State.surf?_congr (s := s.setSlot n o) table m).trans (s.surf?_setSlot_other hm.symm o)
  slots := by rw [table, List.length_set]

/-! ### SURFNEW -/

theorem exec_surfnew_created {slot : Byte} {w h : Word} (hcan : canCreate s slot.toNat w h = true) :
    exec (.surfnew slot w h) s = .next { s with
      surfaces := s.surfaces.set slot.toNat (some (Surface.fresh w h s.draws))
      result0 := 1, cmdbuf := [], draws := s.draws + 1 } :=
  congrArg Host.Outcome.next (if_pos hcan)

theorem exec_surfnew_refused {slot : Byte} {w h : Word} (hcannot : ¬ canCreate s slot.toNat w h = true) :
    exec (.surfnew slot w h) s = .next { s with result0 := 0, cmdbuf := [] } :=
  congrArg Host.Outcome.next (if_neg hcannot)

/-- Each of R122's grounds for answering 0 rules the creation out. -/
theorem not_canCreate_of_ground {slot : Byte} {w h : Word}
    (hground : slot = 0 ∨ s.cfg.nSurf ≤ slot.toNat ∨ (∃ sf, s.surf? slot.toNat = some sf) ∨
      (∃ cap, s.cfg.cellCap = some cap ∧ cap < s.usedCells + w.toNat * h.toNat)) :
    ¬ canCreate s slot.toNat w h = true := by
  intro hcan
  obtain ⟨hne, hrange, hfree, hfits⟩ := canCreate_iff.1 hcan
  rcases hground with rfl | hout | ⟨sf, hheld⟩ | ⟨cap, hcap, hover⟩
  · exact hne rfl
  · exact absurd hrange (Nat.not_lt.2 hout)
  · rw [hfree] at hheld; cases hheld
  · exact absurd (fitsCells_iff.1 hfits cap hcap) (Nat.not_le.2 hover)

/-- Settles O20: `canCreate` is the negation of R122's disjunction, and the new surface is `Surface.fresh`. -/
theorem surfnewCreatesOrReportsFailure : Obligations.SurfnewCreatesOrReportsFailure := by
  intro slot w h
  refine ⟨fun rest => decode_header _ _ _, fun s hslots => ⟨fun hground => ?_, fun hne hrange hfree hfits => ?_⟩⟩
  · exact exec_surfnew_refused (not_canCreate_of_ground hground)
  · have hcan : canCreate s slot.toNat w h = true :=
      canCreate_iff.2 ⟨fun h0 => hne (BitVec.eq_of_toNat_eq h0), hrange, hfree, fitsCells_iff.2 hfits⟩
    have writes {t : State} {o : Option Surface} (table : t.surfaces = s.surfaces.set slot.toNat o) :
        WritesSlot s t slot.toNat o := .of_table table (hslots ▸ hrange)
    exact ⟨_, Surface.fresh w h s.draws, exec_surfnew_created hcan, (writes rfl).written, rfl, rfl, rfl, rfl, rfl, rfl,
      (writes rfl).others, (writes rfl).slots, rfl⟩

/-! ### SURFFREE -/

theorem exec_surffree_refused {slot : Byte}
    (hground : slot = 0 ∨ s.cfg.nSurf ≤ slot.toNat ∨ s.surf? slot.toNat = none) :
    exec (.surffree slot) s = .next { s with result0 := 0, cmdbuf := [] } :=
  congrArg Host.Outcome.next (if_pos (hground.imp_right (Or.imp_right Option.isNone_iff_eq_none.2)))

theorem exec_surffree_destroyed {slot : Byte} {sf : Surface} (hne : slot ≠ 0) (hrange : slot.toNat < s.cfg.nSurf)
    (hheld : s.surf? slot.toNat = some sf) :
    exec (.surffree slot) s = .next { s with
      surfaces := s.surfaces.set slot.toNat none
      cur := if s.cur = slot then 0 else s.cur, result0 := 1, cmdbuf := [] } := by
  have hground : ¬ (slot = 0 ∨ s.cfg.nSurf ≤ slot.toNat ∨ (s.surf? slot.toNat).isNone = true) := by
    rintro (h0 | hout | hfree)
    · exact hne h0
    · exact absurd hrange (Nat.not_lt.2 hout)
    · rw [hheld] at hfree; cases hfree
  exact congrArg Host.Outcome.next (if_neg hground)

/-- Settles O21: the two outcomes of SURFFREE, the destroyed slot read by `WritesSlot`. -/
theorem surffreeDestroysOrReportsFailure : Obligations.SurffreeDestroysOrReportsFailure := by
  intro slot
  refine ⟨fun rest => decode_header _ _ _, fun s => ⟨exec_surffree_refused, fun sf hne hrange hheld => ?_⟩⟩
  have writes {t : State} (table : t.surfaces = s.surfaces.set slot.toNat none) : WritesSlot s t slot.toNat none :=
    .of_table table (s.lt_of_surf? hheld)
  exact ⟨_, exec_surffree_destroyed hne hrange hheld, (writes rfl).written, (writes rfl).others, (writes rfl).slots, rfl⟩

/-! ### SELECT -/

theorem exec_select_switched {slot : Byte} {sf : Surface} (hrange : slot.toNat < s.cfg.nSurf)
    (hheld : s.surf? slot.toNat = some sf) :
    exec (.select slot) s = .next { s with cur := slot, result0 := 1, cmdbuf := [] } :=
  congrArg Host.Outcome.next (if_pos ⟨hrange, Option.isSome_iff_exists.2 ⟨sf, hheld⟩⟩)

theorem exec_select_refused {slot : Byte} (hground : s.cfg.nSurf ≤ slot.toNat ∨ s.surf? slot.toNat = none) :
    exec (.select slot) s = .next { s with result0 := 0, cmdbuf := [] } := by
  have hcannot : ¬ (slot.toNat < s.cfg.nSurf ∧ (s.surf? slot.toNat).isSome = true) := by
    rintro ⟨hrange, hheld⟩
    rcases hground with hout | hfree
    · exact absurd hrange (Nat.not_lt.2 hout)
    · rw [hfree] at hheld; cases hheld
  exact congrArg Host.Outcome.next (if_neg hcannot)

/-- Bits 15:8 of STATUS are `CUR` (R31). -/
theorem State.highByte_status (s : State) : highByte (s.readReg 1) = s.cur := by
  obtain ⟨-, -, -, -, -, -, -, -, hcur⟩ := statusShowsItsBits s
  exact hcur

/-- Settles O22: the two outcomes of SELECT, and STATUS by `highByte_status`. -/
theorem selectSwitchesOrReportsFailure : Obligations.SelectSwitchesOrReportsFailure := by
  intro slot
  refine ⟨fun rest => decode_header _ _ _, fun s => ⟨fun sf hrange hheld => ?_, exec_select_refused⟩⟩
  exact ⟨_, exec_select_switched hrange hheld, rfl, State.highByte_status _⟩

/-! ### The drawing state -/

section
variable {sf : Surface} (hcur : s.current? = some sf)
include hcur

theorem exec_setcur_some (x y : Word) : exec (.setcur x y) s = .next (s.withCurrent { sf with cx := x, cy := y }) :=
  s.onCurrent_some hcur _

theorem exec_getcur_some : exec .getcur s = .next { s with result0 := sf.cx, result1 := sf.cy, cmdbuf := [] } := by
  change execGetcur s = _
  unfold execGetcur
  rw [hcur]
  rfl

theorem exec_setfg_some (c : Word) : exec (.setfg c) s = .next (s.withCurrent { sf with fg := c }) :=
  s.onCurrent_some hcur _

/-- SETFONT writes RESULT0 first and then acts on the current surface, which that write does not move. -/
theorem exec_setfont_some (f : Byte) :
    exec (.setfont f) s = .next ((s.setR0 (if f.toNat < s.cfg.nFonts then 1 else 0)).withCurrent
      (if f.toNat < s.cfg.nFonts then { sf with font := f } else sf)) := by
  have hcur' (v : Word) : (s.setR0 v).current? = some sf := hcur
  change execSetfont f s = _
  simp only [execSetfont, State.onCurrent_some _ (hcur' _), decide_eq_true_eq]

theorem exec_setfont_known {f : Byte} (hf : f.toNat < s.cfg.nFonts) :
    exec (.setfont f) s = .next { s.withCurrent { sf with font := f } with result0 := 1 } := by
  rw [exec_setfont_some hcur, if_pos hf, if_pos hf]
  rfl

theorem exec_setfont_unknown {f : Byte} (hf : s.cfg.nFonts ≤ f.toNat) :
    exec (.setfont f) s = .next { s with result0 := 0, cmdbuf := [] } := by
  have hcur0 : (s.setR0 0).current? = some sf := hcur
  rw [exec_setfont_some hcur, if_neg (Nat.not_lt.2 hf), if_neg (Nat.not_lt.2 hf), State.withCurrent_self _ hcur0]
  rfl

end

/-- Settles O23: the four commands on the current surface; a font out of range writes the surface back as it was. -/
theorem drawingStateCommandsActOnTheCurrentSurface : Obligations.DrawingStateCommandsActOnTheCurrentSurface :=
  ⟨fun _ _ _ _ => ⟨decode_header _ _ _, decode_header _ _ _, decode_header _ _ _, decode_header _ _ _⟩,
    fun _ _ hcur => ⟨exec_setcur_some hcur, exec_getcur_some hcur, exec_setfg_some hcur, fun _ => exec_setfont_known hcur,
      fun _ => exec_setfont_unknown hcur⟩⟩

end Sys2Proof.Machine
end

section
/-! The loops of the rasterizer (41_rasterizer.md R140): a loop may drop the iterations that change nothing, and what a loop of
cell writes paints. -/

namespace Sys2Proof.Machine

/-! ### Clipped extents -/

/-- The positions that `clipped` keeps are those below the limit (R140). -/
theorem range_clipped (start n limit : Nat) :
    List.range (clipped start n limit) = (List.range n).filter fun k => start + k < limit := by
  induction n with
  | zero => simp [clipped]
  | succ n ih =>
    rw [List.range_succ, List.filter_append, ← ih]
    by_cases hn : start + n < limit
    · have hall : clipped start n limit = n := by unfold clipped; omega
      have hnext : clipped start (n + 1) limit = n + 1 := by unfold clipped; omega
      simp [hn, hall, hnext, List.range_succ]
    · have hfull : clipped start (n + 1) limit = clipped start n limit := by unfold clipped; omega
      simp [hn, hfull]

theorem mem_range_clipped {start n limit k : Nat} :
    k ∈ List.range (clipped start n limit) ↔ k < n ∧ start + k < limit := by
  simp [range_clipped]

theorem mem_rowMajor {w h : Nat} {p : Nat × Nat} : p ∈ rowMajor w h ↔ p.1 < w ∧ p.2 < h := by
  obtain ⟨px, py⟩ := p
  simp [rowMajor, and_comm]

/-- The clipped area is the part of the whole area that lies below both limits, in the same order (R140, R155). -/
theorem rowMajor_clipped (x y w h wl hl : Nat) :
    rowMajor (clipped x w wl) (clipped y h hl) = (rowMajor w h).filter fun p => x + p.1 < wl && y + p.2 < hl := by
  have rows (l : List Nat) (f : Nat → List (Nat × Nat)) :
      (l.filter fun k => y + k < hl).flatMap f = l.flatMap fun k => if y + k < hl then f k else [] := by
    induction l with
    | nil => rfl
    | cons k l ih => by_cases hk : y + k < hl <;> simp [hk, ih]
  simp only [rowMajor, range_clipped, rows, List.filter_flatMap, List.filter_map]
  refine List.flatMap_congr fun k _ => ?_
  by_cases hk : y + k < hl <;> simp [hk, Function.comp_def]

/-- The two nested loops of R150 and R154 are one loop over the area, row by row. -/
theorem foldl_rowMajor {β : Type} (f : β → Nat × Nat → β) (w h : Nat) (b : β) :
    (rowMajor w h).foldl f b =
      (List.range h).foldl (fun t y => (List.range w).foldl (fun u x => f u (x, y)) t) b := by
  simp only [rowMajor, List.foldl_flatMap, List.foldl_map]

namespace Surface

variable {sf t u : Surface}

theorem SameBuffer.refl (sf : Surface) : sf.SameBuffer sf := ⟨rfl, rfl, rfl⟩

theorem SameBuffer.trans (h : sf.SameBuffer t) (h' : t.SameBuffer u) : sf.SameBuffer u :=
  ⟨h'.1.trans h.1, h'.2.1.trans h.2.1, h'.2.2.trans h.2.2⟩

theorem SameText.refl (sf : Surface) : sf.SameText sf := ⟨rfl, rfl, rfl, rfl⟩

theorem SameText.trans (h : sf.SameText t) (h' : t.SameText u) : sf.SameText u :=
  ⟨h'.1.trans h.1, h'.2.1.trans h.2.1, h'.2.2.1.trans h.2.2.1, h'.2.2.2.trans h.2.2.2⟩

theorem sameBuffer_drawPixel (t : Surface) (x y : Nat) (c : Word) : t.SameBuffer (t.drawPixel x y c) :=
  (t.drawPixel_paints x y c).buffer

theorem sameText_drawPixel (t : Surface) (x y : Nat) (c : Word) : t.SameText (t.drawPixel x y c) := by simp [SameText]

/-! ### Loops over surfaces -/

section
variable {α : Type} (l : List α) {f g : Surface → α → Surface}

/-- Two loops agree whose iterations agree on every surface of the size of the first. -/
theorem foldl_congr_of_sameBuffer (hkeep : ∀ (t : Surface) a, t.SameBuffer (f t a))
    (heq : ∀ t : Surface, sf.SameBuffer t → ∀ a ∈ l, f t a = g t a) : l.foldl f sf = l.foldl g sf := by
  have h := List.foldl_rel (l := l) (f := f) (g := g) (r := fun t u => t = u ∧ sf.SameBuffer t) ⟨rfl, .refl sf⟩ ?_
  · exact h.1
  · rintro a ha t _ ⟨rfl, ht⟩
    exact ⟨heq t ht a ha, ht.trans (hkeep t a)⟩

/-- A loop may drop the iterations that change nothing. -/
theorem foldl_filter_of_skip (p : α → Bool) (hkeep : ∀ (t : Surface) a, t.SameBuffer (f t a))
    (hskip : ∀ t, sf.SameBuffer t → ∀ a, p a = false → f t a = t) : (l.filter p).foldl f sf = l.foldl f sf := by
  rw [List.foldl_filter]
  refine (foldl_congr_of_sameBuffer l hkeep fun t ht a _ => ?_).symm
  cases hp : p a with
  | true => rfl
  | false => exact hskip t ht a hp

theorem sameText_foldl (hkeep : ∀ (t : Surface) a, t.SameText (f t a)) (sf : Surface) : sf.SameText (l.foldl f sf) :=
  List.foldlRecOn l f (motive := sf.SameText) (SameText.refl sf) fun t ht a _ => ht.trans (hkeep t a)

/-! ### What a loop paints -/

variable {drawn drawn' : Nat → Nat → Prop} {value value' : Nat → Nat → Word}

theorem Paints.congr (h : sf.Paints t drawn value)
    (hdrawn : ∀ x y, sf.inside x y = true → (drawn x y ↔ drawn' x y))
    (hvalue : ∀ x y, drawn' x y → value x y = value' x y) : sf.Paints t drawn' value' where
  buffer := h.buffer
  painted x y hin hd := (h.painted x y hin ((hdrawn x y hin).2 hd)).trans (hvalue x y hd)
  others a ha := h.others a fun x y hin hd => ha x y hin ((hdrawn x y hin).1 hd)

theorem Paints.trans (h : sf.Paints t drawn value) (h' : t.Paints u drawn' value) :
    sf.Paints u (fun x y => drawn x y ∨ drawn' x y) value where
  buffer := h.buffer.trans h'.buffer
  painted x y hin hd := by
    have hin' : t.inside x y = true := (h.buffer.inside x y).trans hin
    rw [← h.buffer.index]
    by_cases hlater : drawn' x y
    · exact h'.painted x y hin' hlater
    · rw [h'.cell_unchanged hin' hlater, h.buffer.index]
      exact h.painted x y hin (hd.resolve_right hlater)
  others a ha := by
    have hlater : u.byteAt a = t.byteAt a := h'.others a fun x y hin hd => by
      rw [h.buffer.index]
      exact ha x y ((h.buffer.inside x y).symm.trans hin) (.inr hd)
    exact hlater.trans (h.others a fun x y hin hd => ha x y hin (.inl hd))

/-- Nothing is painted by an iteration that changes nothing. -/
theorem Paints.none (hnone : ∀ x y, sf.inside x y = true → ¬ drawn x y) : sf.Paints sf drawn value :=
  ⟨.refl sf, fun x y hin hd => absurd hd (hnone x y hin), fun _ _ => rfl⟩

/-- A loop paints what its iterations paint, if a pixel is given one value whichever iteration paints it. -/
theorem paints_foldl {drawnBy : α → Nat → Nat → Prop}
    (hstep : ∀ t, sf.SameBuffer t → ∀ a ∈ l, t.Paints (f t a) (drawnBy a) value) :
    sf.Paints (l.foldl f sf) (fun x y => ∃ a ∈ l, drawnBy a x y) value := by
  induction l generalizing sf with
  | nil => exact .none (by simp)
  | cons a l ih =>
    have hfirst := hstep sf (.refl sf) a List.mem_cons_self
    have hrest := ih fun t ht b hb => hstep t (hfirst.buffer.trans ht) b (List.mem_cons_of_mem _ hb)
    exact (hfirst.trans hrest).congr (by simp) fun _ _ _ => rfl

end

/-- A cell write paints the pixel of its cell. -/
theorem paints_cellWrite {x y : Nat} (hin : sf.inside x y = true) (value : Nat → Nat → Word) :
    sf.Paints (sf.cellWrite (sf.index x y) (value x y)) (fun px py => px = x ∧ py = y) value where
  buffer := .refl sf
  painted := by
    rintro px py - ⟨rfl, rfl⟩
    exact sf.cellRead_cellWrite_same _ _
  others a ha := sf.byteAt_cellWrite_other _ (Ne.symm (ha x y hin ⟨rfl, rfl⟩))

/-! ### Loops of writes of one value -/

/-- One value written to each of a list of cells. -/
def writeCells (sf : Surface) (l : List Nat) (v : Word) : Surface := l.foldl (fun t i => t.cellWrite i v) sf

/-- The byte that a cell's value has at a byte address (20_memory.md R71). -/
def cellByte (v : Word) (a : Nat) : Byte := if a % 2 = 0 then lowByte v else highByte v

theorem fill_eq_writeCells (sf : Surface) (c : Word) :
    sf.fill c = sf.writeCells (List.range sf.cells) (bswap16 c) := rfl

/-- A loop of `drawPixel`s writes the cells of those of its pixels that are inside (R142). -/
theorem drawAll_eq_writeCells (sf : Surface) (l : List (Nat × Nat)) (c : Word) :
    sf.drawAll l c =
      sf.writeCells ((l.filter fun p => sf.inside p.1 p.2).map fun p => sf.index p.1 p.2) (bswap16 c) := by
  rw [writeCells, List.foldl_map, List.foldl_filter]
  refine foldl_congr_of_sameBuffer l (fun t p => t.sameBuffer_drawPixel _ _ _) fun t ht p _ => ?_
  rw [drawPixel, ht.inside, ht.index]

theorem read?_cellWrite (sf : Surface) (i : Nat) (v : Word) (a : Nat) :
    Memory.read? (sf.cellWrite i v).mem a = if a / 2 = i then some (cellByte v a) else Memory.read? sf.mem a := by
  simp only [cellWrite, Memory.read?_write, cellByte]
  by_cases hhigh : 2 * i + 1 = a
  · rw [if_pos hhigh, if_pos (by omega), if_neg (by omega)]
  · by_cases hlow : 2 * i = a
    · rw [if_neg hhigh, if_pos hlow, if_pos (by omega), if_pos (by omega)]
    · rw [if_neg hhigh, if_neg hlow, if_neg (by omega)]

theorem read?_writeCells (sf : Surface) (l : List Nat) (v : Word) (a : Nat) :
    Memory.read? (sf.writeCells l v).mem a =
      if a / 2 ∈ l then some (cellByte v a) else Memory.read? sf.mem a := by
  induction l generalizing sf with
  | nil => simp [writeCells]
  | cons i l ih =>
    have hcons := ih (sf.cellWrite i v)
    rw [read?_cellWrite] at hcons
    refine hcons.trans ?_
    by_cases hl : a / 2 ∈ l <;> simp [hl]

theorem wf_writeCells (hwf : Memory.wf sf.mem) (l : List Nat) (v : Word) : Memory.wf (sf.writeCells l v).mem :=
  List.foldlRecOn l _ (motive := fun t : Surface => Memory.wf t.mem) hwf
    fun _ ht _ _ => Memory.wf_write (Memory.wf_write ht _ _) _ _

theorem writeCells_fields (sf : Surface) (l : List Nat) (v : Word) :
    sf.writeCells l v = { sf with mem := (sf.writeCells l v).mem } :=
  List.foldlRecOn l _ (motive := fun t : Surface => t = { sf with mem := t.mem }) rfl
    fun t ht i _ => by rw [ht]; rfl

/-- From a canonical buffer, the order of the writes and their repetition leave no trace. -/
theorem writeCells_congr (hwf : Memory.wf sf.mem) {l l' : List Nat} (hmem : ∀ i, i ∈ l ↔ i ∈ l') (v : Word) :
    sf.writeCells l v = sf.writeCells l' v := by
  have hbytes : (sf.writeCells l v).mem = (sf.writeCells l' v).mem :=
    Memory.ext (wf_writeCells hwf l v) (wf_writeCells hwf l' v) fun a => by simp only [read?_writeCells, hmem]
  rw [writeCells_fields sf l, hbytes, ← writeCells_fields]

/-- From a canonical buffer, two loops of `drawPixel`s that visit the same pixels of the surface leave the same surface. -/
theorem drawAll_congr (hwf : Memory.wf sf.mem) {l l' : List (Nat × Nat)}
    (hmem : ∀ x y, sf.inside x y = true → ((x, y) ∈ l ↔ (x, y) ∈ l')) (c : Word) :
    sf.drawAll l c = sf.drawAll l' c := by
  have hfilter (p : Nat × Nat) :
      (p ∈ l.filter fun q => sf.inside q.1 q.2) ↔ p ∈ l'.filter fun q => sf.inside q.1 q.2 := by
    simp only [List.mem_filter]
    exact and_congr_left (hmem p.1 p.2)
  rw [drawAll_eq_writeCells, drawAll_eq_writeCells]
  exact writeCells_congr hwf (fun i => by simp only [List.mem_map, hfilter]) _

theorem drawAll_append (sf : Surface) (l l' : List (Nat × Nat)) (c : Word) :
    sf.drawAll (l ++ l') c = (sf.drawAll l c).drawAll l' c := List.foldl_append

end Surface

end Sys2Proof.Machine
end

section
/-! FILL, PIXEL and GETPIX (41_rasterizer.md R141 to R145). -/

namespace Sys2Proof.Machine

variable {s : State} {sf : Surface}

theorem Surface.fill_paints (sf : Surface) (c : Word) : sf.Paints (sf.fill c) (fun _ _ => True) (fun _ _ => bswap16 c) := by
  have hloop : sf.Paints (sf.fill c) (fun x y => ∃ i ∈ List.range sf.cells, sf.index x y = i) (fun _ _ => bswap16 c) := by
    refine Surface.paints_foldl _ fun t ht i hi => ?_
    obtain ⟨x, y, hin, rfl⟩ := sf.exists_pixel (List.mem_range.1 hi)
    rw [← ht.inside] at hin
    simp only [← ht.index]
    refine (Surface.paints_cellWrite hin fun _ _ => bswap16 c).congr
      (fun px py hpin => ⟨?_, t.index_inj hpin hin⟩) fun _ _ _ => rfl
    rintro ⟨rfl, rfl⟩
    rfl
  refine hloop.congr (fun x y hin => iff_of_true ⟨_, ?_, rfl⟩ trivial) fun _ _ _ => rfl
  exact List.mem_range.2 (sf.index_lt_cells hin)

theorem Surface.sameText_fill (sf : Surface) (c : Word) : sf.SameText (sf.fill c) :=
  sameText_foldl _ (fun t i => .refl (t.cellWrite i (bswap16 c))) sf

theorem exec_fill_some (hcur : s.current? = some sf) (c : Word) : exec (.fill c) s = .next (s.withCurrent (sf.fill c)) :=
  s.onCurrent_some hcur _

/-- Settles O24: every cell is that of a pixel, so that the loop over the cells paints every pixel. -/
theorem fillPaintsEveryCell : Obligations.FillPaintsEveryCell := fun c =>
  ⟨fun _ _ => decode_header _ _ _, fun _ sf hcur =>
    ⟨_, exec_fill_some hcur c, sf.sameText_fill c, sf.fill_paints c⟩⟩

/-- Settles O25 by `drawPixel_paints`. -/
theorem pixelPaintsItsCell : Obligations.PixelPaintsItsCell := fun x y c =>
  ⟨fun _ _ => decode_header _ _ _, fun _ sf hcur =>
    ⟨_, execPixel_some hcur x y c, sf.sameText_drawPixel _ _ _, sf.drawPixel_paints _ _ c⟩⟩

theorem Surface.getPixel_of_inside {x y : Nat} (h : sf.inside x y = true) :
    sf.getPixel x y = bswap16 (sf.cellRead (sf.index x y)) := if_pos h

theorem Surface.getPixel_of_outside {x y : Nat} (h : ¬ sf.inside x y = true) : sf.getPixel x y = 0 := if_neg h

/-- Settles O26: the two sides of the bounds test of R144. -/
theorem getpixAnswersTheTrueColour : Obligations.GetpixAnswersTheTrueColour := by
  refine fun x y => ⟨fun _ _ => decode_header _ _ _, fun s sf hcur => ⟨fun hx hy => ?_, fun hout => ?_⟩⟩
  · refine (execGetpix_some hcur x y).trans ?_
    rw [Surface.getPixel_of_inside (sf.inside_iff.2 ⟨hx, hy⟩)]
    rfl
  · refine (execGetpix_some hcur x y).trans ?_
    rw [Surface.getPixel_of_outside (by rw [sf.inside_iff]; omega)]
    rfl

end Sys2Proof.Machine
end

section
/-! LINE and RECT (41_rasterizer.md R147 to R153): which pixels they visit, and their rules' own loops. -/

namespace Sys2Proof.Machine

variable {s : State} {sf : Surface}

theorem exec_line_some (hcur : s.current? = some sf) (x1 y1 x2 y2 c : Word) :
    exec (.line x1 y1 x2 y2 c) s =
      .next (s.withCurrent (sf.drawAll (sf.linePixels x1.toNat y1.toNat x2.toNat y2.toNat) c)) := s.onCurrent_some hcur _

theorem exec_rect_some (hcur : s.current? = some sf) (filled : Bool) (x y w h radius c : Word) :
    exec (.rect filled x y w h radius c) s =
      .next (s.withCurrent (sf.drawAll (sf.rectPixels filled x.toNat y.toNat w.toNat h.toNat) c)) :=
  s.onCurrent_some hcur _

namespace Surface

/-! ### The pixels of LINE and RECT -/

/-- Both end points belong to a line, and a diagonal has no pixel (R147 to R149). -/
theorem mem_linePixels {px py : Nat} (hin : sf.inside px py = true) (x1 y1 x2 y2 : Nat) :
    (px, py) ∈ sf.linePixels x1 y1 x2 y2 ↔
      (x1 = x2 ∧ px = x1 ∧ min y1 y2 ≤ py ∧ py ≤ max y1 y2) ∨
      (x1 ≠ x2 ∧ y1 = y2 ∧ py = y1 ∧ min x1 x2 ≤ px ∧ px ≤ max x1 x2) := by
  obtain ⟨hx, hy⟩ := (sf.inside_iff).1 hin
  unfold linePixels
  by_cases hvertical : x1 = x2
  · simp only [if_pos hvertical, List.mem_map, mem_range_clipped, Prod.mk.injEq]
    refine ⟨?_, fun h => ⟨py - min y1 y2, ?_⟩⟩
    · rintro ⟨k, hk, rfl, rfl⟩
      omega
    · omega
  · by_cases hhorizontal : y1 = y2
    · simp only [if_neg hvertical, if_pos hhorizontal, List.mem_map, mem_range_clipped, Prod.mk.injEq]
      refine ⟨?_, fun h => ⟨px - min x1 x2, ?_⟩⟩
      · rintro ⟨k, hk, rfl, rfl⟩
        omega
      · omega
    · simp [hvertical, hhorizontal]

theorem mem_linePixels_vertical {px py : Nat} (hin : sf.inside px py = true) (x : Nat) {y1 y2 : Nat} (hy : y1 ≤ y2) :
    (px, py) ∈ sf.linePixels x y1 x y2 ↔ px = x ∧ y1 ≤ py ∧ py ≤ y2 := by
  simp [mem_linePixels hin, hy]

theorem mem_linePixels_horizontal {px py : Nat} (hin : sf.inside px py = true) {x1 x2 : Nat} (y : Nat) (hx : x1 ≤ x2) :
    (px, py) ∈ sf.linePixels x1 y x2 y ↔ py = y ∧ x1 ≤ px ∧ px ≤ x2 := by
  rw [mem_linePixels hin, min_self, max_self, min_eq_left hx, max_eq_right hx]
  omega

theorem linePixels_comm (sf : Surface) (x1 y1 x2 y2 : Nat) :
    sf.linePixels x1 y1 x2 y2 = sf.linePixels x2 y2 x1 y1 := by
  unfold linePixels
  rw [min_comm y1, max_comm y1, min_comm x1, max_comm x1]
  by_cases hvertical : x1 = x2
  · simp [hvertical]
  · by_cases hhorizontal : y1 = y2
    · subst hhorizontal
      simp [hvertical, Ne.symm hvertical]
    · simp [hvertical, hhorizontal, Ne.symm hvertical, Ne.symm hhorizontal]

theorem rectDraws_iff {filled : Bool} {w h ix iy : Nat} (hx : ix < w) (hy : iy < h) :
    rectDraws filled w h ix iy = true ↔ filled = true ∨ ix = 0 ∨ ix + 1 = w ∨ iy = 0 ∨ iy + 1 = h := by
  have hlastx : ix = w - 1 ↔ ix + 1 = w := by omega
  have hlasty : iy = h - 1 ↔ iy + 1 = h := by omega
  simp [rectDraws, hlastx, hlasty, or_assoc]

/-- RECT.F has the pixels of its area, RECT those of them in a first or last row or column (R150). -/
theorem mem_rectPixels {px py : Nat} (hin : sf.inside px py = true) (filled : Bool) (x y w h : Nat) :
    (px, py) ∈ sf.rectPixels filled x y w h ↔
      x ≤ px ∧ px < x + w ∧ y ≤ py ∧ py < y + h ∧
      (filled = true ∨ px = x ∨ px + 1 = x + w ∨ py = y ∨ py + 1 = y + h) := by
  simp only [rectPixels, List.mem_map, List.mem_filter, rowMajor_clipped, mem_rowMajor, Prod.mk.injEq]
  constructor
  · rintro ⟨⟨ix, iy⟩, ⟨⟨⟨hix, hiy⟩, -⟩, hdraws⟩, rfl, rfl⟩
    have hborder := (rectDraws_iff hix hiy).1 hdraws
    exact ⟨by omega, by omega, by omega, by omega, hborder.imp_right fun _ => by omega⟩
  · rintro ⟨hx, hxw, hy, hyh, hborder⟩
    have hix : px - x < w := by omega
    have hiy : py - y < h := by omega
    refine ⟨(px - x, py - y), ⟨⟨⟨hix, hiy⟩, ?_⟩, (rectDraws_iff hix hiy).2 (hborder.imp_right fun _ => by omega)⟩, ?_⟩
    · rwa [Nat.add_sub_cancel' hx, Nat.add_sub_cancel' hy]
    · omega

/-! ### The loops of the rules -/

/-- A pixel outside the surface is dropped by each iteration of a loop that keeps the size. -/
theorem SameBuffer.drawPixel_outside {t : Surface} (ht : sf.SameBuffer t) {x y : Nat}
    (hout : ¬ (x < sf.w.toNat ∧ y < sf.h.toNat)) (c : Word) : t.drawPixel x y c = t := by
  refine t.drawPixel_outside (Bool.eq_false_iff.2 fun hin => hout ?_) c
  rwa [ht.inside, sf.inside_iff] at hin

/-- A loop along one axis may be clipped where what is dropped lies outside the surface. -/
theorem drawAll_range_clipped (sf : Surface) (pixel : Nat → Nat × Nat) {start limit : Nat} (n : Nat)
    (hout : ∀ k, ¬ start + k < limit → ¬ ((pixel k).1 < sf.w.toNat ∧ (pixel k).2 < sf.h.toNat)) (c : Word) :
    sf.drawAll ((List.range (clipped start n limit)).map pixel) c =
      (List.range n).foldl (fun t k => t.drawPixel (pixel k).1 (pixel k).2 c) sf := by
  rw [drawAll, List.foldl_map, range_clipped]
  exact foldl_filter_of_skip _ _ (fun t k => t.sameBuffer_drawPixel _ _ _) fun t ht k hk =>
    ht.drawPixel_outside (hout k (of_decide_eq_false hk)) c

/-- LINE's clipped loop leaves what the loop of R147 and R149 leaves. -/
theorem drawAll_linePixels (sf : Surface) (x1 y1 x2 y2 : Nat) (c : Word) :
    sf.drawAll (sf.linePixels x1 y1 x2 y2) c = sf.lineLoop x1 y1 x2 y2 c := by
  have length (a b : Nat) : max a b + 1 - min a b = max a b - min a b + 1 := by omega
  unfold linePixels lineLoop
  by_cases hvertical : x1 = x2
  · simp only [if_pos hvertical, length]
    exact sf.drawAll_range_clipped (fun k => (x1, min y1 y2 + k)) _ (fun k hk hin => hk hin.2) c
  · by_cases hhorizontal : y1 = y2
    · simp only [if_neg hvertical, if_pos hhorizontal, length]
      exact sf.drawAll_range_clipped (fun k => (min x1 x2 + k, y1)) _ (fun k hk hin => hk hin.1) c
    · simp only [if_neg hvertical, if_neg hhorizontal]
      rfl

/-- RECT's clipped loop leaves what the loop of R150 leaves. -/
theorem drawAll_rectPixels (sf : Surface) (filled : Bool) (x y w h : Nat) (c : Word) :
    sf.drawAll (sf.rectPixels filled x y w h) c = sf.rectLoop filled x y w h c := by
  unfold drawAll rectPixels rectLoop
  rw [List.foldl_map, List.foldl_filter, rowMajor_clipped]
  refine (foldl_filter_of_skip _ _ (fun t p => ?_) fun t ht p hp => ?_).trans ?_
  · split
    · exact t.sameBuffer_drawPixel _ _ _
    · exact .refl t
  · split
    · refine ht.drawPixel_outside (fun hin => ?_) c
      simp [hin] at hp
    · rfl
  · simp only [foldl_rowMajor, rectDraws, Bool.or_eq_true, beq_iff_eq, or_assoc]

/-- A rectangle at the origin of at least the surface's size has every pixel inside the surface (R153). -/
theorem drawAll_covering_eq_fill (hwf : Memory.wf sf.mem) {w h : Nat} (hw : sf.w.toNat ≤ w) (hh : sf.h.toNat ≤ h)
    (c : Word) : sf.drawAll (sf.rectPixels true 0 0 w h) c = sf.fill c := by
  rw [drawAll_eq_writeCells, fill_eq_writeCells]
  refine writeCells_congr hwf (fun i => ?_) _
  simp only [List.mem_map, List.mem_filter, List.mem_range]
  constructor
  · rintro ⟨p, ⟨-, hin⟩, rfl⟩
    exact sf.index_lt_cells hin
  · intro hi
    obtain ⟨px, py, hin, rfl⟩ := sf.exists_pixel hi
    obtain ⟨hx, hy⟩ := (sf.inside_iff).1 hin
    refine ⟨(px, py), ⟨(mem_rectPixels hin ..).2 ⟨?_, ?_, ?_, ?_, .inl rfl⟩, hin⟩, rfl⟩ <;> omega

end Surface

/-! ### The statements on one command -/

/-- Settles O28: the pixels by `mem_linePixels`, the symmetry by `linePixels_comm`. -/
theorem linePaintsItsPixels : Obligations.LinePaintsItsPixels := by
  refine fun x1 y1 x2 y2 c => ⟨fun _ _ => decode_header _ _ _, fun s sf hcur => ⟨?_, _, exec_line_some hcur .., ?_, ?_⟩⟩
  · rw [exec_line_some hcur, exec_line_some hcur, sf.linePixels_comm]
  · exact (sf.drawAll_fields _ c).2
  · refine (sf.drawAll_paints _ c).congr (fun px py hin => ?_) fun _ _ _ => rfl
    rw [Surface.mem_linePixels hin, BitVec.toNat_inj, Ne, BitVec.toNat_inj, BitVec.toNat_inj]

/-- Settles O29 by `mem_rectPixels`. -/
theorem rectPaintsItsPixels : Obligations.RectPaintsItsPixels := fun x y w h radius c =>
  ⟨fun _ _ => decode_header _ _ _, fun filled _ sf hcur =>
    ⟨_, exec_rect_some hcur filled x y w h radius c, (sf.drawAll_fields _ c).2,
      (sf.drawAll_paints _ c).congr (fun _ _ hin => Surface.mem_rectPixels hin ..) fun _ _ _ => rfl⟩⟩

/-- Settles O30: a pixel outside the surface is dropped wherever it stands in the loop. -/
theorem lineAndRectAreTheLoopsOfTheirRules : Obligations.LineAndRectAreTheLoopsOfTheirRules := by
  refine fun s sf hcur => ⟨fun x1 y1 x2 y2 c => ?_, fun filled x y w h radius c => ?_⟩
  · rw [exec_line_some hcur, sf.drawAll_linePixels]
  · rw [exec_rect_some hcur, sf.drawAll_rectPixels]

/-- Settles O31: both write every cell, from a buffer in canonical form. -/
theorem coveringFilledRectEqualsFill : Obligations.CoveringFilledRectEqualsFill := by
  intro w h radius c s sf hcur hwf hw hh
  rw [exec_rect_some hcur, exec_fill_some hcur]
  exact congrArg (fun t => Host.Outcome.next (s.withCurrent t)) (Surface.drawAll_covering_eq_fill hwf hw hh c)

/-! ### LINE after LINE -/

/-- The second of two commands on the current surface overwrites what the first left there. -/
theorem State.withCurrent_withCurrent (s : State) (t u : Surface) : (s.withCurrent t).withCurrent u = s.withCurrent u := by
  simp [State.withCurrent]

theorem Surface.SameBuffer.linePixels {t : Surface} (h : sf.SameBuffer t) (x1 y1 x2 y2 : Nat) :
    t.linePixels x1 y1 x2 y2 = sf.linePixels x1 y1 x2 y2 := by
  unfold Surface.linePixels
  rw [h.1, h.2.1]

/-- A LINE after drawing in its colour goes on with the same loop. -/
theorem exec_line_after_drawAll (hcur : s.current? = some sf) (l : List (Nat × Nat)) (x1 y1 x2 y2 c : Word) :
    exec (.line x1 y1 x2 y2 c) (s.withCurrent (sf.drawAll l c)) =
      .next (s.withCurrent (sf.drawAll (l ++ sf.linePixels x1.toNat y1.toNat x2.toNat y2.toNat) c)) := by
  rw [exec_line_some (s.withCurrent_current? hcur _), s.withCurrent_withCurrent,
    (sf.drawAll_fields l c).1.linePixels, sf.drawAll_append]

/-- Settles O32: the four lines have the pixels of the outline, some of them twice, and the canonical buffer does not keep the
order of the writes. -/
theorem outlineIsItsFourLines : Obligations.OutlineIsItsFourLines := by
  intro x y w h radius c xe ye s sf hcur hwf hw hh hxe hye
  simp only [exec_rect_some hcur, execAll, exec_line_some hcur, exec_line_after_drawAll hcur]
  refine congrArg (fun t => Host.Outcome.next (s.withCurrent t)) (Surface.drawAll_congr hwf (fun px py hin => ?_) c)
  have hx : x.toNat ≤ xe.toNat := by omega
  have hy : y.toNat ≤ ye.toNat := by omega
  simp only [List.mem_append, Surface.mem_rectPixels hin, Surface.mem_linePixels_horizontal hin _ hx,
    Surface.mem_linePixels_vertical hin _ hy, reduceCtorEq, false_or]
  omega

end Sys2Proof.Machine
end

section
/-! SPRITE (41_rasterizer.md R154 to R156). -/

namespace Sys2Proof.Machine

variable {s : State} {sf so : Surface}

namespace Surface

theorem copyCell_sameText (src t : Surface) (x y : Nat) (p : Nat × Nat) : t.SameText (copyCell src t x y p) := by
  unfold copyCell
  split
  · exact .refl t
  · exact .refl t

theorem copyCell_outside {src t : Surface} {x y : Nat} {p : Nat × Nat}
    (hout : (decide (x + p.1 < t.w.toNat) && decide (y + p.2 < t.h.toNat)) = false) : copyCell src t x y p = t :=
  if_neg (Bool.eq_false_iff.1 hout)

/-- One iteration paints its pixel with the source's stored cell (R154). -/
theorem copyCell_paints (src t : Surface) (x y : Nat) (p : Nat × Nat) :
    t.Paints (copyCell src t x y p) (fun px py => px = x + p.1 ∧ py = y + p.2)
      (fun px py => src.cellRead ((py - y) * src.w.toNat + (px - x))) := by
  unfold copyCell
  split
  case isTrue hin =>
    have hvalue := paints_cellWrite hin fun px py => src.cellRead ((py - y) * src.w.toNat + (px - x))
    rwa [Nat.add_sub_cancel_left, Nat.add_sub_cancel_left] at hvalue
  case isFalse hout =>
    refine .none fun px py hin hp => hout ?_
    rwa [← hp.1, ← hp.2]

theorem copyCell_sameBuffer (src t : Surface) (x y : Nat) (p : Nat × Nat) : t.SameBuffer (copyCell src t x y p) :=
  (copyCell_paints src t x y p).buffer

/-- Neither loop of SPRITE is changed by the pixels that clipping drops (R155). -/
theorem foldl_copyCell_clipped (src : Surface → Surface) (d : Surface) (x y w h : Nat) :
    (rowMajor (clipped x w d.w.toNat) (clipped y h d.h.toNat)).foldl (fun t p => copyCell (src t) t x y p) d =
      (rowMajor w h).foldl (fun t p => copyCell (src t) t x y p) d := by
  rw [rowMajor_clipped]
  refine foldl_filter_of_skip _ _ (fun t p => copyCell_sameBuffer (src t) t x y p) fun t ht p hp => ?_
  rw [← ht.1, ← ht.2.1] at hp
  exact copyCell_outside hp

/-- SPRITE's clipped loop from another surface leaves what the loop of R154 leaves. -/
theorem blit_eq_spriteLoop (src d : Surface) (x y : Nat) : src.blit d x y = src.spriteLoop false d x y := by
  refine (foldl_copyCell_clipped (fun _ => src) d x y _ _).trans ((foldl_rowMajor _ _ _ _).trans ?_)
  simp only [copyCell, inside_iff]
  rfl

/-- The same where source and destination are one surface: the loop keeps the width by which the rule finds its cells. -/
theorem blitSelf_eq_spriteLoop (d : Surface) (x y : Nat) : d.blitSelf x y = d.spriteLoop true d x y := by
  have hrule := foldl_rowMajor (fun (u : Surface) p => if x + p.1 < u.w.toNat ∧ y + p.2 < u.h.toNat then
    u.cellWrite ((y + p.2) * u.w.toNat + (x + p.1)) (u.cellRead (p.2 * d.w.toNat + p.1)) else u) d.w.toNat d.h.toNat d
  refine (foldl_copyCell_clipped id d x y _ _).trans (.trans ?_ hrule)
  refine foldl_congr_of_sameBuffer _ (fun t p => copyCell_sameBuffer t t x y p) fun t ht p _ => ?_
  simp only [copyCell, inside_iff, id, index, ht.1]

/-- Blitting from another surface paints the pixels under the source with its stored cells (R155). -/
theorem blit_paints (src d : Surface) (x y : Nat) :
    d.Paints (src.blit d x y)
      (fun px py => x ≤ px ∧ px < x + src.w.toNat ∧ y ≤ py ∧ py < y + src.h.toNat)
      (fun px py => src.cellRead ((py - y) * src.w.toNat + (px - x))) := by
  refine (paints_foldl _ fun t _ p _ => copyCell_paints src t x y p).congr (fun px py hin => ?_) fun _ _ _ => rfl
  obtain ⟨hx, hy⟩ := (d.inside_iff).1 hin
  simp only [rowMajor_clipped, List.mem_filter, mem_rowMajor, Bool.and_eq_true, decide_eq_true_eq]
  refine ⟨?_, fun h => ⟨(px - x, py - y), ?_⟩⟩
  · rintro ⟨p, hp, rfl, rfl⟩
    omega
  · dsimp only
    omega

/-! ### A cell written back -/

theorem byteAt_cellWrite_cellRead (t : Surface) (i a : Nat) : (t.cellWrite i (t.cellRead i)).byteAt a = t.byteAt a := by
  rw [byteAt_cellWrite, cellRead, lowByte_ofBytes, highByte_ofBytes]
  by_cases hlow : a = 2 * i
  · rw [if_pos hlow, hlow]
  · by_cases hhigh : a = 2 * i + 1
    · rw [if_neg hlow, if_pos hhigh, hhigh]
    · rw [if_neg hlow, if_neg hhigh]

/-- At the origin every iteration writes back the cell it has just read (R156). -/
theorem byteAt_copyCell_origin (t : Surface) (p : Nat × Nat) (a : Nat) :
    (copyCell t t 0 0 p).byteAt a = t.byteAt a := by
  simp only [copyCell, Nat.zero_add]
  split
  · exact t.byteAt_cellWrite_cellRead _ a
  · rfl

theorem byteAt_blitSelf_origin (d : Surface) (a : Nat) : (d.blitSelf 0 0).byteAt a = d.byteAt a :=
  List.foldlRecOn _ _ (motive := fun t : Surface => t.byteAt a = d.byteAt a) rfl
    fun t ht p _ => (t.byteAt_copyCell_origin p a).trans ht

theorem blitSelf_sameBuffer (d : Surface) (x y : Nat) : d.SameBuffer (d.blitSelf x y) :=
  List.foldlRecOn _ _ (SameBuffer.refl d) fun t ht p _ => ht.trans (copyCell_sameBuffer t t x y p)

end Surface

/-! ### The command -/

theorem spriteSource_eq_none {src : Byte} (hground : s.cfg.nSurf ≤ src.toNat ∨ s.surf? src.toNat = none) :
    spriteSource s src = none := by
  by_cases hout : s.cfg.nSurf ≤ src.toNat
  · exact if_pos hout
  · exact (if_neg hout).trans (hground.resolve_left hout)

section
variable {src : Byte} (hcur : s.current? = some sf)
include hcur

theorem exec_sprite_free (hground : s.cfg.nSurf ≤ src.toNat ∨ s.surf? src.toNat = none) (x y : Word) :
    exec (.sprite src x y) s = .next { s with cmdbuf := [] } := by
  refine (s.onCurrent_some hcur _).trans ?_
  simp only [spriteSource_eq_none hground, s.withCurrent_self hcur]

theorem exec_sprite_held (hrange : src.toNat < s.cfg.nSurf) (hheld : s.surf? src.toNat = some so) (x y : Word) :
    exec (.sprite src x y) s = .next (s.withCurrent
      (if src = s.cur then sf.blitSelf x.toNat y.toNat else so.blit sf x.toNat y.toNat)) := by
  have hsource : spriteSource s src = some so := (if_neg (Nat.not_le.2 hrange)).trans hheld
  refine (s.onCurrent_some hcur _).trans ?_
  simp only [hsource]

theorem exec_sprite_self (hrange : s.cur.toNat < s.cfg.nSurf) (x y : Word) :
    exec (.sprite s.cur x y) s = .next (s.withCurrent (sf.blitSelf x.toNat y.toNat)) := by
  rw [exec_sprite_held hcur hrange hcur, if_pos rfl]

theorem exec_sprite_other (hne : src ≠ s.cur) (hrange : src.toNat < s.cfg.nSurf) (hheld : s.surf? src.toNat = some so)
    (x y : Word) : exec (.sprite src x y) s = .next (s.withCurrent (so.blit sf x.toNat y.toNat)) := by
  rw [exec_sprite_held hcur hrange hheld, if_neg hne]

end

/-- Settles O33: source and destination are one surface exactly where the slot is the current one. -/
theorem spriteIsTheLoopOfItsRule : Obligations.SpriteIsTheLoopOfItsRule := by
  refine fun src x y => ⟨fun _ => decode_header _ _ _, fun s sf hcur =>
    ⟨fun so hrange hheld => ?_, fun hground => exec_sprite_free hcur hground x y⟩⟩
  by_cases hself : src = s.cur
  · subst hself
    obtain rfl : sf = so := Option.some.inj (hcur.symm.trans hheld)
    rw [exec_sprite_self hcur hrange, sf.blitSelf_eq_spriteLoop, decide_eq_true rfl]
  · rw [exec_sprite_other hcur hself hrange hheld, so.blit_eq_spriteLoop, decide_eq_false hself]

/-- Settles O34 by `blit_paints`. -/
theorem spriteCopiesTheInBoundsPart : Obligations.SpriteCopiesTheInBoundsPart := fun _ x y _ sf so hcur hne hrange hheld =>
  ⟨_, exec_sprite_other hcur hne hrange hheld x y, Surface.sameText_foldl _ (fun t p => so.copyCell_sameText t _ _ p) sf,
    so.blit_paints sf _ _⟩

/-- Settles O35: every iteration writes back what it read, as bytes. -/
theorem spriteOntoItselfAtTheOriginChangesNoByte : Obligations.SpriteOntoItselfAtTheOriginChangesNoByte :=
  fun _ sf hcur hrange =>
    ⟨_, exec_sprite_self hcur hrange 0 0, sf.blitSelf_sameBuffer 0 0,
      Surface.sameText_foldl _ (fun t p => t.copyCell_sameText t _ _ p) sf, sf.byteAt_blitSelf_origin⟩

end Sys2Proof.Machine
end

section
/-! The glyph compositor (42_glyph.md R170 to R177): the channels of a blend, CHAR's three cases, and the loop over a glyph's
pixels, in which each pixel is visited once and so blends with the surface as CHAR found it. -/

namespace Sys2Proof.Machine

variable {cfg : Config} {s : State} {sf t : Surface}

/-! ### The channels of a blend -/

theorem red5_eq (c : Word) : red5 c = c.toNat / 2048 % 32 := by
  simp [red5, BitVec.extractLsb'_toNat, Nat.shiftRight_eq_div_pow]

theorem green5_eq (c : Word) : green5 c = c.toNat / 64 % 32 := by
  simp [green5, BitVec.extractLsb'_toNat, Nat.shiftRight_eq_div_pow]

theorem blue5_eq (c : Word) : blue5 c = c.toNat % 32 := by
  simp [blue5, BitVec.extractLsb'_toNat]

/-- The layout of R174 as a number: red from bit 11, green from bit 6, bit 5 zero, blue from bit 0. -/
theorem ofChannels_toNat (r g b : Nat) :
    (ofChannels r g b).toNat = r % 32 * 2048 + g % 32 * 64 + b % 32 := by
  have hb : b % 32 < 2 ^ 5 := Nat.mod_lt _ (by decide)
  have hg : g % 32 < 2 ^ 5 := Nat.mod_lt _ (by decide)
  simp only [ofChannels, BitVec.toNat_append, BitVec.toNat_ofNat, Nat.reducePow, Nat.reduceMod, Nat.or_zero]
  rw [← Nat.shiftLeft_add_eq_or_of_lt hg, ← Nat.shiftLeft_add_eq_or_of_lt hb]
  simp only [Nat.shiftLeft_eq]
  omega

theorem red5_ofChannels (r g b : Nat) : red5 (ofChannels r g b) = r % 32 := by
  rw [red5_eq, ofChannels_toNat]
  omega

theorem green5_ofChannels (r g b : Nat) : green5 (ofChannels r g b) = g % 32 := by
  rw [green5_eq, ofChannels_toNat]
  omega

theorem blue5_ofChannels (r g b : Nat) : blue5 (ofChannels r g b) = b % 32 := by
  rw [blue5_eq, ofChannels_toNat]
  omega

theorem ofChannels_bit5 (r g b : Nat) : (ofChannels r g b).getLsbD 5 = false := by
  rw [← BitVec.testBit_toNat, ofChannels_toNat, Nat.testBit_eq_decide_div_mod_eq, decide_eq_false_iff_not]
  omega

/-- A weighted mean of two channels lies between them (R174). -/
theorem blendChannel_between (d f : Nat) {a : Nat} (ha : a ≤ 15) :
    min d f ≤ blendChannel d f a ∧ blendChannel d f a ≤ max d f := by
  have weigh (m : Nat) : m * (15 - a) + m * a = m * 15 := by rw [← Nat.mul_add, Nat.sub_add_cancel ha]
  constructor
  · rw [blendChannel, Nat.le_div_iff_mul_le (by decide), ← weigh]
    gcongr
    · exact Nat.min_le_left d f
    · exact Nat.min_le_right d f
  · refine Nat.div_le_of_le_mul ?_
    rw [Nat.mul_comm 15, ← weigh]
    gcongr
    · exact Nat.le_max_left d f
    · exact Nat.le_max_right d f

/-- Two 5-bit channels blend to a 5-bit channel: nothing is cut off in the layout of R174. -/
theorem blendChannel_mod {d f a : Nat} (hd : d < 32) (hf : f < 32) (ha : a ≤ 15) :
    blendChannel d f a % 32 = blendChannel d f a :=
  Nat.mod_eq_of_lt ((blendChannel_between d f ha).2.trans_lt (max_lt hd hf))

theorem blend_full (d f : Word) : blend d f 15 = f := if_pos rfl

theorem blend_of_ne_full (d f : Word) {a : Nat} (ha : a ≠ 15) :
    blend d f a = ofChannels (blendChannel (red5 d) (red5 f) a) (blendChannel (green5 d) (green5 f) a)
      (blendChannel (blue5 d) (blue5 f) a) := if_neg ha

theorem red5_blend (d f : Word) {a : Nat} (ha : a ≤ 14) :
    red5 (blend d f a) = blendChannel (red5 d) (red5 f) a := by
  rw [blend_of_ne_full d f (by omega), red5_ofChannels]
  exact blendChannel_mod (BitVec.isLt _) (BitVec.isLt _) (by omega)

theorem green5_blend (d f : Word) {a : Nat} (ha : a ≤ 14) :
    green5 (blend d f a) = blendChannel (green5 d) (green5 f) a := by
  rw [blend_of_ne_full d f (by omega), green5_ofChannels]
  exact blendChannel_mod (BitVec.isLt _) (BitVec.isLt _) (by omega)

theorem blue5_blend (d f : Word) {a : Nat} (ha : a ≤ 14) :
    blue5 (blend d f a) = blendChannel (blue5 d) (blue5 f) a := by
  rw [blend_of_ne_full d f (by omega), blue5_ofChannels]
  exact blendChannel_mod (BitVec.isLt _) (BitVec.isLt _) (by omega)

/-- Settles O39: the channels of a blend are `blendChannel`s, and those lie between their two colours. -/
theorem blendInterpolatesEachChannel : Obligations.BlendInterpolatesEachChannel := by
  refine fun d f a => ⟨fun _ ha => ?_, blend_full d f⟩
  have between (x y : Nat) := blendChannel_between x y (ha.trans (by decide : 14 ≤ 15))
  rw [red5_blend d f ha, green5_blend d f ha, blue5_blend d f ha]
  refine ⟨rfl, rfl, rfl, ?_, (between _ _).1, (between _ _).2, (between _ _).1, (between _ _).2, between _ _⟩
  rw [blend_of_ne_full d f (by omega)]
  exact ofChannels_bit5 _ _ _

/-! ### CHAR's three cases -/

theorem newline_of_A {g : GlyphRecord} (hA : glyph cfg sf.font.toNat 0x41 = some g) :
    newline cfg sf = { sf with cx := 0, cy := BitVec.ofNat 16 (sf.cy.toNat + g.gh) } := by
  rw [newline, hA, BitVec.ofNat_add, BitVec.ofNat_toNat, BitVec.setWidth_eq]

theorem newline_of_no_A (hA : glyph cfg sf.font.toNat 0x41 = none) : newline cfg sf = { sf with cx := 0 } := by
  rw [newline, hA]

theorem drawChar_newline (cfg : Config) (sf : Surface) : drawChar cfg sf 0x0A = newline cfg sf := if_pos rfl

theorem drawChar_of_glyph {c : Byte} {g : GlyphRecord} (hc : c ≠ 0x0A) (hg : glyph cfg sf.font.toNat c = some g) :
    drawChar cfg sf c = drawGlyph cfg g sf := by
  rw [drawChar, if_neg hc, hg]

theorem drawChar_of_no_glyph {c : Byte} (hc : c ≠ 0x0A) (hg : glyph cfg sf.font.toNat c = none) :
    drawChar cfg sf c = sf := by
  rw [drawChar, if_neg hc, hg]

theorem exec_char_some (hcur : s.current? = some sf) (c : Byte) :
    exec (.char c) s = .next (s.withCurrent (drawChar s.cfg sf c)) := s.onCurrent_some hcur _

/-- Settles O36: the two cases of a newline and the character without a glyph. -/
theorem charNewlineAndAbsentGlyph : Obligations.CharNewlineAndAbsentGlyph := by
  refine ⟨fun _ _ => decode_header _ _ _, fun s sf hcur => ⟨fun g hA => ?_, fun hA => ?_, fun c hc hg => ?_⟩⟩
  · rw [exec_char_some hcur, drawChar_newline, newline_of_A hA]
  · rw [exec_char_some hcur, drawChar_newline, newline_of_no_A hA]
  · rw [exec_char_some hcur, drawChar_of_no_glyph hc hg, s.withCurrent_self hcur]

/-! ### STRING -/

theorem exec_string_some (hcur : s.current? = some sf) (bytes : List Byte) :
    exec (.string bytes) s = .next (s.withCurrent (bytes.foldl (drawChar s.cfg) sf)) := s.onCurrent_some hcur _

theorem exec_string_nil (hcur : s.current? = some sf) : exec (.string []) s = .next { s with cmdbuf := [] } :=
  (exec_string_some hcur []).trans (congrArg _ (s.withCurrent_self hcur))

/-- STRING is the CHAR of its first byte and then the STRING of the others (R177). -/
theorem exec_string_cons (hcur : s.current? = some sf) (c : Byte) (bytes : List Byte) :
    exec (.string (c :: bytes)) s = exec (.string bytes) (s.withCurrent (drawChar s.cfg sf c)) := by
  rw [exec_string_some hcur, exec_string_some (s.withCurrent_current? hcur _), s.withCurrent_withCurrent]
  rfl

/-- Settles O38, by induction on the bytes: a CHAR leaves a current surface for the next one. -/
theorem stringIsItsSequenceOfChars : Obligations.StringIsItsSequenceOfChars := by
  intro bytes
  induction bytes with
  | nil => exact fun s sf hcur => ⟨s, rfl, exec_string_nil hcur⟩
  | cons c bytes ih =>
    intro s sf hcur
    obtain ⟨t, hchars, hstring⟩ := ih _ _ (s.withCurrent_current? hcur (drawChar s.cfg sf c))
    refine ⟨t, ?_, (exec_string_cons hcur c bytes).trans hstring⟩
    simp only [List.map_cons, execAll, exec_char_some hcur, hchars]

/-! ### The pixels of a glyph -/

theorem mem_columnMajor {w h : Nat} {p : Nat × Nat} : p ∈ columnMajor w h ↔ p.1 < w ∧ p.2 < h := by
  simp [columnMajor, Prod.ext_iff]

theorem nodup_columnMajor (w h : Nat) : (columnMajor w h).Nodup := List.nodup_range.product List.nodup_range

/-- A pixel that was not painted has the colour it had. -/
theorem Surface.Paints.getPixel_unchanged {drawn : Nat → Nat → Prop} {value : Nat → Nat → Word}
    (h : sf.Paints t drawn value) {x y : Nat} (hd : ¬ drawn x y) : t.getPixel x y = sf.getPixel x y := by
  by_cases hin : sf.inside x y = true
  · have hin' : t.inside x y = true := (h.buffer.inside x y).trans hin
    rw [Surface.getPixel_of_inside hin', Surface.getPixel_of_inside hin, h.buffer.index, h.cell_unchanged hin hd]
  · have hout' : ¬ t.inside x y = true := by rwa [h.buffer.inside]
    rw [Surface.getPixel_of_outside hout', Surface.getPixel_of_outside hin]

section
variable (cfg : Config) (f : Nat) (g : GlyphRecord) (cx cy : Nat) (fg : Word)

/-- The stored cell that R173 gives to pixel (px, py) of `sf`, for a glyph placed at (cx, cy). -/
def blendedCell (sf : Surface) (px py : Nat) : Word :=
  bswap16 (blend (sf.getPixel px py) fg (coverage cfg f g (px - cx) (py - cy)))

/-- The glyph pixel `p` covers the surface's pixel (px, py), for a glyph placed at (cx, cy). -/
def Covers (p : Nat × Nat) (px py : Nat) : Prop := px = cx + p.1 ∧ py = cy + p.2 ∧ coverage cfg f g p.1 p.2 ≠ 0

theorem drawCoverage_sameText (t : Surface) (p : Nat × Nat) : t.SameText (drawCoverage cfg f g cx cy fg t p) := by
  unfold drawCoverage
  dsimp only
  split
  case isTrue => exact .refl t
  case isFalse => exact t.sameText_drawPixel _ _ _

/-- One iteration paints its pixel, if that has coverage. -/
theorem drawCoverage_paints (t : Surface) (p : Nat × Nat) :
    t.Paints (drawCoverage cfg f g cx cy fg t p) (Covers cfg f g cx cy p) (blendedCell cfg f g cx cy fg t) := by
  unfold drawCoverage
  dsimp only
  split
  case isTrue hclear => exact .none fun px py _ hp => hp.2.2 hclear
  case isFalse hcovered =>
    refine (t.drawPixel_paints _ _ _).congr (fun px py _ => by simp [Covers, hcovered]) ?_
    rintro _ _ ⟨rfl, rfl, -⟩
    rw [blendedCell, Nat.add_sub_cancel_left, Nat.add_sub_cancel_left]

/-- A loop that visits each glyph pixel at most once blends with the colours the loop began with: what an earlier iteration
painted is another pixel. -/
theorem foldl_drawCoverage_paints {l : List (Nat × Nat)} (hl : l.Nodup) (sf : Surface) :
    sf.Paints (l.foldl (drawCoverage cfg f g cx cy fg) sf) (fun px py => ∃ p ∈ l, Covers cfg f g cx cy p px py)
      (blendedCell cfg f g cx cy fg sf) := by
  induction l generalizing sf with
  | nil => exact .none (by simp)
  | cons p l ih =>
    obtain ⟨hp, hl⟩ := List.nodup_cons.1 hl
    have hfirst := drawCoverage_paints cfg f g cx cy fg sf p
    have hrest := (ih hl (drawCoverage cfg f g cx cy fg sf p)).congr (value' := blendedCell cfg f g cx cy fg sf)
      (fun _ _ _ => Iff.rfl) ?_
    · exact (hfirst.trans hrest).congr (by simp) fun _ _ _ => rfl
    · rintro px py ⟨q, hq, rfl, rfl, -⟩
      have hother : ¬ Covers cfg f g cx cy p (cx + q.1) (cy + q.2) := by
        rintro ⟨hx, hy, -⟩
        have hqp : q = p := Prod.ext (Nat.add_left_cancel hx) (Nat.add_left_cancel hy)
        exact hp (hqp ▸ hq)
      rw [blendedCell, hfirst.getPixel_unchanged hother, blendedCell]

end

/-! ### The glyph -/

/-- The pixels under a placed glyph, by their place on the surface (R173). -/
theorem exists_covers_iff (cfg : Config) (f : Nat) (g : GlyphRecord) (cx cy px py : Nat) :
    (∃ p ∈ columnMajor g.gw g.gh, Covers cfg f g cx cy p px py) ↔
      cx ≤ px ∧ px < cx + g.gw ∧ cy ≤ py ∧ py < cy + g.gh ∧ coverage cfg f g (px - cx) (py - cy) ≠ 0 := by
  constructor
  · rintro ⟨p, hp, rfl, rfl, hcovered⟩
    obtain ⟨hw, hh⟩ := mem_columnMajor.1 hp
    rw [Nat.add_sub_cancel_left, Nat.add_sub_cancel_left]
    exact ⟨by omega, by omega, by omega, by omega, hcovered⟩
  · rintro ⟨hx, hxw, hy, hyh, hcovered⟩
    exact ⟨(px - cx, py - cy), mem_columnMajor.2 ⟨by omega, by omega⟩, by omega, by omega, hcovered⟩

theorem drawGlyph_paints (cfg : Config) (g : GlyphRecord) (sf : Surface) :
    sf.Paints (drawGlyph cfg g sf)
      (fun px py => sf.cx.toNat ≤ px ∧ px < sf.cx.toNat + g.gw ∧ sf.cy.toNat ≤ py ∧ py < sf.cy.toNat + g.gh ∧
        coverage cfg sf.font.toNat g (px - sf.cx.toNat) (py - sf.cy.toNat) ≠ 0)
      (blendedCell cfg sf.font.toNat g sf.cx.toNat sf.cy.toNat sf.fg sf) := by
  have hloop := (foldl_drawCoverage_paints cfg sf.font.toNat g sf.cx.toNat sf.cy.toNat sf.fg
    (nodup_columnMajor g.gw g.gh) sf).congr (fun px py _ => exists_covers_iff ..) fun _ _ _ => rfl
  exact ⟨hloop.buffer, hloop.painted, hloop.others⟩

/-- The cursor moves by the glyph's width less one, modulo 2^16; a width of 0 moves it back by one. -/
theorem drawGlyph_cx (cfg : Config) (g : GlyphRecord) (sf : Surface) :
    (drawGlyph cfg g sf).cx.toNat = (sf.cx.toNat + g.gw + 65535) % 65536 := by
  change (sf.cx + BitVec.ofNat 16 g.gw - 1).toNat = _
  simp only [BitVec.ofNat_eq_ofNat, BitVec.toNat_sub, BitVec.toNat_add, BitVec.toNat_ofNat, Nat.reducePow]
  omega

theorem drawGlyph_text (cfg : Config) (g : GlyphRecord) (sf : Surface) :
    (drawGlyph cfg g sf).cy = sf.cy ∧ (drawGlyph cfg g sf).fg = sf.fg ∧ (drawGlyph cfg g sf).font = sf.font := by
  obtain ⟨-, htext⟩ := Surface.sameText_foldl (columnMajor g.gw g.gh)
    (drawCoverage_sameText cfg sf.font.toNat g sf.cx.toNat sf.cy.toNat sf.fg) sf
  exact htext

/-- Settles O37 by `drawGlyph_paints`. -/
theorem charBlendsItsGlyph : Obligations.CharBlendsItsGlyph := by
  intro c s sf g hcur hc hg
  obtain ⟨hcy, hfg, hfont⟩ := drawGlyph_text s.cfg g sf
  refine ⟨drawGlyph s.cfg g sf, ?_, drawGlyph_cx s.cfg g sf, hcy, hfg, hfont, drawGlyph_paints s.cfg g sf⟩
  rw [exec_char_some hcur, drawChar_of_glyph hc hg]

end Sys2Proof.Machine
end

section
/-! BITMAP is the loop of its rule (43_bitmap.md R191): the clipped, fuelled and abridged decoding of the model ends exactly where
the loop ends, and with the same surface. -/

namespace Sys2Proof.Machine

variable {cfg : Config} {b : BitmapHeader} {x y index : Nat} {sf sf' : Surface}

/-! ### What one item draws -/

/-- A run drawn as R191 writes it, pixel by pixel and unclipped. -/
def drawRun (b : BitmapHeader) (x y cnt : Nat) (col : Word) (sf : Surface) : Surface :=
  if col = b.transparent then sf
  else (List.range cnt).foldl (fun t i => t.drawPixel (b.x0 + x) (b.y0 + y + i) col) sf

/-- A literal drawn as R191 writes it. -/
def drawLiteral (b : BitmapHeader) (x y : Nat) (v : Word) (sf : Surface) : Surface :=
  if v = b.transparent then sf else sf.drawPixel (b.x0 + x) (b.y0 + y) v

theorem drawRun_zero (b : BitmapHeader) (x y : Nat) (col : Word) (sf : Surface) : drawRun b x y 0 col sf = sf := ite_self sf

/-- The model's clipped run is the rule's (R196, log 9). -/
theorem drawAll_runPixels (sf : Surface) (x y cnt : Nat) (col : Word) :
    sf.drawAll (runPixels sf x y cnt) col = (List.range cnt).foldl (fun t i => t.drawPixel x (y + i) col) sf :=
  sf.drawAll_range_clipped (fun i => (x, y + i)) cnt (fun _ hi hin => hi hin.2) col

/-! ### One turn of the loop -/

theorem bitmapLoop_iff_of_width_le (hx : b.bw ≤ x) : BitmapLoop cfg b x y index sf sf' ↔ sf = sf' := by
  constructor
  · intro h
    cases h with
    | done => rfl
    | column hx' | run _ _ hx' | literal _ hx' => omega
  · rintro rfl
    exact .done hx

theorem bitmapLoop_iff_of_height_le (hx : x < b.bw) (hy : b.bh ≤ y) :
    BitmapLoop cfg b x y index sf sf' ↔ BitmapLoop cfg b (x + 1) 0 index sf sf' := by
  refine ⟨fun h => ?_, .column hx hy⟩
  cases h with
  | done hx' | run _ _ _ hy' | literal _ _ hy' => omega
  | column _ _ hnext => exact hnext

theorem bitmapLoop_iff_of_marker (hx : x < b.bw) (hy : y < b.bh) (hv : bitmapWord cfg b.p index = b.marker) :
    BitmapLoop cfg b x y index sf sf' ↔
      emptyForEver cfg b index = false ∧
      BitmapLoop cfg b x (y + (bitmapWord cfg b.p (index + 1)).toNat) (index + 3)
        (drawRun b x y (bitmapWord cfg b.p (index + 1)).toNat (bitmapWord cfg b.p (index + 2)) sf) sf' := by
  refine ⟨fun h => ?_, fun ⟨hgoes, hnext⟩ => .run _ _ hx hy hv rfl rfl hgoes hnext⟩
  cases h with
  | done hx' | column _ hy' => omega
  | run _ _ _ _ _ hcnt hcol hgoes hnext =>
    subst hcnt hcol
    exact ⟨hgoes, hnext⟩
  | literal _ _ _ hw hne => exact absurd (hw.trans hv) hne

theorem bitmapLoop_iff_of_literal (hx : x < b.bw) (hy : y < b.bh) (hv : bitmapWord cfg b.p index ≠ b.marker) :
    BitmapLoop cfg b x y index sf sf' ↔
      BitmapLoop cfg b x (y + 1) (index + 1) (drawLiteral b x y (bitmapWord cfg b.p index) sf) sf' := by
  refine ⟨fun h => ?_, fun hnext => .literal _ hx hy rfl hv hnext⟩
  cases h with
  | done hx' | column _ hy' => omega
  | run _ _ _ _ hv' => exact absurd hv' hv
  | literal _ _ _ hw _ hnext =>
    subst hw
    exact hnext

/-- On a platform that follows the wrap, the loop goes through empty runs without a trace. -/
theorem bitmapLoop_iff_of_emptyRuns (hwraps : cfg.bitmapWraps = true) (hx : x < b.bw) (hy : y < b.bh) (n : Nat)
    (hempty : ∀ j, j < n → EmptyRun cfg b (index + 3 * j)) :
    BitmapLoop cfg b x y index sf sf' ↔ BitmapLoop cfg b x y (index + 3 * n) sf sf' := by
  induction n with
  | zero => rfl
  | succ n ih =>
    obtain ⟨hmarker, hcount⟩ := hempty n n.lt_succ_self
    have hgoes : emptyForEver cfg b (index + 3 * n) = false := by simp [emptyForEver, hwraps]
    rw [ih fun j hj => hempty j (Nat.lt_succ_of_lt hj), bitmapLoop_iff_of_marker hx hy hmarker, hcount]
    simp only [hgoes, true_and, BitVec.ofNat_eq_ofNat, BitVec.toNat_ofNat, Nat.zero_mod, Nat.add_zero, drawRun_zero]
    rfl

/-! ### One turn of the model's decoding -/

theorem bitmapColumn_of_height_le (hy : b.bh ≤ y) (fuel : Nat) :
    bitmapColumn cfg b x fuel y index sf = (true, index, sf) := by
  cases fuel with
  | zero => simp [bitmapColumn, hy]
  | succ fuel => simp [bitmapColumn, hy]

theorem bitmapColumn_of_emptyRuns (hy : y < b.bh) (hgoes : emptyForEver cfg b index = false)
    (hruns : emptyRuns cfg b index ≠ 0) (fuel : Nat) :
    bitmapColumn cfg b x (fuel + 1) y index sf =
      bitmapColumn cfg b x fuel y (index + 3 * emptyRuns cfg b index) sf := by
  have hmarker : bitmapWord cfg b.p index = b.marker := (emptyRuns_spec (Nat.pos_of_ne_zero hruns)).1
  simp [bitmapColumn, Nat.not_le.2 hy, hmarker, hgoes, hruns]

theorem bitmapColumn_of_marker (hy : y < b.bh) (hv : bitmapWord cfg b.p index = b.marker)
    (hruns : emptyRuns cfg b index = 0) (fuel : Nat) :
    bitmapColumn cfg b x (fuel + 1) y index sf =
      bitmapColumn cfg b x fuel (y + (bitmapWord cfg b.p (index + 1)).toNat) (index + 3)
        (drawRun b x y (bitmapWord cfg b.p (index + 1)).toNat (bitmapWord cfg b.p (index + 2)) sf) := by
  simp [bitmapColumn, Nat.not_le.2 hy, hv, emptyForEver, hruns, drawAll_runPixels, drawRun]

theorem bitmapColumn_of_literal (hy : y < b.bh) (hv : bitmapWord cfg b.p index ≠ b.marker) (fuel : Nat) :
    bitmapColumn cfg b x (fuel + 1) y index sf =
      bitmapColumn cfg b x fuel (y + 1) (index + 1) (drawLiteral b x y (bitmapWord cfg b.p index) sf) := by
  simp [bitmapColumn, Nat.not_le.2 hy, hv, drawLiteral]

/-! ### Enough turns

A platform that does not follow the wrap takes the turns of one that does, as long as it goes on at all. So the turns are
enough for it because they are enough for the other. -/

/-- The platform with the wrap followed: ASSET is the same, and only `emptyForEver` tells the two apart. -/
def wrapping (cfg : Config) : Config := { cfg with bitmapWraps := true }

theorem emptyForEver_wrapping (cfg : Config) (b : BitmapHeader) (index : Nat) :
    emptyForEver (wrapping cfg) b index = false := rfl

/-- With the wrap followed, `columnFuel` turns end every column. -/
theorem bitmapColumn_wrapping_ends (hw : bitmapWord cfg b.p 0 ≠ 0) (x index : Nat) (sf : Surface) :
    (bitmapColumn (wrapping cfg) b x (columnFuel cfg b) 0 index sf).1 = true := by
  have hfuel : 0 < b.bh →
      (b.bh - 1 - 0) * (4 * ((wrapping cfg).assetWords + 3)) + turnsLeft (wrapping cfg) b index index ≤ columnFuel cfg b := by
    intro hy
    have hturns := turnsLeft_self (wrapping cfg) b index
    have hrows : (b.bh - 1 - 0 + 1) * (4 * ((wrapping cfg).assetWords + 3)) ≤ columnFuel cfg b :=
      Nat.mul_le_mul_right _ (by omega)
    rw [Nat.succ_mul] at hrows
    omega
  refine (bitmapColumn_ends (cfg := wrapping cfg) hw x _ 0 index index 0 sf rfl (by simp) hfuel).resolve_right ?_
  rintro ⟨i, hi⟩
  rw [emptyForEver_wrapping] at hi
  cases hi

/-! ### The loop is the decoding -/

/-- A column, given turns enough to end it with the wrap followed, leaves what the loop leaves of it, or does not end and
neither does the loop. -/
theorem bitmapLoop_iff_bitmapColumn (hx : x < b.bw) (fuel : Nat)
    (hends : (bitmapColumn (wrapping cfg) b x fuel y index sf).1 = true) :
    BitmapLoop cfg b x y index sf sf' ↔
      (bitmapColumn cfg b x fuel y index sf).1 = true ∧
      BitmapLoop cfg b (x + 1) 0 (bitmapColumn cfg b x fuel y index sf).2.1 (bitmapColumn cfg b x fuel y index sf).2.2 sf' := by
  induction fuel generalizing y index sf with
  | zero =>
    have hy : b.bh ≤ y := of_decide_eq_true hends
    simp only [bitmapLoop_iff_of_height_le hx hy, bitmapColumn_of_height_le hy, true_and]
  | succ fuel ih =>
    by_cases hy : b.bh ≤ y
    · simp only [bitmapLoop_iff_of_height_le hx hy, bitmapColumn_of_height_le hy, true_and]
    · have hy : y < b.bh := Nat.not_le.1 hy
      by_cases hv : bitmapWord cfg b.p index = b.marker
      · by_cases hruns : emptyRuns cfg b index = 0
        · have hgoes : emptyForEver cfg b index = false := by simp [emptyForEver, hruns]
          rw [bitmapColumn_of_marker hy hv hruns, bitmapLoop_iff_of_marker hx hy hv]
          rw [bitmapColumn_of_marker (cfg := wrapping cfg) hy hv hruns] at hends
          rw [and_iff_right hgoes]
          exact ih hends
        · cases hgoes : emptyForEver cfg b index with
          | true => simp [bitmapColumn_of_emptyForEver hy hgoes, bitmapLoop_iff_of_marker hx hy hv, hgoes]
          | false =>
            have hwraps : cfg.bitmapWraps = true := by
              by_contra hnot
              have hstuck := emptyForEver_eq_true.2 ⟨Bool.eq_false_of_not_eq_true hnot, hruns⟩
              exact absurd (hgoes.symm.trans hstuck) Bool.false_ne_true
            rw [bitmapColumn_of_emptyRuns hy hgoes hruns,
              bitmapLoop_iff_of_emptyRuns hwraps hx hy _ fun _ hj => emptyRuns_spec hj]
            rw [bitmapColumn_of_emptyRuns (cfg := wrapping cfg) hy rfl hruns] at hends
            exact ih hends
      · rw [bitmapColumn_of_literal hy hv, bitmapLoop_iff_of_literal hx hy hv]
        rw [bitmapColumn_of_literal (cfg := wrapping cfg) hy hv] at hends
        exact ih hends

theorem bitmapLoop_iff_bitmapColumns (hb : b.bw = (bitmapWord cfg b.p 0).toNat) (n : Nat) (hn : x + n = b.bw) :
    BitmapLoop cfg b x 0 index sf sf' ↔ bitmapColumns cfg b n x index sf = (true, sf') := by
  induction n generalizing x index sf with
  | zero => simp [bitmapLoop_iff_of_width_le (show b.bw ≤ x by omega), bitmapColumns]
  | succ n ih =>
    have hw : bitmapWord cfg b.p 0 ≠ 0 := fun h0 => by
      have hnone : b.bw = 0 := hb.trans (congrArg BitVec.toNat h0)
      omega
    rw [bitmapLoop_iff_bitmapColumn (by omega) _ (bitmapColumn_wrapping_ends hw x index sf), bitmapColumns]
    rcases bitmapColumn cfg b x (columnFuel cfg b) 0 index sf with ⟨_ | _, next, drawn⟩
    · simp
    · simpa using ih (by omega)

/-- The decoding ends with `sf'` exactly where the loop does. -/
theorem bitmapLoop_iff_drawBitmap (x0 y0 : Nat) (p : BitVec 32) :
    BitmapLoop cfg (bitmapHeader cfg x0 y0 p) 0 0 4 sf sf' ↔ drawBitmap cfg x0 y0 p sf = (true, sf') :=
  bitmapLoop_iff_bitmapColumns rfl _ (Nat.zero_add _)

/-! ### BITMAP by its loop -/

/-- BITMAP completes where its loop ends, with the surface that the loop leaves. -/
theorem exec_bitmap_of_loop {x y : Word} {p : BitVec 32} {s : State} (hp : p ≠ 0) (hcurrent : s.current? = some sf)
    (hloop : BitmapLoop s.cfg (bitmapHeader s.cfg x.toNat y.toNat p) 0 0 4 sf sf') :
    exec (.bitmap x y p) s = .next (s.withCurrent sf') ∧ sf.SameBuffer sf' ∧ sf.SameText sf' := by
  have hdraw := (bitmapLoop_iff_drawBitmap ..).1 hloop
  have hbuffer := (sf.evolves_drawBitmap (cfg := s.cfg) s.cfg x.toNat y.toNat p).buffer
  have htext := drawBitmap_sameText s.cfg x.toNat y.toNat p sf
  rw [exec_bitmap, execBitmap_some hp x y hcurrent]
  rw [hdraw] at hbuffer htext ⊢
  exact ⟨rfl, hbuffer, htext⟩

/-- Different surfaces make different completed states. -/
theorem State.withCurrent_inj {s : State} (hcurrent : s.current? = some sf) {t u : Surface} :
    s.withCurrent t = s.withCurrent u ↔ t = u := by
  refine ⟨fun h => ?_, congrArg _⟩
  have hslot := congrArg State.current? h
  rw [s.withCurrent_current? hcurrent, s.withCurrent_current? hcurrent] at hslot
  exact Option.some.inj hslot

/-- Settles O41: a BITMAP that does not end is told from a completed one by its `CMDBUF`. -/
theorem bitmapCompletesExactlyWhenItsLoopEnds : Obligations.BitmapCompletesExactlyWhenItsLoopEnds := by
  refine fun x y p s sf hp hcurrent hcmd sf' => ⟨fun h => ?_, fun h => (exec_bitmap_of_loop hp hcurrent h).1⟩
  rw [bitmapLoop_iff_drawBitmap]
  rw [exec_bitmap, execBitmap_some hp x y hcurrent] at h
  rcases hdraw : drawBitmap s.cfg x.toNat y.toNat p sf with ⟨ends, t⟩
  rw [hdraw] at h
  cases ends with
  | true => exact congrArg (Prod.mk true) ((State.withCurrent_inj hcurrent).1 (Host.Outcome.next.inj h))
  | false => exact absurd (congrArg State.cmdbuf (Host.Outcome.next.inj h)) hcmd

/-! ### Where every run counts -/

/-- The loop ends where no run is empty, since every item moves on within its column (R197). -/
theorem exists_bitmapLoop (cfg : Config) (b : BitmapHeader) (x y index : Nat) (sf : Surface)
    (hcounts : ∀ i, index ≤ i → ¬ EmptyRun cfg b i) : ∃ sf', BitmapLoop cfg b x y index sf sf' := by
  by_cases hx : b.bw ≤ x
  · exact ⟨sf, .done hx⟩
  have hx : x < b.bw := Nat.not_le.1 hx
  by_cases hy : b.bh ≤ y
  · obtain ⟨sf', hnext⟩ := exists_bitmapLoop cfg b (x + 1) 0 index sf hcounts
    exact ⟨sf', .column hx hy hnext⟩
  have hy : y < b.bh := Nat.not_le.1 hy
  by_cases hv : bitmapWord cfg b.p index = b.marker
  · have hpos : 0 < (bitmapWord cfg b.p (index + 1)).toNat :=
      Nat.pos_of_ne_zero fun h0 => hcounts index le_rfl ⟨hv, BitVec.eq_of_toNat_eq h0⟩
    have hgoes : emptyForEver cfg b index = false := Bool.eq_false_iff.2 fun hstuck =>
      hcounts index le_rfl (emptyRuns_spec (Nat.pos_of_ne_zero (emptyForEver_eq_true.1 hstuck).2))
    obtain ⟨sf', hnext⟩ := exists_bitmapLoop cfg b x (y + (bitmapWord cfg b.p (index + 1)).toNat) (index + 3)
      (drawRun b x y (bitmapWord cfg b.p (index + 1)).toNat (bitmapWord cfg b.p (index + 2)) sf)
      fun i hi => hcounts i (by omega)
    exact ⟨sf', (bitmapLoop_iff_of_marker hx hy hv).2 ⟨hgoes, hnext⟩⟩
  · obtain ⟨sf', hnext⟩ := exists_bitmapLoop cfg b x (y + 1) (index + 1)
      (drawLiteral b x y (bitmapWord cfg b.p index) sf) fun i hi => hcounts i (by omega)
    exact ⟨sf', (bitmapLoop_iff_of_literal hx hy hv).2 hnext⟩
termination_by (b.bw - x, b.bh - y)

/-- Settles O42 by `exists_bitmapLoop`. -/
theorem bitmapEndsWhereEveryRunCounts : Obligations.BitmapEndsWhereEveryRunCounts := by
  intro x y p s sf hp hcurrent hcounts
  obtain ⟨sf', hloop⟩ := exists_bitmapLoop s.cfg (bitmapHeader s.cfg x.toNat y.toNat p) 0 0 4 sf
    fun i hi ⟨hmarker, hcount⟩ => hcounts i hi hmarker hcount
  exact ⟨sf', exec_bitmap_of_loop hp hcurrent hloop⟩

/-! ### What BITMAP leaves alone -/

/-- A byte that belongs to no pixel of the bitmap's columns keeps its value (R198). -/
theorem drawBitmap_byteAt {x0 a : Nat} {p : BitVec 32} (y0 : Nat)
    (hother : ∀ px py, sf.inside px py = true → x0 ≤ px → px < x0 + (bitmapWord cfg p 0).toNat →
      sf.index px py ≠ a / 2) :
    (drawBitmap cfg x0 y0 p sf).2.byteAt a = sf.byteAt a := by
  refine (drawBitmap_keeps (fun t => sf.SameBuffer t ∧ t.byteAt a = sf.byteAt a) cfg x0 y0 p sf ?_ ⟨.refl sf, rfl⟩).2
  rintro t k y c hk ⟨hbuffer, hbyte⟩
  refine ⟨hbuffer.trans (t.sameBuffer_drawPixel ..), Eq.trans ?_ hbyte⟩
  refine (t.drawPixel_paints (x0 + k) y c).others a ?_
  rintro _ _ hin ⟨rfl, rfl⟩
  rw [hbuffer.index]
  exact hother _ _ ((hbuffer.inside ..).symm.trans hin) (by omega) (by omega)

/-- Settles O43: whether the decoding ends shows in `CMDBUF` alone. -/
theorem bitmapWritesOnlyItsColumns : Obligations.BitmapWritesOnlyItsColumns := by
  intro x y p s sf hp hcurrent
  have hexec := execBitmap_some hp x y hcurrent
  refine ⟨_, (drawBitmap s.cfg x.toNat y.toNat p sf).2, hexec, ?_,
    (sf.evolves_drawBitmap (cfg := s.cfg) s.cfg x.toNat y.toNat p).buffer, drawBitmap_sameText ..,
    fun a hother => drawBitmap_byteAt y.toNat hother⟩
  split
  case isTrue => exact .inl rfl
  case isFalse => exact .inr rfl

end Sys2Proof.Machine
end

section
/-! What two kinds of well-formed bitmap draw (43_bitmap.md R193 to R195, R199): one run in each column, and literals only. -/

namespace Sys2Proof.Machine

variable {cfg : Config} {b : BitmapHeader} {sf sf' : Surface}

/-! ### The loop, column by column and row by row -/

/-- What follows backwards through each iteration of a loop follows backwards through the loop. -/
theorem of_foldl_range {σ : Type} {holds : Nat → σ → Prop} {f : σ → Nat → σ} {n : Nat}
    (hstep : ∀ k, k < n → ∀ t, holds (k + 1) (f t k) → holds k t) {t : σ}
    (h : holds n ((List.range n).foldl f t)) : holds 0 t := by
  induction n with
  | zero => exact h
  | succ n ih =>
    rw [List.range_succ, List.foldl_append] at h
    exact ih (fun k hk => hstep k (Nat.lt_succ_of_lt hk)) (hstep n n.lt_succ_self _ h)

/-- A loop whose column `x` begins at word `start x` and is drawn by `draw x` draws its columns in turn. -/
theorem BitmapLoop.of_columns {start : Nat → Nat} {draw : Surface → Nat → Surface}
    (hcolumn : ∀ x, x < b.bw → ∀ t u, BitmapLoop cfg b (x + 1) 0 (start (x + 1)) (draw t x) u →
      BitmapLoop cfg b x 0 (start x) t u) :
    BitmapLoop cfg b 0 0 (start 0) sf ((List.range b.bw).foldl draw sf) :=
  of_foldl_range (holds := fun x t => BitmapLoop cfg b x 0 (start x) t ((List.range b.bw).foldl draw sf))
    (fun x hx t => hcolumn x hx t _) (.done le_rfl)

/-- One run of the bitmap's height is a column (R194). -/
theorem BitmapLoop.of_full_run {x index : Nat} (hx : x < b.bw) (hh : 0 < b.bh)
    (hmarker : bitmapWord cfg b.p index = b.marker) (hcount : (bitmapWord cfg b.p (index + 1)).toNat = b.bh)
    (hnext : BitmapLoop cfg b (x + 1) 0 (index + 3) (drawRun b x 0 b.bh (bitmapWord cfg b.p (index + 2)) sf) sf') :
    BitmapLoop cfg b x 0 index sf sf' := by
  have hgoes : emptyForEver cfg b index = false := Bool.eq_false_iff.2 fun hstuck => by
    have hzero := (emptyRuns_spec (Nat.pos_of_ne_zero (emptyForEver_eq_true.1 hstuck).2)).2
    rw [Nat.mul_zero, Nat.add_zero] at hzero
    rw [hzero] at hcount
    exact hh.ne hcount
  rw [bitmapLoop_iff_of_marker hx hh hmarker, hcount]
  exact ⟨hgoes, .column hx (by omega) hnext⟩

/-- As many literals as the bitmap is high are a column (R195). -/
theorem BitmapLoop.of_literals {x index : Nat} (hx : x < b.bw)
    (hliteral : ∀ j, j < b.bh → bitmapWord cfg b.p (index + j) ≠ b.marker)
    (hnext : BitmapLoop cfg b (x + 1) 0 (index + b.bh)
      ((List.range b.bh).foldl (fun t j => drawLiteral b x j (bitmapWord cfg b.p (index + j)) t) sf) sf') :
    BitmapLoop cfg b x 0 index sf sf' :=
  of_foldl_range (holds := fun j t => BitmapLoop cfg b x j (index + j) t sf')
    (fun j hj _ h => (bitmapLoop_iff_of_literal hx hj (hliteral j hj)).2 h) (.column hx le_rfl hnext)

/-! ### One run in each column -/

theorem drawRun_paints {col : Word} (hcol : col ≠ b.transparent) (x cnt : Nat) (t : Surface) :
    t.Paints (drawRun b x 0 cnt col t) (fun px py => px = b.x0 + x ∧ b.y0 ≤ py ∧ py < b.y0 + cnt)
      (fun _ _ => bswap16 col) := by
  rw [drawRun, if_neg hcol]
  refine (Surface.paints_foldl _ fun u _ i _ => u.drawPixel_paints (b.x0 + x) (b.y0 + 0 + i) col).congr
    (fun px py _ => ⟨?_, ?_⟩) fun _ _ _ => rfl
  · rintro ⟨i, hi, rfl, rfl⟩
    have := List.mem_range.1 hi
    omega
  · rintro ⟨rfl, hy, hyh⟩
    exact ⟨py - b.y0, List.mem_range.2 (by omega), rfl, by omega⟩

/-- The columns side by side are the rectangle. -/
theorem foldl_drawRun_paints {col : Word} (hcol : col ≠ b.transparent) (sf : Surface) :
    sf.Paints ((List.range b.bw).foldl (fun t k => drawRun b k 0 b.bh col t) sf)
      (fun px py => b.x0 ≤ px ∧ px < b.x0 + b.bw ∧ b.y0 ≤ py ∧ py < b.y0 + b.bh) (fun _ _ => bswap16 col) := by
  refine (Surface.paints_foldl _ fun t _ k _ => drawRun_paints hcol k b.bh t).congr (fun px py _ => ⟨?_, ?_⟩) fun _ _ _ => rfl
  · rintro ⟨k, hk, rfl, hy, hyh⟩
    have := List.mem_range.1 hk
    exact ⟨by omega, by omega, hy, hyh⟩
  · rintro ⟨hx, hxw, hy, hyh⟩
    exact ⟨px - b.x0, List.mem_range.2 (by omega), by omega, hy, hyh⟩

theorem BitmapLoop.of_full_runs {col : Word} (hh : 0 < b.bh)
    (hruns : ∀ k, k < b.bw → bitmapWord cfg b.p (4 + 3 * k) = b.marker ∧
      (bitmapWord cfg b.p (4 + 3 * k + 1)).toNat = b.bh ∧ bitmapWord cfg b.p (4 + 3 * k + 2) = col) :
    BitmapLoop cfg b 0 0 4 sf ((List.range b.bw).foldl (fun t k => drawRun b k 0 b.bh col t) sf) := by
  refine .of_columns (start := fun k => 4 + 3 * k) fun k hk t u hnext => ?_
  obtain ⟨hmarker, hcount, hcolour⟩ := hruns k hk
  refine .of_full_run hk hh hmarker hcount ?_
  rw [hcolour]
  exact hnext

/-- Settles O44: each column is one full run. -/
theorem bitmapOfRunsDrawsAField : Obligations.BitmapOfRunsDrawsAField := by
  intro x y col p s sf hp hcurrent hheight hcol hruns
  have hh : 0 < (bitmapHeader s.cfg x.toNat y.toNat p).bh :=
    Nat.pos_of_ne_zero fun h0 => hheight (BitVec.eq_of_toNat_eq h0)
  obtain ⟨hexec, -, htext⟩ := exec_bitmap_of_loop hp hcurrent (.of_full_runs hh fun k hk =>
    have ⟨hmarker, hcount, hcolour⟩ := hruns k hk
    ⟨hmarker, congrArg BitVec.toNat hcount, hcolour⟩)
  exact ⟨_, hexec, htext, foldl_drawRun_paints hcol sf⟩

/-! ### Literals only -/

/-- The word of the surface's pixel (px, py) in a bitmap without runs: the words go down the columns (R193). -/
def wordOfPixel (cfg : Config) (b : BitmapHeader) (px py : Nat) : Word :=
  bitmapWord cfg b.p (4 + (px - b.x0) * b.bh + (py - b.y0))

theorem drawLiteral_paints (b : BitmapHeader) (x y : Nat) (v : Word) (t : Surface) :
    t.Paints (drawLiteral b x y v t) (fun px py => px = b.x0 + x ∧ py = b.y0 + y ∧ v ≠ b.transparent)
      (fun _ _ => bswap16 v) := by
  unfold drawLiteral
  split
  case isTrue hclear => exact .none fun px py _ hdrawn => hdrawn.2.2 hclear
  case isFalse hcolour =>
    exact (t.drawPixel_paints _ _ v).congr (fun px py _ => by simp [hcolour]) fun _ _ _ => rfl

/-- A bitmap without runs, as the columns of its words. -/
def drawLiterals (cfg : Config) (b : BitmapHeader) (sf : Surface) : Surface :=
  (List.range b.bw).foldl (fun t k =>
    (List.range b.bh).foldl (fun u j => drawLiteral b k j (bitmapWord cfg b.p (4 + k * b.bh + j)) u) t) sf

theorem drawLiterals_paints (cfg : Config) (b : BitmapHeader) (sf : Surface) :
    sf.Paints (drawLiterals cfg b sf)
      (fun px py => b.x0 ≤ px ∧ px < b.x0 + b.bw ∧ b.y0 ≤ py ∧ py < b.y0 + b.bh ∧
        wordOfPixel cfg b px py ≠ b.transparent)
      (fun px py => bswap16 (wordOfPixel cfg b px py)) := by
  have hword (k j : Nat) : wordOfPixel cfg b (b.x0 + k) (b.y0 + j) = bitmapWord cfg b.p (4 + k * b.bh + j) := by
    rw [wordOfPixel, Nat.add_sub_cancel_left, Nat.add_sub_cancel_left]
  have hitem (k j : Nat) (t : Surface) :
      t.Paints (drawLiteral b k j (bitmapWord cfg b.p (4 + k * b.bh + j)) t)
        (fun px py => px = b.x0 + k ∧ py = b.y0 + j ∧ wordOfPixel cfg b px py ≠ b.transparent)
        (fun px py => bswap16 (wordOfPixel cfg b px py)) := by
    rw [← hword]
    refine (drawLiteral_paints b k j _ t).congr (fun px py _ => ?_) ?_
    · constructor <;> (rintro ⟨rfl, rfl, hcolour⟩; exact ⟨rfl, rfl, hcolour⟩)
    · rintro _ _ ⟨rfl, rfl, -⟩
      rfl
  refine (Surface.paints_foldl _ fun t _ k _ => Surface.paints_foldl _ fun u _ j _ => hitem k j u).congr
    (fun px py _ => ⟨?_, ?_⟩) fun _ _ _ => rfl
  · rintro ⟨k, hk, j, hj, rfl, rfl, hcolour⟩
    have := List.mem_range.1 hk
    have := List.mem_range.1 hj
    exact ⟨by omega, by omega, by omega, by omega, hcolour⟩
  · rintro ⟨hx, hxw, hy, hyh, hcolour⟩
    exact ⟨px - b.x0, List.mem_range.2 (by omega), py - b.y0, List.mem_range.2 (by omega), by omega, by omega, hcolour⟩

theorem BitmapLoop.of_all_literals (hliteral : ∀ i, i < b.bw * b.bh → bitmapWord cfg b.p (4 + i) ≠ b.marker) :
    BitmapLoop cfg b 0 0 4 sf (drawLiterals cfg b sf) := by
  have hcolumns := BitmapLoop.of_columns (cfg := cfg) (b := b) (sf := sf) (start := fun k => 4 + k * b.bh)
    (draw := fun t k => (List.range b.bh).foldl (fun u j => drawLiteral b k j (bitmapWord cfg b.p (4 + k * b.bh + j)) u) t)
    fun k hk t u hnext => .of_literals hk (fun j hj => ?_) ?_
  · unfold drawLiterals
    simpa only [Nat.zero_mul, Nat.add_zero] using hcolumns
  · have hplace : (k + 1) * b.bh ≤ b.bw * b.bh := Nat.mul_le_mul_right _ hk
    rw [Nat.succ_mul] at hplace
    rw [Nat.add_assoc]
    exact hliteral _ (by omega)
  · rwa [Nat.succ_mul, ← Nat.add_assoc] at hnext

/-- Settles O45 by `drawLiterals_paints`. -/
theorem bitmapOfLiteralsDrawsEachPixel : Obligations.BitmapOfLiteralsDrawsEachPixel := by
  intro x y p s sf hp hcurrent hliteral
  obtain ⟨hexec, -, htext⟩ := exec_bitmap_of_loop hp hcurrent (.of_all_literals hliteral)
  exact ⟨_, hexec, htext, drawLiterals_paints s.cfg (bitmapHeader s.cfg x.toNat y.toNat p) sf⟩

end Sys2Proof.Machine
end

section
/-! The transport sink (44_transport.md R205 to R207): the bytes of a frame by their place, and what PRESENT answers in
either of its outcomes. -/

namespace Sys2Proof.Machine

variable {s : State}

/-! ### The bytes of a frame -/

/-- Where each item gives two entries, those of the item in place `i` stand in the places 2 * i and 2 * i + 1. -/
theorem getElem?_flatMap_pair {α β : Type} (f g : α → β) (l : List α) (i : Nat) :
    (l.flatMap fun x => [f x, g x])[2 * i]? = l[i]?.map f ∧
      (l.flatMap fun x => [f x, g x])[2 * i + 1]? = l[i]?.map g := by
  induction l generalizing i with
  | nil => exact ⟨rfl, rfl⟩
  | cons x xs ih =>
    cases i with
    | zero => exact ⟨rfl, rfl⟩
    | succ j => exact ih j

/-- A frame carries its cells in index order, each low byte first (R206, R207). -/
theorem frameBytes_getElem? {sf : Surface} {i : Nat} (hi : i < sf.w.toNat * sf.h.toNat) :
    (frameBytes sf)[2 * i]? = some (lowByte (sf.cellRead i)) ∧
      (frameBytes sf)[2 * i + 1]? = some (highByte (sf.cellRead i)) := by
  have hcell : (List.range sf.cells)[i]? = some i := List.getElem?_range hi
  have hbytes := getElem?_flatMap_pair (fun k => lowByte (sf.cellRead k)) (fun k => highByte (sf.cellRead k))
    (List.range sf.cells) i
  rwa [hcell] at hbytes

/-! ### PRESENT -/

theorem exec_present_ignored {slot : Byte} (hground : s.cfg.nSurf ≤ slot.toNat ∨ s.surf? slot.toNat = none) :
    exec (.present slot) s = .next { s with cmdbuf := [] } := by
  change execPresent slot s = .next s.retire
  unfold execPresent
  rcases hground with hout | hfree
  · rw [if_pos hout]
  · rw [hfree]
    exact congrArg Host.Outcome.next (ite_self _)

theorem exec_present_sent {slot : Byte} {sf : Surface} (hrange : slot.toNat < s.cfg.nSurf)
    (hheld : s.surf? slot.toNat = some sf) :
    exec (.present slot) s = .next { s with tx := s.tx ++ [frameOf sf], cmdbuf := [] } := by
  change execPresent slot s = _
  rw [execPresent, if_neg (Nat.not_le.2 hrange), hheld]
  rfl

/-- Settles O47: the two outcomes of PRESENT, the bytes of the frame by `frameBytes_getElem?`. -/
theorem presentAppendsAWholeFrame : Obligations.PresentAppendsAWholeFrame := by
  intro slot
  refine ⟨fun rest => decode_header _ _ _, fun s => ⟨exec_present_ignored, fun sf hrange hheld => ?_⟩⟩
  exact ⟨frameBytes sf, exec_present_sent hrange hheld, frameBytes_length sf, fun i hi => frameBytes_getElem? hi⟩

end Sys2Proof.Machine
end

section
/-! The order of the undelivered events (45_keyscan.md R225, R229, 46_queue_arb.md R254): a poll emits a Press from Idle and a
Release from Pressed only, so the event that the scan engine takes from it goes on where the events before it end; a command
takes events from the head of `Q`, and every other turn leaves them and `DB` alone. -/

namespace Sys2Proof.Machine

variable {s t : State}

/-! ### What a poll reports -/

/-- What a poll may report on its way from one debounce state to the next (45_keyscan.md R223 to R225). -/
inductive Reports : Debounce → Option KeyEvent → Debounce → Prop where
  | nothing (d : Debounce) : Reports d none d
  | press (k : Key) (t : BitVec 32) : Reports .idle (some ⟨true, k⟩) (.pressed k.row k.col t)
  | release (k : Key) (t : BitVec 32) : Reports (.pressed k.row k.col t) (some ⟨false, k⟩) .idle

@[simp] theorem scan_db (s : State) : (scan s).2.db = s.db := by
  have hframe := scan_frame s
  unfold ScanFrame at hframe
  rw [hframe]

@[simp] theorem rescan_db (s : State) : (rescan s).2.db = s.db := by
  have hframe := rescan_frame s
  unfold ScanFrame at hframe
  rw [hframe]

theorem poll_reports (s : State) : Reports s.db (poll s).1 (poll s).2.db := by
  rcases poll_cases s with ⟨hdb, ⟨-, h⟩ | ⟨k, -, ⟨-, h⟩ | ⟨-, h⟩⟩⟩ |
    ⟨row, col, t, hdb, ⟨-, h⟩ | ⟨-, -, h⟩ | ⟨-, -, h⟩ | ⟨-, -, h⟩⟩ <;> rw [h] <;> simp only [scan_db, rescan_db, hdb]
  · exact .nothing _
  · exact .press k _
  · exact .nothing _
  · exact .nothing _
  · exact .release ⟨row, col⟩ t
  · exact .nothing _
  · exact .release ⟨row, col⟩ t

/-- What a poll reports leads from the key held before it to the key held after it (R229). -/
theorem Reports.lead {d d' : Debounce} {event : Option KeyEvent} (h : Reports d event d') :
    EventsLead d.key (event.toList.map KeyEvent.word) d'.key := by
  cases h with
  | nothing => exact rfl
  | press k t => exact ⟨k, rfl, rfl⟩
  | release k t => exact ⟨rfl, rfl⟩

/-! ### The undelivered events -/

theorem eventsLead_append {start finish : Option Key} {xs ys : List Word} :
    EventsLead start (xs ++ ys) finish ↔ ∃ middle, EventsLead start xs middle ∧ EventsLead middle ys finish := by
  induction xs generalizing start with
  | nil => simp [EventsLead]
  | cons x xs ih =>
    cases start with
    | none =>
      simp only [List.cons_append, EventsLead, ih]
      exact ⟨fun ⟨k, hx, middle, h, h'⟩ => ⟨middle, ⟨k, hx, h⟩, h'⟩, fun ⟨middle, ⟨k, hx, h⟩, h'⟩ => ⟨k, hx, middle, h, h'⟩⟩
    | some k => simp only [List.cons_append, EventsLead, ih, and_assoc, exists_and_left]

theorem State.undelivered_of_pending {ev : Word} (h : s.se = .pushPending ev) : s.undelivered = s.q ++ [ev] := by
  simp only [State.undelivered, h]

theorem State.undelivered_of_not_pending (h : ∀ ev, s.se ≠ .pushPending ev) : s.undelivered = s.q := by
  unfold State.undelivered
  split
  case h_1 ev hse => exact absurd hse (h ev)
  case h_2 => exact List.append_nil s.q

theorem State.undelivered_suffix (hq : t.q <:+ s.q) (hse : t.se = s.se) : t.undelivered <:+ s.undelivered := by
  obtain ⟨taken, hq⟩ := hq
  exact ⟨taken, by simp only [State.undelivered, ← hq, hse, List.append_assoc]⟩

/-- Events taken from the head leave the others in order (R252, R253). -/
theorem State.EventsInOrder.deliver (h : s.EventsInOrder) (htaken : t.undelivered <:+ s.undelivered)
    (hdb : t.db = s.db) : t.EventsInOrder := by
  obtain ⟨start, hlead⟩ := h
  obtain ⟨taken, htaken⟩ := htaken
  rw [← htaken, eventsLead_append, ← hdb] at hlead
  obtain ⟨middle, -, hlead⟩ := hlead
  exact ⟨middle, hlead⟩

/-- What a poll reports goes on where the undelivered events end. -/
theorem State.EventsInOrder.emit (h : s.EventsInOrder) {event : Option KeyEvent} (hreports : Reports s.db event t.db)
    (hemitted : t.undelivered = s.undelivered ++ event.toList.map KeyEvent.word) : t.EventsInOrder := by
  obtain ⟨start, hlead⟩ := h
  exact ⟨start, hemitted ▸ eventsLead_append.2 ⟨_, hlead, hreports.lead⟩⟩

/-- Without an event queued or in flight there is nothing to order. -/
theorem State.eventsInOrder_of_undelivered_nil (h : s.undelivered = []) : s.EventsInOrder := ⟨s.db.key, h ▸ rfl⟩

/-! ### The turns -/

/-- With MULTICORE = 1 a turn of the primary context only delivers: no command polls (R252, R253). -/
theorem primaryTurn_keeps_order (hm : s.cfg.multicore = true) (h : s.EventsInOrder) (hturn : primaryTurn s = .next t) :
    t.EventsInOrder := by
  have hdb : t.db = s.db := (primaryTurn_busFrame hm hturn).db
  refine h.deliver ?_ hdb
  rcases primaryTurn_cases hturn with hf | ⟨i, u, hf, hi⟩ <;> unfold HostFrame at hf
  · rw [hf]
    exact List.suffix_rfl
  · have hdelivers := State.undelivered_suffix (exec_effect hi).q (exec_frame hi).se
    rw [hf] at hdelivers
    exact hdelivers

/-- The event that a poll of the scan engine reports is the one in flight after it (R257). -/
theorem enginePoll_keeps_order (h : s.EventsInOrder) (hse : s.se = .inPoll) : (enginePoll s).EventsInOrder := by
  have hreports := poll_reports s
  have hq := poll_q s
  have hbefore : s.undelivered = s.q := State.undelivered_of_not_pending (by simp [hse])
  unfold enginePoll
  generalize poll s = r at hreports hq
  obtain ⟨event, s1⟩ := r
  cases event with
  | none =>
    refine h.emit hreports ?_
    rw [State.undelivered_of_not_pending (by simp), hbefore]
    simpa using hq
  | some e =>
    refine h.emit hreports ?_
    rw [State.undelivered_of_pending rfl, hbefore]
    exact congrArg (· ++ [e.word]) hq

/-- A push moves the event in flight to the tail of `Q`; only a poll adds an event (R257). -/
theorem engineStep_keeps_order (h : s.EventsInOrder) : (engineStep s).EventsInOrder := by
  have same {t : State} (hundelivered : t.undelivered = s.undelivered) (hdb : t.db = s.db) : t.EventsInOrder :=
    h.deliver (hundelivered ▸ List.suffix_rfl) hdb
  unfold engineStep
  split
  case isFalse => exact h
  case isTrue =>
    split
    case h_1 hse =>
      split
      · exact same (by simp [State.undelivered, hse]) rfl
      · exact h
    case h_2 hse =>
      split
      · exact h
      · exact same (by simp [State.undelivered, hse]) rfl
    case h_3 hse => exact enginePoll_keeps_order h hse
    case h_4 ev hse =>
      split
      · exact same (by simp [State.undelivered, hse]) rfl
      · exact h

theorem takeTurn_keeps_order {turn : Turn} (hm : s.cfg.multicore = true) (h : s.EventsInOrder)
    (hturn : takeTurn turn s = .next t) : t.EventsInOrder := by
  cases turn with
  | primary => exact primaryTurn_keeps_order hm h hturn
  | scan => cases hturn; exact engineStep_keeps_order h
  | tick ms => cases hturn; exact h
  | reset => cases hturn; exact State.eventsInOrder_of_undelivered_nil rfl

/-- With MULTICORE = 0 there is neither a queue nor an event in flight (00_scope.md R3). -/
theorem State.Inv.undelivered_nil (h : s.Inv) (hm : s.cfg.multicore = false) : s.undelivered = [] := by
  obtain ⟨hq, hse, -⟩ := h.single hm
  rw [State.undelivered_of_not_pending (by simp [hse]), hq]

/-- Settles O11: with MULTICORE = 1 each agent's turn keeps the order, and with MULTICORE = 0 no event is ever undelivered. -/
theorem everyStepKeepsTheEventsInOrder : Obligations.EveryStepKeepsTheEventsInOrder := by
  intro s t hinv horder hstep
  have hnext := nextTurn_frame s
  cases hm : s.cfg.multicore with
  | true =>
    refine takeTurn_keeps_order (s := (nextTurn s).2) ?_ ?_ hstep
    · rw [hnext]
      exact hm
    · rw [hnext]
      exact horder
  | false =>
    have hcfg : t.cfg = s.cfg := (transportHistoryOnlyGrows s t hstep).1
    exact State.eventsInOrder_of_undelivered_nil
      ((everyStepKeepsTheInvariant s t hinv hstep).undelivered_nil (hcfg ▸ hm))

end Sys2Proof.Machine
end

section
/-! What a scan reports (45_keyscan.md R215 to R221): it passes the row lines on which every column reads high, and ends on the
first on which one reads low; and which these are with the answers of an ideal matrix. -/

namespace Sys2Proof.Machine

variable {s : State}

/-! ### The first position of a kind -/

theorem finRange_split {n : Nat} (i : Fin n) :
    List.finRange n = (List.finRange n).take i.val ++ i :: (List.finRange n).drop (i.val + 1) := by
  have hi : i.val < (List.finRange n).length := by simp
  calc List.finRange n = (List.finRange n).take i.val ++ (List.finRange n).drop i.val := (List.take_append_drop ..).symm
    _ = _ := by rw [List.drop_eq_getElem_cons hi, List.getElem_finRange]; rfl

theorem lt_of_mem_take_finRange {n : Nat} {i j : Fin n} (h : j ∈ (List.finRange n).take i.val) : j < i := by
  obtain ⟨k, hk, rfl⟩ := List.mem_take_iff_getElem.1 h
  simp only [List.getElem_finRange, Fin.lt_def, Fin.val_cast]
  omega

/-- The lowest column line of a sample that reads low (R218, R220). -/
theorem lowestColumn_not {v : BitVec 7} {c : Fin 7} (hlow : v.getLsbD c.val = false)
    (hfirst : ∀ j : Nat, j < c.val → v.getLsbD j = true) : lowestColumn (~~~v) = c := by
  have hfind : (List.finRange 7).find? (fun j => (~~~v).getLsbD j.val) = some c := by
    refine List.find?_eq_some_iff_append.2 ⟨by simpa using hlow, _, _, finRange_split c, fun j hj => ?_⟩
    simpa using hfirst j.val (lt_of_mem_take_finRange hj)
  rw [lowestColumn, hfind, Option.getD_some]

/-! ### The lines of a scan -/

/-- `s` after a part of a scan that took its answers from the list. -/
def State.scannedTo (s : State) (rowsel : BitVec 7) (matrix : List KeySample) (time : BitVec 32) : State :=
  { s with rowsel := rowsel, matrix := matrix, time := time }

/-- The sample of one line, where its answer is listed (R218). -/
theorem sampleLine_listed {a : KeySample} {rest : List KeySample} (h : s.matrix = a :: rest) (r : Fin 7) :
    ∃ time, ({ s with rowsel := selectRow r }.wait s.cfg.tSettleUs).sampleColin =
      (a.colin, s.scannedTo (selectRow r) rest time) :=
  ⟨(s.wait s.cfg.tSettleUs).time + BitVec.ofNat 32 a.late, by
    simp only [State.sampleColin, State.wait_matrix, h]
    rfl⟩

/-- A line on which every column reads high is passed (R219). -/
theorem scanRows_high {a : KeySample} {rest : List KeySample} (h : s.matrix = a :: rest) (ha : a.colin = 0x7F)
    (r : Fin 7) (rows : List (Fin 7)) :
    ∃ time, scanRows (r :: rows) s = scanRows rows (s.scannedTo (selectRow r) rest time) := by
  obtain ⟨time, hsample⟩ := sampleLine_listed h r
  exact ⟨time, by simp only [scanRows, hsample, ha]; rfl⟩

/-- A line on which a column reads low ends the scan, with the key on the lowest such column (R219, R220). -/
theorem scanRows_low {a : KeySample} {rest : List KeySample} (h : s.matrix = a :: rest) {c : Fin 7}
    (hlow : a.colin.getLsbD c.val = false) (hfirst : ∀ j : Nat, j < c.val → a.colin.getLsbD j = true)
    (r : Fin 7) (rows : List (Fin 7)) :
    ∃ time, scanRows (r :: rows) s = (some (remap s.cfg r c), s.scannedTo (selectRow r) rest time) := by
  obtain ⟨time, hsample⟩ := sampleLine_listed h r
  have hclosed : ~~~a.colin ≠ 0 := by
    intro hzero
    have hbit : (~~~a.colin).getLsbD c.val = true := by simpa using hlow
    simp [hzero] at hbit
  exact ⟨time, by simp only [scanRows, hsample, if_neg hclosed, lowestColumn_not hlow hfirst]⟩

/-- Lines on which every column reads high are passed one after another, and the last of them stays selected. -/
theorem scanRows_all_high {high rest : List KeySample} {passed : List (Fin 7)} (hmatrix : s.matrix = high ++ rest)
    (hlen : high.length = passed.length) (hhigh : ∀ a ∈ high, a.colin = 0x7F) (rows : List (Fin 7)) :
    ∃ time, scanRows (passed ++ rows) s =
      scanRows rows (s.scannedTo ((passed.map selectRow).getLastD s.rowsel) rest time) := by
  induction passed generalizing s high with
  | nil =>
    obtain rfl : high = [] := List.length_eq_zero_iff.1 hlen
    exact ⟨s.time, by rw [← show s.matrix = rest from hmatrix]; rfl⟩
  | cons r passed ih =>
    cases high with
    | nil => cases hlen
    | cons a high =>
      obtain ⟨ha, hhigh⟩ := List.forall_mem_cons.1 hhigh
      obtain ⟨time, hfirst⟩ := scanRows_high hmatrix ha r (passed ++ rows)
      obtain ⟨time', hothers⟩ := ih (s := s.scannedTo (selectRow r) (high ++ rest) time) rfl (Nat.succ.inj hlen) hhigh
      refine ⟨time', hfirst.trans (hothers.trans ?_)⟩
      rw [List.map_cons, List.getLastD_cons]
      rfl

/-! ### A whole scan -/

theorem scan_eq_scanRows_finRange (s : State) : scan s = scanRows (List.finRange 7) s := rfl

/-- With every column high on all seven lines the scan reports none. -/
theorem scan_none {high rest : List KeySample} (hmatrix : s.matrix = high ++ rest) (hlen : high.length = 7)
    (hhigh : ∀ a ∈ high, a.colin = 0x7F) :
    ∃ time, scan s = (none, s.scannedTo 0x3F rest time) :=
  scanRows_all_high (passed := List.finRange 7) hmatrix hlen hhigh []

/-- The scan ends on the first line on which a column reads low. -/
theorem scan_some {high rest : List KeySample} {a : KeySample} {r c : Fin 7} (hmatrix : s.matrix = high ++ a :: rest)
    (hlen : high.length = r.val) (hhigh : ∀ b ∈ high, b.colin = 0x7F) (hlow : a.colin.getLsbD c.val = false)
    (hfirst : ∀ j : Nat, j < c.val → a.colin.getLsbD j = true) :
    ∃ time, scan s = (some (remap s.cfg r c), s.scannedTo (selectRow r) rest time) := by
  rw [scan_eq_scanRows_finRange, finRange_split r]
  have hlines : high.length = ((List.finRange 7).take r.val).length := by simp [hlen, Nat.le_of_lt r.isLt]
  obtain ⟨time, hpassed⟩ := scanRows_all_high hmatrix hlines hhigh (r :: (List.finRange 7).drop (r.val + 1))
  rw [hpassed]
  exact scanRows_low rfl hlow hfirst r _

/-- Settles O49: the answers but the last are those of the lines passed. -/
theorem scanReportsTheLowestRowAndColumn : Obligations.ScanReportsTheLowestRowAndColumn := by
  refine fun s rest answers hmatrix => ⟨fun r c hlen hhigh hlow => ?_, fun hlen hhigh => ?_⟩
  · cases answers using List.reverseRecOn with
    | nil => simp at hlen
    | append_singleton high a =>
      have hlen : high.length = r.val := by simpa using hlen
      obtain ⟨hcol, hfirst⟩ := hlow a (by simp [← hlen])
      have hhigh : ∀ b ∈ high, b.colin = 0x7F := by
        intro b hb
        obtain ⟨k, hk, rfl⟩ := List.mem_iff_getElem.1 hb
        exact hhigh k (hlen ▸ hk) _ (by simp [List.getElem?_append_left hk])
      obtain ⟨time, hscan⟩ := scan_some (by simpa using hmatrix) hlen hhigh hcol hfirst
      rw [hscan]
      exact ⟨rfl, rfl⟩
  · obtain ⟨time, hscan⟩ := scan_none hmatrix hlen hhigh
    rw [hscan]
    exact ⟨rfl, rfl⟩

/-! ### The ideal matrix -/

theorem selectRow_getLsbD : ∀ r i : Fin 7, (selectRow r).getLsbD i.val = decide (i ≠ r) := by decide

theorem columnMask_getLsbD : ∀ c j : Fin 7, (~~~(1#7 <<< j.val)).getLsbD c.val = decide (c ≠ j) := by decide

theorem allHigh_getLsbD : ∀ c : Fin 7, (0x7F : BitVec 7).getLsbD c.val = true := by decide

/-- A column that some step of the loop over the columns clears reads low. -/
theorem foldl_clear_getLsbD (low : Fin 7 → Bool) (c : Fin 7) (columns : List (Fin 7)) (v : BitVec 7) :
    (columns.foldl (fun v j => if low j then v &&& ~~~(1#7 <<< j.val) else v) v).getLsbD c.val =
      (v.getLsbD c.val && !(low c && decide (c ∈ columns))) := by
  induction columns generalizing v with
  | nil => simp
  | cons j columns ih =>
    rw [List.foldl_cons, ih]
    by_cases hj : low j = true
    · rw [if_pos hj, BitVec.getLsbD_and, columnMask_getLsbD]
      by_cases hc : c = j
      · simp [← hc, hc ▸ hj]
      · simp [hc]
    · rw [if_neg hj]
      by_cases hc : c = j
      · simp [hc, hj]
      · simp [hc]

/-- With one row line selected a column reads low exactly where the key on both is closed (R215, R216). -/
theorem idealColin_getLsbD (closed : List (Fin 7 × Fin 7)) (r c : Fin 7) :
    (idealColin closed (selectRow r)).getLsbD c.val = decide ((r, c) ∉ closed) := by
  have hclosed : (closed.any fun k => k.2 = c && !(selectRow r).getLsbD k.1.val) = decide ((r, c) ∈ closed) := by
    rw [Bool.eq_iff_iff]
    simp only [selectRow_getLsbD, List.any_eq_true, Bool.and_eq_true, Bool.not_eq_true',
      decide_eq_false_iff_not, decide_eq_true_eq, not_not]
    exact ⟨fun ⟨k, hk, hcol, hrow⟩ => hrow ▸ hcol ▸ hk, fun h => ⟨_, h, rfl, rfl⟩⟩
  rw [idealColin, foldl_clear_getLsbD (fun c => closed.any fun k => k.2 = c && !(selectRow r).getLsbD k.1.val), hclosed,
    allHigh_getLsbD, Bool.true_and, decide_eq_true (List.mem_finRange c), Bool.and_true, decide_not]

/-- A row line on which no key is closed reads high on every column. -/
theorem idealColin_of_open {closed : List (Fin 7 × Fin 7)} {r : Fin 7} (hopen : ∀ k ∈ closed, k.1 ≠ r) :
    idealColin closed (selectRow r) = 0x7F := by
  refine BitVec.eq_of_getLsbD_eq fun i hi => ?_
  have hkey : (r, (⟨i, hi⟩ : Fin 7)) ∉ closed := fun h => hopen _ h rfl
  calc (idealColin closed (selectRow r)).getLsbD i = decide _ := idealColin_getLsbD closed r ⟨i, hi⟩
    _ = true := decide_eq_true hkey
    _ = (0x7F : BitVec 7).getLsbD i := (allHigh_getLsbD ⟨i, hi⟩).symm

/-- Settles O50: the lines before `r` read high on every column, and on `r` the columns before `c` do. -/
theorem scanOfAnIdealMatrixFindsTheLowestKey : Obligations.ScanOfAnIdealMatrixFindsTheLowestKey := by
  refine fun s closed late rest hmatrix => ⟨?_, fun r c hmem hrow hcol => ?_⟩
  · rintro rfl
    obtain ⟨time, hscan⟩ := scan_none hmatrix (by simp) (by simp [idealColin_of_open])
    rw [hscan]
  · rw [finRange_split r, List.map_append, List.map_cons, List.append_assoc] at hmatrix
    have hhigh : ∀ a ∈ ((List.finRange 7).take r.val).map fun i => (⟨idealColin closed (selectRow i), late⟩ : KeySample),
        a.colin = 0x7F := by
      intro a ha
      obtain ⟨i, hi, rfl⟩ := List.mem_map.1 ha
      exact idealColin_of_open fun k hk heq => (lt_of_mem_take_finRange hi).not_ge (heq ▸ hrow k hk)
    have hlow : (idealColin closed (selectRow r)).getLsbD c.val = false := by
      rw [idealColin_getLsbD]
      exact decide_eq_false (not_not.2 hmem)
    have hfirst : ∀ j : Nat, j < c.val → (idealColin closed (selectRow r)).getLsbD j = true := by
      intro j hj
      have hopen : (r, (⟨j, hj.trans c.isLt⟩ : Fin 7)) ∉ closed := fun h => absurd (hcol _ h rfl) (Nat.not_le.2 hj)
      exact (idealColin_getLsbD closed r ⟨j, _⟩).trans (decide_eq_true hopen)
    obtain ⟨time, hscan⟩ := scan_some (r := r) hmatrix (by simp [Nat.le_of_lt r.isLt]) hhigh hlow hfirst
    rw [hscan]

end Sys2Proof.Machine
end

section
/-! The event word, the debounce rules, and the key commands (45_keyscan.md R223 to R228, R236, R237): POLLKEY and WAITKEY in
each variant of the block, read off a poll's frame or the head of `Q`. -/

namespace Sys2Proof.Machine

variable {s : State}

/-! ### The event word -/

theorem eventWord_fields : ∀ (press : Bool) (row col : Fin 7),
    (eventWord press row col).getLsbD 15 = true ∧ (eventWord press row col).extractLsb' 9 6 = 0 ∧
      (eventWord press row col).getLsbD 8 = press ∧ ((eventWord press row col).extractLsb' 4 4).toNat = row.val ∧
      ((eventWord press row col).extractLsb' 0 4).toNat = col.val := by decide

/-- Bit 15 tells an event from nothing (R228). -/
theorem eventWord_ne_zero (press : Bool) (row col : Fin 7) : eventWord press row col ≠ 0 := by
  intro hzero
  obtain ⟨hbit, -⟩ := eventWord_fields press row col
  rw [hzero] at hbit
  cases hbit

/-- Settles O48: the fields by the finitely many event words, and bit 15 against 0x0000. -/
theorem eventWordHasItsFields : Obligations.EventWordHasItsFields := by
  intro press row col
  obtain ⟨hbit, hzero, hpress, hrow, hcol⟩ := eventWord_fields press row col
  exact ⟨hbit, hzero, hpress, hrow, hcol, eventWord_ne_zero press row col, rfl⟩

/-! ### The debounce rules -/

theorem poll_of_idle (hdb : s.db = .idle) : poll s = pollIdle s := by simp only [poll, hdb]

theorem poll_of_pressed {k : Key} {t : BitVec 32} (hdb : s.db = .pressed k.row k.col t) : poll s = pollPressed k s := by
  simp only [poll, hdb]

/-- Settles O51: the branches of a poll from Idle, then those of a poll from Pressed. -/
theorem pollFollowsTheDebounceRules : Obligations.PollFollowsTheDebounceRules := by
  refine ⟨?_, ?_, ?_, ?_, ?_, ?_, ?_⟩
  · intro s s1 hdb hscan
    simp only [poll_of_idle hdb, pollIdle, hscan]
  · intro s s1 s2 k hdb hscan hrescan
    simp only [poll_of_idle hdb, pollIdle, hscan, hrescan, if_true]
  · intro s s1 s2 k o hdb hscan hrescan hother
    simp only [poll_of_idle hdb, pollIdle, hscan, hrescan, if_neg hother]
  · intro s s1 k t hdb hscan
    simp only [poll_of_pressed hdb, pollPressed, hscan, if_true]
  · intro s s1 k k' t hdb hscan hother
    simp [poll_of_pressed hdb, pollPressed, hscan, hother]
  · intro s s1 s2 k t hdb hscan hrescan
    simp [poll_of_pressed hdb, pollPressed, hscan, hrescan]
  · intro s s1 s2 k o t hdb hscan hrescan hother
    simp [poll_of_pressed hdb, pollPressed, hscan, hrescan, hother]

/-! ### The key commands with MULTICORE = 0 -/

theorem exec_pollkey_polls (hm : s.cfg.multicore = false) :
    exec .pollkey s = .next ((poll s).2.setR0 (eventOrNothing (poll s).1)).retire := by
  simp [exec, execPollkey, hm]

theorem exec_waitkey_polls (hm : s.cfg.multicore = false) : exec .waitkey s = .next (waitPoll s) := by
  simp [exec, execWaitkey, hm]

/-- From Idle a poll that reports nothing leaves WAITKEY waiting (R227, log 7). -/
theorem waitPoll_waits (hdb : s.db = .idle) (hnone : (poll s).1 = none) : waitPoll s = (poll s).2 := if_pos ⟨hdb, hnone⟩

/-- In every other case WAITKEY completes as POLLKEY does (R227). -/
theorem waitPoll_completes (h : ¬ (s.db = .idle ∧ (poll s).1 = none)) :
    waitPoll s = ((poll s).2.setR0 (eventOrNothing (poll s).1)).retire := if_neg h

/-- What a completed poll leaves alone, whatever it answers. -/
theorem poll_answer_frame (s : State) (v : Word) :
    ((poll s).2.setR0 v).retire = { s with
      result0 := v, cmdbuf := [], db := (poll s).2.db, time := (poll s).2.time, rowsel := (poll s).2.rowsel
      matrix := (poll s).2.matrix, draws := (poll s).2.draws } := by
  have hframe := poll_frame s
  unfold PollFrame at hframe
  rw [hframe]
  rfl

/-- Settles O53: POLLKEY is one poll, its answer, and its completion. -/
theorem pollkeyPollsOnTheSingleContextBlock : Obligations.PollkeyPollsOnTheSingleContextBlock :=
  fun s hm => ⟨_, exec_pollkey_polls hm, rfl, rfl, poll_answer_frame s _⟩

/-- From Idle a poll reports a Press or nothing (R223). -/
theorem poll_idle_press {e : KeyEvent} (hdb : s.db = .idle) (he : (poll s).1 = some e) :
    e.press = true ∧ (poll s).2.db.key = some e.key := by
  have hreports := poll_reports s
  rw [hdb, he] at hreports
  generalize (poll s).2.db = d at hreports
  cases hreports
  exact ⟨rfl, rfl⟩

theorem poll_idle_nothing (hdb : s.db = .idle) (hnone : (poll s).1 = none) : (poll s).2.db = s.db := by
  have hreports := poll_reports s
  rw [hdb, hnone] at hreports
  rw [hdb]
  generalize (poll s).2.db = d at hreports
  cases hreports
  rfl

/-- Settles O55: WAITKEY from Pressed, from Idle with a Press, and from Idle with nothing. -/
theorem waitkeyPollsUntilAPress : Obligations.WaitkeyPollsUntilAPress := by
  refine fun s hm => ⟨fun hdb => ?_, fun e hdb he => ?_, fun hdb hnone => ?_⟩ <;> rw [exec_waitkey_polls hm]
  · rw [waitPoll_completes fun h => hdb h.1]
    exact ⟨_, rfl, exec_pollkey_polls hm, rfl⟩
  · obtain ⟨hpress, hkey⟩ := poll_idle_press hdb he
    have hword : eventOrNothing (poll s).1 = eventWord true e.key.row e.key.col := by
      rw [he, ← hpress]
      rfl
    rw [waitPoll_completes (by simp [he]), hword]
    exact ⟨_, rfl, rfl, rfl, hkey, poll_answer_frame s _⟩
  · have hframe := poll_frame s
    unfold PollFrame at hframe
    rw [poll_idle_nothing hdb hnone] at hframe
    rw [waitPoll_waits hdb hnone]
    exact ⟨_, rfl, hframe⟩

/-! ### The key commands with MULTICORE = 1 -/

section
variable (hm : s.cfg.multicore = true)
include hm

theorem exec_pollkey_pops : exec .pollkey s = .next (s.pop.2.setR0 (s.pop.1.getD 0)).retire := by
  simp [exec, execPollkey, hm]

theorem exec_waitkey_pops : exec .waitkey s = .next (waitPop s) := by simp [exec, execWaitkey, hm]

end

theorem State.pop_cons {ev : Word} {rest : List Word} (hq : s.q = ev :: rest) : s.pop = (some ev, { s with q := rest }) := by
  simp only [State.pop, hq]

theorem State.pop_nil (hq : s.q = []) : s.pop = (none, s) := by simp only [State.pop, hq]

theorem waitPop_cons {ev : Word} {rest : List Word} (hq : s.q = ev :: rest) :
    waitPop s = { s with q := rest, result0 := ev, cmdbuf := [] } := by
  simp only [waitPop, hq, State.setR0, State.retire]

theorem waitPop_nil (hq : s.q = []) : waitPop s = s := by simp only [waitPop, hq]

/-- Settles O54: both commands with the queue not empty, and with it empty. -/
theorem keyCommandsTakeTheOldestEvent : Obligations.KeyCommandsTakeTheOldestEvent := by
  refine ⟨fun a rest => ⟨decode_header _ _ _, decode_header _ _ _⟩, fun s hm => ?_⟩
  rw [exec_pollkey_pops hm, exec_waitkey_pops hm]
  refine ⟨fun ev rest hq => ?_, fun hq => ?_⟩
  · rw [State.pop_cons hq, waitPop_cons hq]
    exact ⟨rfl, rfl⟩
  · rw [State.pop_nil hq, waitPop_nil hq]
    exact ⟨rfl, rfl⟩

end Sys2Proof.Machine
end

section
/-! The scan engine's step in each of its four states (46_queue_arb.md R251, R257 to R259). -/

namespace Sys2Proof.Machine

variable {s : State}

/-! ### The poll of InPoll -/

/-- A poll takes no turn off the list (45_keyscan.md R225, log 1). -/
theorem poll_sched (s : State) : (poll s).2.sched = s.sched := by
  have hframe := poll_frame s
  unfold PollFrame at hframe
  rw [hframe]

theorem enginePoll_none {s1 : State} (hpoll : poll s = (none, s1)) :
    enginePoll s = { s1 with scanact := false, se := .checkArb } := by
  simp only [enginePoll, hpoll]

theorem enginePoll_some {e : KeyEvent} {s1 : State} (hpoll : poll s = (some e, s1)) :
    enginePoll s = { s1 with scanact := false, se := .pushPending e.word } := by
  simp only [enginePoll, hpoll]

/-! ### The room in the queue -/

theorem State.canPush_iff : s.canPush = true ↔ s.q.length < 32 := decide_eq_true_iff

/-! ### The steps -/

section
variable (hm : s.cfg.multicore = true)
include hm

theorem engineStep_off (hse : s.se = .off) :
    engineStep s = { s with se := if s.scanen then .checkArb else .off } := by
  have hstep : engineStep s = if s.scanen then { s with se := .checkArb } else s := by
    simp only [engineStep, hm, hse, if_true]
  rw [hstep]
  split
  · rfl
  · rw [← hse]

theorem engineStep_checkArb_free (hse : s.se = .checkArb) (harb : s.arb = false) :
    engineStep s = { s with scanact := true, se := .inPoll } := by
  simp [engineStep, hm, hse, harb]

theorem engineStep_checkArb_taken (hse : s.se = .checkArb) (harb : s.arb = true) : engineStep s = s := by
  simp [engineStep, hm, hse, harb]

theorem engineStep_inPoll (hse : s.se = .inPoll) : engineStep s = enginePoll s := by
  simp only [engineStep, hm, hse, if_true]

theorem engineStep_push {ev : Word} (hse : s.se = .pushPending ev) (hroom : s.q.length < 32) :
    engineStep s = { s with q := s.q ++ [ev], se := .checkArb } := by
  simp only [engineStep, hm, hse, State.canPush_iff.2 hroom, if_true, State.push]

theorem engineStep_push_waits {ev : Word} (hse : s.se = .pushPending ev) (hfull : 32 ≤ s.q.length) :
    engineStep s = s := by
  have hcannot : ¬ s.canPush = true := fun hcan => absurd (State.canPush_iff.1 hcan) (Nat.not_lt.2 hfull)
  simp only [engineStep, hm, hse, if_true, if_neg hcannot]

end

/-- Settles O56: a scan turn is `engineStep`, taken state by state; the poll of InPoll leaves the list of turns as it was. -/
theorem scanEngineFollowsItsStates : Obligations.ScanEngineFollowsItsStates := by
  intro s hm
  have hturn : step (s.taking .scan) = .next (engineStep s) := step_taking s .scan
  have hsched {event : Option KeyEvent} {s1 : State} (hpoll : poll s = (event, s1)) : s.sched = s1.sched := by
    rw [← poll_sched s, hpoll]
  rw [hturn]
  refine ⟨fun hse => ?off, fun hse harb => ?free, fun hse harb => ?taken, fun s1 hse hpoll => ?nothing,
    fun e s1 hse hpoll => ?event, fun ev hse hroom => ?room, fun ev hse hfull => ?full⟩
  case off => rw [engineStep_off hm hse]
  case free => rw [engineStep_checkArb_free hm hse harb]
  case taken => rw [engineStep_checkArb_taken hm hse harb]
  case nothing => rw [engineStep_inPoll hm hse, enginePoll_none hpoll, hsched hpoll]
  case event => rw [engineStep_inPoll hm hse, enginePoll_some hpoll, hsched hpoll]
  case room => rw [engineStep_push hm hse hroom]
  case full => rw [engineStep_push_waits hm hse hfull]

end Sys2Proof.Machine
end

section
/-! No turn stops (60_exceptions.md R280): the only fault of the model is that of a command without a current surface, and
every state of the invariant has one (10_state.md R23). -/

namespace Sys2Proof.Machine

variable {s : State}

/-! ### The commands -/

theorem execBitmap_next {sf : Surface} (hcur : s.current? = some sf) (x y : Word) (p : BitVec 32) :
    ∃ t, execBitmap x y p s = .next t := by
  by_cases hp : p = 0
  · exact ⟨_, if_pos hp⟩
  · exact ⟨_, execBitmap_some hp x y hcur⟩

/-- Every command answers a next state where there is a current surface; those that do not act on it answer one anywhere. -/
theorem exec_next (hcurrent : ∃ sf, s.current? = some sf) (i : Instr) : ∃ t, exec i s = .next t := by
  obtain ⟨sf, hcur⟩ := hcurrent
  cases i with
  | nop | surfnew | surffree | select | present | pollkey | waitkey => exact ⟨_, rfl⟩
  | setcur | setfg | fill | pixel | line | rect | sprite | char | string => exact ⟨_, s.onCurrent_some hcur _⟩
  | setfont f => exact ⟨_, exec_setfont_some hcur f⟩
  | getcur => exact ⟨_, exec_getcur_some hcur⟩
  | getpix x y => exact ⟨_, execGetpix_some hcur x y⟩
  | bitmap x y p => exact execBitmap_next hcur x y p

/-! ### The turns -/

/-- Whatever `CMDBUF` holds: a command, an illegal header (60_exceptions.md R282) or an incomplete command. -/
theorem runCommand_next (hcurrent : ∃ sf, s.current? = some sf) : ∃ t, runCommand s = .next t := by
  unfold runCommand
  split
  case h_1 i _ _ => exact exec_next hcurrent i
  case h_2 => exact ⟨_, rfl⟩
  case h_3 => exact ⟨_, rfl⟩

/-- Only a write of CMD can run a command; every other access of the host just retires (10_state.md R28). -/
theorem hostAccess_next (hcurrent : ∃ sf, s.current? = some sf) (op : HostOp) : ∃ t, hostAccess op s = .next t := by
  unfold hostAccess
  split
  case h_1 v => exact runCommand_next (s := { s with cmdbuf := s.cmdbuf ++ [v] }) hcurrent
  all_goals exact ⟨_, rfl⟩

theorem primaryTurn_next (hcurrent : ∃ sf, s.current? = some sf) : ∃ t, primaryTurn s = .next t := by
  unfold primaryTurn
  split
  case isTrue => exact runCommand_next hcurrent
  case isFalse =>
    split
    case h_1 => exact ⟨_, rfl⟩
    case h_2 op rest _ => exact hostAccess_next (s := { s with hostOps := rest }) hcurrent op

theorem takeTurn_next (hcurrent : ∃ sf, s.current? = some sf) (turn : Turn) : ∃ t, takeTurn turn s = .next t := by
  cases turn with
  | primary => exact primaryTurn_next hcurrent
  | scan | tick | reset => exact ⟨_, rfl⟩

/-- Settles O10: the choice of the turn keeps the invariant, so the agent that moves finds a current surface. -/
theorem noStepStops : Obligations.NoStepStops := fun s h => takeTurn_next (nextTurn_keeps_inv h).current (nextTurn s).1

end Sys2Proof.Machine
end
